-- ==== Sys2Proof/Config.lean ====
section
/-! DEFINITION. What an implementation of the CS3626-Feistel core fixes: the parameters of R7. -/

namespace Sys2Proof

/-- The parameters of R7, constant over a run. `base` is read by no rule (R60, U12). -/
structure Config where
  /-- `KEY_MAX`, capacity of the key store in bytes. -/
  keyMax : Nat
  /-- `BUF_MAX`, capacity of IBUF and of OBUF in bytes. -/
  bufMax : Nat
  /-- `BASE`, the system address of offset 0. -/
  base : Nat
deriving DecidableEq, Repr

/-- The defaults of R7. DESIGN CHOICE for `base`: the spec gives none (log entry 3). -/
def Config.default : Config := { keyMax := 256, bufMax := 4096, base := 0 }

/-- The ranges of R7: `1 ≤ KEY_MAX ≤ 4096` and `2 ≤ BUF_MAX ≤ 4096`. -/
abbrev Config.Valid (c : Config) : Prop :=
  (1 ≤ c.keyMax ∧ c.keyMax ≤ 4096) ∧ (2 ≤ c.bufMax ∧ c.bufMax ≤ 4096)

end Sys2Proof
end

