-- ==== Sys2Proof/Word.lean ====
section
/-! DEFINITION. The word types of the CS3626-Feistel core (R8: every value is an unsigned integer of a stated width). -/

namespace Sys2Proof

/-- One byte: a store byte, a half block, a multiplier operand (R7, R33, R35, R101). -/
abbrev Byte := BitVec 8

/-- One host-visible register or bus data word (R7, R92). -/
abbrev Word := BitVec 32

/-- A 13-bit engine counter (R35). -/
abbrev Count := BitVec 13

/-- A window index, `OFF[11:0]` (R94). -/
abbrev Index := BitVec 12

/-- A BUS17 descriptor: `K` in bit 16, `WC` in bits 15..14, `OFF` in bits 13..0 (R92). -/
abbrev Descriptor := BitVec 17

end Sys2Proof
end

