-- ==== Sys2Proof/Syntax.lean ====
section
/-! DEFINITION. The instructions of the core as syntax: one constructor for each row of spec/opcode_table.json,
and the three formats their words are written in (R80). -/

namespace Sys2Proof

/-- BlockMode (R12): fixed for a whole operation. -/
inductive BlockMode where
  | nibble
  | byte
deriving DecidableEq, Repr

/-- The direction of an operation (R35, R133). -/
inductive Dir where
  | enc
  | dec
deriving DecidableEq, Repr

/-- A local byte store, also the name of its host window (R33, R61). -/
inductive Space where
  | key
  | ibuf
  | obuf
deriving DecidableEq, Repr

/-- The host-visible registers (R23). -/
inductive RegName where
  | cmd
  | status
  | len
  | keylen
  | outlen
deriving DecidableEq, Repr

/-- The verdict of the command decoder on a valid command word, `OPN(mode)` (R85, R145). -/
structure Command where
  dir : Dir
  mode : BlockMode
deriving DecidableEq, Repr

/-- The instructions, in the order of the opcode table. `d` is a write's DATA word, `i` a window index. -/
inductive Instr where
  | encrypt (m : BlockMode)
  | decrypt (m : BlockMode)
  | gfmul4
  | gfmul8
  | wrCmd (d : Word)
  | rdCmd
  | wrStatus (d : Word)
  | rdStatus
  | wrLen (d : Word)
  | rdLen
  | wrKeylen (d : Word)
  | rdKeylen
  | wrOutlen (d : Word)
  | rdOutlen
  | wrbKey (i : Index) (d : Word)
  | rdbKey (i : Index)
  | wrbIbuf (i : Index) (d : Word)
  | rdbIbuf (i : Index)
  | wrbObuf (i : Index) (d : Word)
  | rdbObuf (i : Index)
deriving DecidableEq, Repr

/-- An encoded instruction in one of the three fixed-width formats (R80). -/
inductive Encoded where
  /-- A host transaction: descriptor and data word (R92). -/
  | bus17 (desc : Descriptor) (data : Word)
  /-- A command word (R81 to R85). -/
  | cmd32 (w : Word)
  /-- The internal multiplier select (R89). -/
  | mulsel (sel : BitVec 1)
deriving DecidableEq, Repr

/-- Why a decoder rejects, by name. -/
inductive Reject where
  /-- `WC = 0b11` (R87(b)). -/
  | reservedWidthCode
  /-- A width other than 4, or a misaligned offset, in the register region (R67). -/
  | badRegisterAccess
  /-- An aligned offset in the register region that no register has (R61). -/
  | unmappedOffset
  /-- A width other than 1 on a window (R67). -/
  | badWindowWidth
  /-- A window index at or above the capacity (R61). -/
  | indexBeyondCapacity
  /-- `CMD32[31:3] ≠ 0` (R83). -/
  | reservedCommandBits
  /-- `CMD32.OP` is 0b00 or 0b11 (R82). -/
  | reservedOperation
deriving DecidableEq, Repr

end Sys2Proof
end

