-- ==== Sys2Proof/WellFormed.lean ====
section
/-! DEFINITION. Which instructions an encoding exists for: a window index lies below its store's capacity (R61,
the "condition" of the table's window rows). Every other operand has a value for each of its bits. -/

namespace Sys2Proof

/-- The capacity of a store (R7, R33). -/
def Config.capacity (c : Config) : Space → Nat
  | .key => c.keyMax
  | .ibuf => c.bufMax
  | .obuf => c.bufMax

/-- A window index is mapped (R61). -/
abbrev Index.mapped (c : Config) (sp : Space) (i : Index) : Prop := i.toNat < c.capacity sp

/-- The well-formed instructions under the parameters `c`. -/
def Instr.wellFormed (c : Config) : Instr → Bool
  | .encrypt _ => true
  | .decrypt _ => true
  | .gfmul4 => true
  | .gfmul8 => true
  | .wrCmd _ => true
  | .rdCmd => true
  | .wrStatus _ => true
  | .rdStatus => true
  | .wrLen _ => true
  | .rdLen => true
  | .wrKeylen _ => true
  | .rdKeylen => true
  | .wrOutlen _ => true
  | .rdOutlen => true
  | .wrbKey i _ => decide (Index.mapped c .key i)
  | .rdbKey i => decide (Index.mapped c .key i)
  | .wrbIbuf i _ => decide (Index.mapped c .ibuf i)
  | .rdbIbuf i => decide (Index.mapped c .ibuf i)
  | .wrbObuf i _ => decide (Index.mapped c .obuf i)
  | .rdbObuf i => decide (Index.mapped c .obuf i)

end Sys2Proof
end

