-- ==== Sys2Proof/Decode.lean ====
section
/-! DEFINITION. The two total decoders of the core (R85, R94), the multiplier select (R89), and the encoder,
written from the spec's encoding tables (R84, R90, R92 and each row's "Encoding"). -/

namespace Sys2Proof

/-- What a BUS17 descriptor selects (R94). -/
inductive Target where
  | reg (r : RegName)
  | win (sp : Space) (i : Index)
deriving DecidableEq, Repr

/-- The register at an offset of the register region (R23, R94). -/
def registerAt (off : BitVec 14) : Option RegName :=
  if off = 0x000#14 then some .cmd
  else if off = 0x004#14 then some .status
  else if off = 0x008#14 then some .len
  else if off = 0x00C#14 then some .keylen
  else if off = 0x010#14 then some .outlen
  else none

/-- The width in bytes that a width code selects, none for the reserved code (R92). -/
def widthOf (wc : BitVec 2) : Option Nat :=
  if wc = 0b00#2 then some 1
  else if wc = 0b01#2 then some 2
  else if wc = 0b10#2 then some 4
  else none

/-- The window of an offset at or above 0x1000, by `OFF[13:12]` (R94). -/
def windowOf (region : BitVec 2) : Space :=
  if region = 0b01#2 then .key else if region = 0b10#2 then .ibuf else .obuf

/-- `decode_bus` of R94, which does not read K. -/
def busTarget (c : Config) (wc : BitVec 2) (off : BitVec 14) : Except Reject Target :=
  match widthOf wc with
  | none => .error .reservedWidthCode
  | some width =>
    if off.extractLsb' 12 2 = 0b00#2 then
      if width ≠ 4 ∨ off.extractLsb' 0 2 ≠ 0b00#2 then .error .badRegisterAccess
      else
        match registerAt off with
        | some r => .ok (.reg r)
        | none => .error .unmappedOffset
    else if width ≠ 1 then .error .badWindowWidth
    else if Index.mapped c (windowOf (off.extractLsb' 12 2)) (off.extractLsb' 0 12) then
      .ok (.win (windowOf (off.extractLsb' 12 2)) (off.extractLsb' 0 12))
    else .error .indexBeyondCapacity

/-- The transaction of a target and kind: K = 1 writes, K = 0 reads (R92). -/
def targetInstr (k : Bool) (data : Word) : Target → Instr
  | .reg .cmd => if k then .wrCmd data else .rdCmd
  | .reg .status => if k then .wrStatus data else .rdStatus
  | .reg .len => if k then .wrLen data else .rdLen
  | .reg .keylen => if k then .wrKeylen data else .rdKeylen
  | .reg .outlen => if k then .wrOutlen data else .rdOutlen
  | .win .key i => if k then .wrbKey i data else .rdbKey i
  | .win .ibuf i => if k then .wrbIbuf i data else .rdbIbuf i
  | .win .obuf i => if k then .wrbObuf i data else .rdbObuf i

/-- The fields `K`, `WC` and `OFF` of a descriptor (R92). -/
def Descriptor.k (d : Descriptor) : Bool := d.getLsbD 16

/-- `WC`, bits 15..14. -/
def Descriptor.wc (d : Descriptor) : BitVec 2 := d.extractLsb' 14 2

/-- `OFF`, bits 13..0. -/
def Descriptor.off (d : Descriptor) : BitVec 14 := d.extractLsb' 0 14

/-- A host transaction as an instruction (R92, R94). -/
def decodeBus (c : Config) (desc : Descriptor) (data : Word) : Except Reject Instr :=
  (busTarget c (Descriptor.wc desc) (Descriptor.off desc)).map (targetInstr (Descriptor.k desc) data)

/-- `decode_cmd` of R85. -/
def decodeCmd (w : Word) : Except Reject Command :=
  if w.extractLsb' 3 29 ≠ 0#29 then .error .reservedCommandBits
  else
    let mode : BlockMode := if w.getLsbD 2 then .byte else .nibble
    if w.extractLsb' 0 2 = 0b01#2 then .ok { dir := .enc, mode := mode }
    else if w.extractLsb' 0 2 = 0b10#2 then .ok { dir := .dec, mode := mode }
    else .error .reservedOperation

/-- The instruction a decoded command word is (R84). -/
def Command.instr (c : Command) : Instr :=
  match c.dir with
  | .enc => .encrypt c.mode
  | .dec => .decrypt c.mode

/-- The multiplier MULSEL selects: 0 is GFMUL4 and 1 is GFMUL8 (R89). -/
def decodeMulsel (sel : BitVec 1) : Instr :=
  if sel = 0#1 then .gfmul4 else .gfmul8

/-- The whole decoder, total on every word of each format (R80). -/
def decode (c : Config) : Encoded → Except Reject Instr
  | .bus17 desc data => decodeBus c desc data
  | .cmd32 w => (decodeCmd w).map Command.instr
  | .mulsel sel => .ok (decodeMulsel sel)

/-- The MODE bit of a command word (R81): 0 NibbleMode, 1 ByteMode. -/
def modeBit : BlockMode → BitVec 1
  | .nibble => 0#1
  | .byte => 1#1

/-- The command word of an operation: reserved bits 0, MODE in bit 2, OP in bits 1..0 (R80, R84). -/
def commandWord (op : BitVec 2) (m : BlockMode) : Word := 0#29 ++ modeBit m ++ op

/-- A window descriptor: the row's five fixed bits, then the index (R182 to R187). -/
def windowDesc (fixed : BitVec 5) (i : Index) : Descriptor := fixed ++ i

/-- The words of an instruction. A read carries no data word, written as 0. -/
def encode : Instr → Encoded
  | .encrypt m => .cmd32 (commandWord 0b01#2 m)
  | .decrypt m => .cmd32 (commandWord 0b10#2 m)
  | .gfmul4 => .mulsel 0#1
  | .gfmul8 => .mulsel 1#1
  | .wrCmd d => .bus17 0x18000#17 d
  | .rdCmd => .bus17 0x08000#17 0#32
  | .wrStatus d => .bus17 0x18004#17 d
  | .rdStatus => .bus17 0x08004#17 0#32
  | .wrLen d => .bus17 0x18008#17 d
  | .rdLen => .bus17 0x08008#17 0#32
  | .wrKeylen d => .bus17 0x1800C#17 d
  | .rdKeylen => .bus17 0x0800C#17 0#32
  | .wrOutlen d => .bus17 0x18010#17 d
  | .rdOutlen => .bus17 0x08010#17 0#32
  | .wrbKey i d => .bus17 (windowDesc 0b10001#5 i) d
  | .rdbKey i => .bus17 (windowDesc 0b00001#5 i) 0#32
  | .wrbIbuf i d => .bus17 (windowDesc 0b10010#5 i) d
  | .rdbIbuf i => .bus17 (windowDesc 0b00010#5 i) 0#32
  | .wrbObuf i d => .bus17 (windowDesc 0b10011#5 i) d
  | .rdbObuf i => .bus17 (windowDesc 0b00011#5 i) 0#32

/-- A word of the opcode table in its format, told by the row's size in bits: MULSEL rows have 1 bit (one byte),
BUS17 rows 17 (three bytes), CMD32 rows 32. The data word of a BUS17 row has no bits in the table and is 0.
None for a word that has more bits than its format. -/
def tableWord (nbits w : Nat) : Option Encoded :=
  if nbits ≤ 8 then
    if w < 2 then some (.mulsel (BitVec.ofNat 1 w)) else none
  else if nbits ≤ 24 then
    if w < 2 ^ 17 then some (.bus17 (BitVec.ofNat 17 w) 0#32) else none
  else if w < 2 ^ 32 then some (.cmd32 (BitVec.ofNat 32 w)) else none

/-- The instruction the decoder reads from a word of the opcode table, under the default parameters. -/
def decodeTableWord (nbits w : Nat) : Option Instr :=
  (tableWord nbits w).bind fun e => (decode Config.default e).toOption

end Sys2Proof
end

