-- ==== Sys2Proof/Machine/Operands.lean ====
section
/-! DEFINITION. The operand forms: the constants of a block mode (R7), the parts of a data word (R170), blocks and
their halves (R12, R130, R132), and the key index (R133). -/

namespace Sys2Proof.Machine

/-- `W(mode)`, the half width in bits (R7). -/
def halfWidth : BlockMode → Nat
  | .nibble => 4
  | .byte => 8

/-- `M(mode)`, the half mask (R7). -/
def halfMask : BlockMode → Byte
  | .nibble => 0x0F#8
  | .byte => 0xFF#8

/-- `S(mode)`, the block size in bytes (R7). -/
def blockSize : BlockMode → Nat
  | .nibble => 1
  | .byte => 2

/-- The byte a window write takes: `DATA[7:0]`, with `DATA[31:8]` ignored (R170). -/
def dataByte (d : Word) : Byte := d.setWidth 8

/-- `zext_32` of a byte, what a window read returns (R170). -/
def zext32 (b : Byte) : Word := b.setWidth 32

/-- One block: one byte in NibbleMode, two in ByteMode (R12). -/
inductive Block where
  | nibble (x : Byte)
  | byte (x0 x1 : Byte)
deriving DecidableEq, Repr

/-- The bytes of a block, lowest index first (R63, R65). -/
def blockBytes : Block → List Byte
  | .nibble x => [x]
  | .byte x0 x1 => [x0, x1]

/-- The mode of a block. -/
def blockMode : Block → BlockMode
  | .nibble _ => .nibble
  | .byte _ _ => .byte

/-- The left and right halves of a block during the rounds (R12). -/
structure Halves where
  l : Byte
  r : Byte
deriving DecidableEq, Repr

/-- The block splitter (R130). -/
def split : Block → Halves
  | .nibble x => { l := (x.extractLsb' 4 4).setWidth 8, r := (x.extractLsb' 0 4).setWidth 8 }
  | .byte x0 x1 => { l := x0, r := x1 }

/-- The swap on output (R132). -/
def join (m : BlockMode) (h : Halves) : Block :=
  match m with
  | .nibble => .nibble (h.r.extractLsb' 0 4 ++ h.l.extractLsb' 0 4)
  | .byte => .byte h.r h.l

/-- The key indexer on numbers, `ki(dir, n, r)` (R133). -/
def keyIndex (d : Dir) (n r : Nat) : Nat :=
  match d with
  | .enc => r
  | .dec => n - 1 - r

end Sys2Proof.Machine
end

