-- ==== Sys2Proof/Machine/Gf.lean ====
section
/-! DEFINITION. The carry-less multipliers (R100 to R103) and the round function F (R120), combinational functions
with no state (R101). -/

namespace Sys2Proof.Machine

/-- One iteration's new `bb` (R102, R103): `carry` is bit W-1 of `bb` before the shift, and the reduction applies
to the shifted `bb`. -/
def gfShift (w : Nat) (pl mask bb : Byte) : Byte :=
  if bb.getLsbD (w - 1) then ((bb <<< 1) &&& mask) ^^^ pl else (bb <<< 1) &&& mask

/-- The loop of R102 from the values `aa`, `bb` and `acc`, with the given number of iterations left. -/
def gfLoop (w : Nat) (pl mask : Byte) : Nat → Byte → Byte → Byte → Byte
  | 0, _, _, acc => acc
  | n + 1, aa, bb, acc =>
    gfLoop w pl mask n (aa >>> 1) (gfShift w pl mask bb) (if aa.getLsbD 0 then acc ^^^ bb else acc)

/-- `gfmul(W, Pl, a, b)` of R102 with its mask `M = 2^W - 1`, zero-extended to 8 bits. -/
def gfmul (w : Nat) (pl a b : Byte) : Byte :=
  let mask : Byte := BitVec.ofNat 8 (2 ^ w - 1)
  gfLoop w pl mask w (a &&& mask) (b &&& mask) 0x00#8 &&& mask

/-- GFMUL8 reduces by 0x11B (R100, R105). -/
def gfmul8 (a b : Byte) : Byte := gfmul 8 0x1B#8 a b

/-- GFMUL4 reduces by 0x13 (R100, R106). -/
def gfmul4 (a b : Byte) : Byte := gfmul 4 0x03#8 a b

/-- MULSEL, the encoding of the mode (R89). -/
def mulselOf : BlockMode → BitVec 1
  | .nibble => 0#1
  | .byte => 1#1

/-- The round function `F(h, k, mode)` (R120, R121). -/
def roundFn (h k : Byte) : BlockMode → Byte
  | .byte => gfmul8 h k
  | .nibble => gfmul4 h k

/-- The XOR-and-swap of a diffusion value already computed (R131): both halves come from the old halves. -/
def xorSwap (f : Byte) (h : Halves) : Halves := { l := h.r, r := h.l ^^^ f }

/-- `round(mode, k, (L, R))` (R131). -/
def feistelRound (m : BlockMode) (k : Byte) (h : Halves) : Halves :=
  xorSwap (roundFn h.r k m &&& halfMask m) h

end Sys2Proof.Machine
end

