-- ==== Sys2Proof/Machine/State.lean ====
section
/-! DEFINITION. The state of the core (R20), the reasons a step can stop, and the state after reset (R40). -/

namespace Sys2Proof.Machine

/-- Why the machine stops. -/
inductive Fault where
  /-- Raised by a host window read while idle, by FETCH and by ROUND, on a byte nothing has written since reset
  (R155, R183, R185, R187; U1). SAFE: the spec leaves the hardware's value unspecified and asks for this fault. -/
  | undefinedByte (sp : Space) (i : Nat)
  /-- Raised by an engine access at or beyond a store's capacity. By R154 no reachable state does it, so it stops
  only states that no run reaches. SAFE (log entry 6). -/
  | outsideStore (sp : Space) (i : Nat)
deriving DecidableEq, Repr

/-- Why an instruction has no meaning. -/
inductive Refusal where
  /-- Raised by an arm of `exec` whose instruction is not modelled. No arm raises it. SAFE. -/
  | notModelled (mnemonic : String)
deriving DecidableEq, Repr

/-- The sequencer's five states (R36). -/
inductive Fsm where
  | idle
  | fetch
  | round
  | store
  | finish
deriving DecidableEq, Repr

/-- The stored host-visible registers (R20, R25 to R32). BUSY and CMD have no storage (R24, R26). -/
structure Regs where
  done : Bool
  err : Bool
  errcode : BitVec 4
  len : Word
  keylen : Word
  outlen : Word
deriving DecidableEq, Repr

/-- A local byte store (R33): its defined bytes by index, strictly rising. An unlisted index is `undefined` (R34). -/
abbrev Store := List Host.Cell

/-- The three local stores (R33). -/
structure Memory where
  key : Store
  ibuf : Store
  obuf : Store
deriving DecidableEq, Repr

/-- The engine's registers (R35) and sequencer (R36). -/
structure Engine where
  fsm : Fsm
  dir : Dir
  mode : BlockMode
  nk : Count
  nb : Count
  bi : Count
  rc : Count
  l : Byte
  r : Byte
deriving DecidableEq, Repr

/-- The response of a host transaction (R170). -/
inductive Resp where
  | okay
  | error
deriving DecidableEq, Repr

/-- What a host transaction returns (R170). -/
structure Response where
  resp : Resp
  rdata : Word
deriving DecidableEq, Repr

/-- One step of the interleaving (R6, R71): a host transaction, an engine turn, or a reset. -/
inductive Input where
  | bus (desc : Descriptor) (data : Word)
  | engine
  | reset
deriving DecidableEq, Repr

/-- The machine. `regs`, `mem` and `eng` are the record of R20. `cfg` holds the parameters of R7; `inputs` is
the rest of the interleaving, oldest first (log entry 2); `resp` is the latest transaction's response (log entry 5). -/
structure State where
  cfg : Config
  regs : Regs
  mem : Memory
  eng : Engine
  inputs : List Input
  resp : Option Response
deriving DecidableEq, Repr

/-- The registers after reset (R40). -/
def Regs.reset : Regs :=
  { done := false, err := false, errcode := 0#4, len := 0#32, keylen := 0#32, outlen := 0#32 }

/-- The stores after reset: every byte undefined (R40, R232). -/
def Memory.reset : Memory := { key := [], ibuf := [], obuf := [] }

/-- The engine after reset: IDLE (R40). DESIGN CHOICE for the other registers, which R40 leaves unspecified
(log entry 1). -/
def Engine.reset : Engine :=
  { fsm := .idle, dir := .enc, mode := .nibble, nk := 0#13, nb := 0#13, bi := 0#13, rc := 0#13,
    l := 0x00#8, r := 0x00#8 }

/-- The machine right after reset (R40), with the default parameters and nothing yet asked of it. -/
def State.reset : State :=
  { cfg := Config.default, regs := Regs.reset, mem := Memory.reset, eng := Engine.reset, inputs := [], resp := none }

end Sys2Proof.Machine
end

