-- ==== Sys2Proof/Machine/Ops.lean ====
section
/-! DEFINITION. The named operations over stores, registers and the engine, and what the spec has in the place of
exceptions: `flag_error` (R201) and `raise BusError` (R203). -/

namespace Sys2Proof.Machine

/-- The outcome of one step of this machine. -/
abbrev Outcome := Host.Outcome State Fault Refusal

/-- The byte at an index, none where it is undefined (R34). -/
def readByte : Store → Nat → Option Byte
  | [], _ => none
  | (a, v) :: rest, i => if i = a then some v else readByte rest i

/-- Make the byte at an index defined, keeping the indices strictly rising. -/
def writeByte : Store → Nat → Byte → Store
  | [], i, v => [(i, v)]
  | (a, w) :: rest, i, v =>
    if i < a then (i, v) :: (a, w) :: rest
    else if i = a then (i, v) :: rest
    else (a, w) :: writeByte rest i v

/-- The canonical form of a store: indices strictly rising. An entry is always a defined byte, so no entry equals
what an unlisted index reads as. -/
abbrev Store.wf (st : Store) : Prop := (st.map Prod.fst).Pairwise (· < ·)

/-- The canonical form of memory. -/
abbrev Memory.wf (m : Memory) : Prop := Store.wf m.key ∧ Store.wf m.ibuf ∧ Store.wf m.obuf

/-- Every listed index of a store is below a capacity. -/
abbrev Store.below (cap : Nat) (st : Store) : Prop := ∀ c ∈ st, c.1 < cap

/-- Every listed index of memory is below its store's capacity (R33). -/
abbrev Memory.within (c : Config) (m : Memory) : Prop :=
  Store.below (c.capacity .key) m.key ∧ Store.below (c.capacity .ibuf) m.ibuf ∧ Store.below (c.capacity .obuf) m.obuf

/-- A store by name. -/
def Memory.at (m : Memory) : Space → Store
  | .key => m.key
  | .ibuf => m.ibuf
  | .obuf => m.obuf

/-- Replace a store. -/
def Memory.put (m : Memory) (sp : Space) (st : Store) : Memory :=
  match sp with
  | .key => { m with key := st }
  | .ibuf => { m with ibuf := st }
  | .obuf => { m with obuf := st }

/-- The byte `space[i]` of a state, none where it is undefined: the model's read of one byte. -/
def State.byteAt (s : State) (sp : Space) (i : Nat) : Option Byte := readByte (s.mem.at sp) i

/-- Set a register; the fields of R20 one by one. -/
def State.setLen (s : State) (w : Word) : State := { s with regs := { s.regs with len := w } }

/-- Set KEYLEN. -/
def State.setKeylen (s : State) (w : Word) : State := { s with regs := { s.regs with keylen := w } }

/-- Set OUTLEN. -/
def State.setOutlen (s : State) (w : Word) : State := { s with regs := { s.regs with outlen := w } }

/-- Set STATUS.DONE. -/
def State.setDone (s : State) (b : Bool) : State := { s with regs := { s.regs with done := b } }

/-- Set STATUS.ERR and STATUS.ERRCODE, which change only together (R28, R29). -/
def State.setErr (s : State) (b : Bool) (code : BitVec 4) : State :=
  { s with regs := { s.regs with err := b, errcode := code } }

/-- Set the engine's registers and sequencer. -/
def State.setEngine (s : State) (e : Engine) : State := { s with eng := e }

/-- Set the rest of the interleaving. -/
def State.setInputs (s : State) (is : List Input) : State := { s with inputs := is }

/-- Make `space[i]` the byte `v`. -/
def State.putByte (s : State) (sp : Space) (i : Nat) (v : Byte) : State :=
  { s with mem := s.mem.put sp (writeByte (s.mem.at sp) i v) }

/-- End a host transaction with a response and a read word (R170). -/
def State.respond (s : State) (r : Resp) (w : Word) : State := { s with resp := some { resp := r, rdata := w } }

/-- End a host transaction with OKAY and no read word (R170: "For a write, RDATA is 0"). -/
def State.okay (s : State) : State := s.respond .okay 0#32

/-- STATUS.BUSY (R26). -/
def State.busy (s : State) : Bool := decide (s.eng.fsm ≠ .idle)

/-- `MemRead(space, i, 1)` (R10), with the model fault of R34 on an undefined byte. -/
def memRead (s : State) (sp : Space) (i : Nat) : Except Fault Byte :=
  if i < s.cfg.capacity sp then
    match s.byteAt sp i with
    | some v => .ok v
    | none => .error (.undefinedByte sp i)
  else .error (.outsideStore sp i)

/-- `MemWrite(space, i, 1, v)` (R10). -/
def memWrite (s : State) (sp : Space) (i : Nat) (v : Byte) : Except Fault State :=
  if i < s.cfg.capacity sp then .ok (s.putByte sp i v) else .error (.outsideStore sp i)

/-- The interface errors (R202). -/
inductive IfaceError where
  | illegalCmd
  | cmdBusy
  | lenRange
  | keylenRange
  | accessBusy
deriving DecidableEq, Repr

/-- The code STATUS.ERRCODE records (R202). -/
def errorCode : IfaceError → BitVec 4
  | .illegalCmd => 1#4
  | .cmdBusy => 2#4
  | .lenRange => 3#4
  | .keylenRange => 4#4
  | .accessBusy => 5#4

/-- `flag_error(c)` (R201): the first error since the last clear is kept. -/
def flagError (e : IfaceError) (s : State) : State :=
  if s.regs.err then s else s.setErr true (errorCode e)

/-- `raise BusError` (R203): response ERROR, RDATA 0, nothing else changes. -/
def busError (s : State) : State := s.respond .error 0#32

/-- The reset step (R230), which keeps the parameters and the rest of the interleaving. -/
def resetStep (s : State) : State :=
  { cfg := s.cfg, regs := Regs.reset, mem := Memory.reset, eng := Engine.reset, inputs := s.inputs, resp := none }

end Sys2Proof.Machine
end

