-- ==== Sys2Proof/Machine/Engine.lean ====
section
/-! DEFINITION. The engine (R145 to R151): the start of an operation and the micro-steps. Every micro-step is one
parallel group, so its right sides read the state before it (R11). -/

namespace Sys2Proof.Machine

/-- The whole blocks of the input, `LEN div S(mode)` (R145). -/
def blockCount (s : State) (m : BlockMode) : Nat := s.regs.len.toNat / blockSize m

/-- Start (R145): latch the operands and leave IDLE. -/
def startOp (cmd : Command) (s : State) : State :=
  ((s.setDone false).setOutlen 0#32).setEngine
    { s.eng with
      dir := cmd.dir
      mode := cmd.mode
      nk := BitVec.ofNat 13 s.regs.keylen.toNat
      nb := BitVec.ofNat 13 (blockCount s cmd.mode)
      bi := 0#13
      fsm := if blockCount s cmd.mode = 0 then .finish else .fetch }

/-- Read block `E.bi` of IBUF (R146). -/
def fetchBlock (s : State) : Except Fault Block :=
  match s.eng.mode with
  | .byte =>
    match memRead s .ibuf (2 * s.eng.bi.toNat) with
    | .error f => .error f
    | .ok x0 =>
      match memRead s .ibuf (2 * s.eng.bi.toNat + 1) with
      | .error f => .error f
      | .ok x1 => .ok (.byte x0 x1)
  | .nibble =>
    match memRead s .ibuf s.eng.bi.toNat with
    | .error f => .error f
    | .ok x => .ok (.nibble x)

/-- The FETCH micro-step (R146). -/
def microFetch (s : State) : Outcome :=
  match fetchBlock s with
  | .error f => .fault f
  | .ok b =>
    .next (s.setEngine
      { s.eng with
        l := (split b).l
        r := (split b).r
        rc := 0#13
        fsm := if s.eng.nk = 0#13 then .store else .round })

/-- KI, the key store's address during ROUND (R151). -/
def keyAddr (e : Engine) : Count :=
  match e.dir with
  | .enc => e.rc
  | .dec => e.nk - 1#13 - e.rc

/-- The state after a ROUND whose masked diffusion value is `f` (R147). -/
def afterRound (f : Byte) (s : State) : State :=
  let h := xorSwap f { l := s.eng.l, r := s.eng.r }
  s.setEngine
    { s.eng with
      l := h.l
      r := h.r
      rc := s.eng.rc + 1#13
      fsm := if s.eng.rc + 1#13 = s.eng.nk then .store else .round }

/-- The ROUND micro-step with the multiplier `mul` selected (R147): `a` is the right half and `b` the round key (R121). -/
def microRound (mul : Byte → Byte → Byte) (s : State) : Outcome :=
  match memRead s .key (keyAddr s.eng).toNat with
  | .error f => .fault f
  | .ok k => .next (afterRound (mul s.eng.r k &&& halfMask s.eng.mode) s)

/-- A micro-step's write to the output buffer, one byte after another from an index on. -/
def storeBytes (s : State) (i : Nat) : List Byte → Except Fault State
  | [] => .ok s
  | v :: vs =>
    match memWrite s .obuf i v with
    | .error f => .error f
    | .ok s' => storeBytes s' (i + 1) vs

/-- The index in OBUF of the block being stored (R148). -/
def storeIndex (e : Engine) : Nat := blockSize e.mode * e.bi.toNat

/-- The block STORE writes (R148). -/
def storeBlock (e : Engine) : Block := join e.mode { l := e.l, r := e.r }

/-- The STORE micro-step (R148). -/
def microStore (s : State) : Outcome :=
  match storeBytes s (storeIndex s.eng) (blockBytes (storeBlock s.eng)) with
  | .error f => .fault f
  | .ok s' =>
    .next (s'.setEngine
      { s.eng with
        bi := s.eng.bi + 1#13
        fsm := if s.eng.bi + 1#13 = s.eng.nb then .finish else .fetch })

/-- The FINISH micro-step (R149). -/
def microFinish (s : State) : Outcome :=
  .next (((s.setOutlen (BitVec.ofNat 32 (s.eng.nb.toNat * blockSize s.eng.mode))).setDone true).setEngine
    { s.eng with fsm := .idle })

end Sys2Proof.Machine
end

