-- ==== Sys2Proof/Machine/Commands.lean ====
section
/-! DEFINITION. The meanings of the command words ENCRYPT and DECRYPT (R136, R137) and of the transactions on CMD
(R172, R173). -/

namespace Sys2Proof.Machine

/-- `wr CMD` from the command decoder's verdict on the word, none for ILLEGAL (R172): the checks in the spec's order. -/
def writeCommand (verdict : Option Command) (s : State) : Outcome :=
  if s.busy then .next (flagError .cmdBusy s).okay
  else
    match verdict with
    | none => .next (flagError .illegalCmd s).okay
    | some cmd =>
      if s.cfg.bufMax < s.regs.len.toNat then .next (flagError .lenRange s).okay
      else if s.cfg.keyMax < s.regs.keylen.toNat then .next (flagError .keylenRange s).okay
      else .next (startOp cmd s).okay

/-- ENCRYPT (R136), the command word written to CMD. -/
def execEncrypt (m : BlockMode) (s : State) : Outcome := writeCommand (some { dir := .enc, mode := m }) s

/-- DECRYPT (R137), the command word written to CMD. -/
def execDecrypt (m : BlockMode) (s : State) : Outcome := writeCommand (some { dir := .dec, mode := m }) s

/-- `wr CMD, w` (R172). -/
def execWrCmd (d : Word) (s : State) : Outcome := writeCommand (decodeCmd d).toOption s

/-- `rd CMD` (R173): reads as 0. -/
def execRdCmd (s : State) : Outcome := .next (s.respond .okay 0#32)

end Sys2Proof.Machine
end

