-- ==== Sys2Proof/Machine/Multiplier.lean ====
section
/-! DEFINITION. The meanings of GFMUL4 and GFMUL8. The units are internal and have no state (R2, R101): the machine
uses one exactly in a ROUND micro-step whose mode selects it (R89, R147). -/

namespace Sys2Proof.Machine

/-- A multiplier takes effect only where the round function uses it: in ROUND with its mode. Anywhere else its
output is used by nothing and no state changes (DEDUCED from R100, R101; log entry 7). -/
def inRound (m : BlockMode) (s : State) (mul : Byte → Byte → Byte) : Outcome :=
  if s.eng.fsm = .round ∧ s.eng.mode = m then microRound mul s else .next s

/-- GFMUL4 (R106): the ROUND micro-step with MULSEL = 0. -/
def execGfmul4 (s : State) : Outcome := inRound .nibble s gfmul4

/-- GFMUL8 (R105): the ROUND micro-step with MULSEL = 1. -/
def execGfmul8 (s : State) : Outcome := inRound .byte s gfmul8

end Sys2Proof.Machine
end

