-- ==== Sys2Proof/Machine/Flags.lean ====
section
/-! DEFINITION. The STATUS register: its read word (R25) and write-1-to-clear (R174). The core has no other flags (R38). -/

namespace Sys2Proof.Machine

/-- `zext_32({ERRCODE, 0, ERR, DONE, BUSY})` (R25). -/
def statusWord (s : State) : Word :=
  (s.regs.errcode ++ 0#1 ++ BitVec.ofBool s.regs.err ++ BitVec.ofBool s.regs.done ++ BitVec.ofBool s.busy).setWidth 32

/-- Bit 1 of the written word clears DONE (R27, R174). -/
def clearDone (w : Word) (s : State) : State :=
  if w.getLsbD 1 then s.setDone false else s

/-- Bit 2 of the written word clears ERR and ERRCODE (R28, R29, R174). -/
def clearErr (w : Word) (s : State) : State :=
  if w.getLsbD 2 then s.setErr false 0#4 else s

end Sys2Proof.Machine
end

