-- ==== Sys2Proof/Machine/Registers.lean ====
section
/-! DEFINITION. The meanings of the transactions on STATUS, LEN, KEYLEN and OUTLEN (R174 to R181). -/

namespace Sys2Proof.Machine

/-- A transaction under the busy lockout (R188, R189): refused with ACCESS_BUSY and a read word of 0 while an
operation runs, else what it does while idle. -/
def lockout (s : State) (idle : Outcome) : Outcome :=
  if s.busy then .next (flagError .accessBusy s).okay else idle

/-- `wr STATUS, w` (R174), allowed while BUSY. -/
def execWrStatus (d : Word) (s : State) : Outcome := .next (clearErr d (clearDone d s)).okay

/-- `rd STATUS` (R175). -/
def execRdStatus (s : State) : Outcome := .next (s.respond .okay (statusWord s))

/-- `wr LEN, w` (R176). -/
def execWrLen (d : Word) (s : State) : Outcome := lockout s (.next (s.setLen d).okay)

/-- `rd LEN` (R177). -/
def execRdLen (s : State) : Outcome := .next (s.respond .okay s.regs.len)

/-- `wr KEYLEN, w` (R178). -/
def execWrKeylen (d : Word) (s : State) : Outcome := lockout s (.next (s.setKeylen d).okay)

/-- `rd KEYLEN` (R179). -/
def execRdKeylen (s : State) : Outcome := .next (s.respond .okay s.regs.keylen)

/-- `wr OUTLEN, w` (R180): ignored, whether BUSY or not. -/
def execWrOutlen (_d : Word) (s : State) : Outcome := .next s.okay

/-- `rd OUTLEN` (R181). -/
def execRdOutlen (s : State) : Outcome := .next (s.respond .okay s.regs.outlen)

end Sys2Proof.Machine
end

