-- ==== Sys2Proof/Machine/Windows.lean ====
section
/-! DEFINITION. The meanings of the window transactions (R182 to R187). -/

namespace Sys2Proof.Machine

/-- The checks of a window transaction in the order of R189: an unmapped index is a bus error (R94), then the busy
lockout (R188), then what the transaction does while idle. -/
def windowAccess (sp : Space) (i : Index) (s : State) (idle : Outcome) : Outcome :=
  if Index.mapped s.cfg sp i then lockout s idle else .next (busError s)

/-- A window read (R183, R185, R187). -/
def windowRead (sp : Space) (i : Index) (s : State) : Outcome :=
  windowAccess sp i s
    (match memRead s sp i.toNat with
      | .ok v => .next (s.respond .okay (zext32 v))
      | .error f => .fault f)

/-- A write to a window the host may write (R182, R184). -/
def windowWrite (sp : Space) (i : Index) (d : Word) (s : State) : Outcome :=
  windowAccess sp i s
    (match memWrite s sp i.toNat (dataByte d) with
      | .ok s' => .next s'.okay
      | .error f => .fault f)

/-- `wrb KEY[i], v` (R182). -/
def execWrbKey (i : Index) (d : Word) (s : State) : Outcome := windowWrite .key i d s

/-- `rdb KEY[i]` (R183). -/
def execRdbKey (i : Index) (s : State) : Outcome := windowRead .key i s

/-- `wrb IBUF[i], v` (R184). -/
def execWrbIbuf (i : Index) (d : Word) (s : State) : Outcome := windowWrite .ibuf i d s

/-- `rdb IBUF[i]` (R185). -/
def execRdbIbuf (i : Index) (s : State) : Outcome := windowRead .ibuf i s

/-- `wrb OBUF[i], v` (R186): OBUF is read-only to the host, so an idle write does nothing. -/
def execWrbObuf (i : Index) (_d : Word) (s : State) : Outcome := windowAccess .obuf i s (.next s.okay)

/-- `rdb OBUF[i]` (R187). -/
def execRdbObuf (i : Index) (s : State) : Outcome := windowRead .obuf i s

end Sys2Proof.Machine
end

