-- ==== Sys2Proof/Machine/Dispatch.lean ====
section
/-! DEFINITION. One arm for each instruction of the opcode table, each a direct call of its meaning. -/

namespace Sys2Proof.Machine

def exec (i : Instr) (s : State) : Host.Outcome State Fault Refusal :=
  match i with
  | .encrypt m => Sys2Proof.Machine.execEncrypt m s
  | .decrypt m => Sys2Proof.Machine.execDecrypt m s
  | .gfmul4 => Sys2Proof.Machine.execGfmul4 s
  | .gfmul8 => Sys2Proof.Machine.execGfmul8 s
  | .wrCmd d => Sys2Proof.Machine.execWrCmd d s
  | .rdCmd => Sys2Proof.Machine.execRdCmd s
  | .wrStatus d => Sys2Proof.Machine.execWrStatus d s
  | .rdStatus => Sys2Proof.Machine.execRdStatus s
  | .wrLen d => Sys2Proof.Machine.execWrLen d s
  | .rdLen => Sys2Proof.Machine.execRdLen s
  | .wrKeylen d => Sys2Proof.Machine.execWrKeylen d s
  | .rdKeylen => Sys2Proof.Machine.execRdKeylen s
  | .wrOutlen d => Sys2Proof.Machine.execWrOutlen d s
  | .rdOutlen => Sys2Proof.Machine.execRdOutlen s
  | .wrbKey n d => Sys2Proof.Machine.execWrbKey n d s
  | .rdbKey n => Sys2Proof.Machine.execRdbKey n s
  | .wrbIbuf n d => Sys2Proof.Machine.execWrbIbuf n d s
  | .rdbIbuf n => Sys2Proof.Machine.execRdbIbuf n s
  | .wrbObuf n d => Sys2Proof.Machine.execWrbObuf n d s
  | .rdbObuf n => Sys2Proof.Machine.execRdbObuf n s

end Sys2Proof.Machine
end

