-- ==== Sys2Proof/Machine/Agents.lean ====
section
/-! DEFINITION. The agents' turns (R6) over `exec`: a host transaction, decoded and performed (R171), and an engine
turn (R150, R152); and how an instruction is placed so that the next step runs it. -/

namespace Sys2Proof.Machine

/-- A host transaction (R171): a descriptor the decoder rejects is a bus error. -/
def hostTurn (desc : Descriptor) (data : Word) (s : State) : Outcome :=
  match decodeBus s.cfg desc data with
  | .ok i => exec i s
  | .error _ => .next (busError s)

/-- An engine turn: the micro-step that `fsm` names (R36), none while IDLE (R150). ROUND runs the multiplier that
MULSEL, driven by `E.mode`, selects (R89). -/
def engineTurn (s : State) : Outcome :=
  match s.eng.fsm with
  | .idle => .next s
  | .fetch => microFetch s
  | .round => exec (decodeMulsel (mulselOf s.eng.mode)) s
  | .store => microStore s
  | .finish => microFinish s

/-- One entry of the interleaving (R71). -/
def turn (inp : Input) (s : State) : Outcome :=
  match inp with
  | .bus desc data => hostTurn desc data s
  | .engine => engineTurn s
  | .reset => .next (resetStep s)

/-- The next step of the machine: the oldest entry of the interleaving, and an engine turn when the world outside
asks for nothing more (log entry 2). -/
def nextTurn (s : State) : Outcome :=
  match s.inputs with
  | [] => engineTurn s
  | inp :: rest => turn inp (s.setInputs rest)

/-- An engine about to run the multiplier of a mode as round 0 of 1 on block 0 of 1 (log entry 8). -/
def roundReady (m : BlockMode) (e : Engine) : Engine :=
  { e with fsm := .round, mode := m, nk := 1#13, nb := 1#13, bi := 0#13, rc := 0#13 }

/-- Place an encoded instruction where the next step takes it from: a bus transaction at the head of `inputs`, a
command word as the data of a write to CMD, and a multiplier select as an engine in ROUND with a key byte of 0. -/
def placeEncoded (s : State) : Encoded → State
  | .bus17 desc data => s.setInputs (.bus desc data :: s.inputs)
  | .cmd32 w => s.setInputs (.bus 0x18000#17 w :: s.inputs)
  | .mulsel sel =>
    ((s.setInputs (.engine :: s.inputs)).putByte .key 0 0x00#8).setEngine
      (roundReady (if sel = 0#1 then .nibble else .byte) s.eng)

end Sys2Proof.Machine
end

