-- ==== Sys2Proof/Machine/Step.lean ====
section
/-! DEFINITION. One step of the machine (R71: one interleaving of host transactions, engine micro-steps and resets). -/

namespace Sys2Proof.Machine

/-- One step. -/
def step (s : State) : Host.Outcome State Fault Refusal := nextTurn s

/-- The state with a word of the opcode table placed as the next thing the step runs. A word of no format leaves
the state as it is. -/
def State.withFetchWord (s : State) (nbits w : Nat) : State :=
  match tableWord nbits w with
  | some e => placeEncoded s e
  | none => s

end Sys2Proof.Machine
end

