-- ==== Sys2Proof/Machine/Pseudo.lean ====
section
/-! DEFINITION. The assembler's pseudo-instructions (R91), what they expand to, and how a host program runs beside
the core (R6): the control flow of `wait`, which no single transaction has. -/

namespace Sys2Proof.Machine

/-- The pseudo-instructions of R91. -/
inductive Pseudo where
  | encN
  | encB
  | decN
  | decB
  | clr
  | wait
  | ldkey (ks : List Byte)
  | ldbuf (bs : List Byte)
deriving DecidableEq, Repr

/-- One line of an expanded host program: a transaction, or the read loop of `wait`, which alone has control flow. -/
inductive HostOp where
  | issue (i : Instr)
  | wait
deriving DecidableEq, Repr

/-- The window writes of a list of bytes, at indices from `i` on. -/
def loadBytes (mk : Index → Word → Instr) : Nat → List Byte → List HostOp
  | _, [] => []
  | i, b :: bs => .issue (mk (BitVec.ofNat 12 i) (b.setWidth 32)) :: loadBytes mk (i + 1) bs

/-- The expansion of R91, none where an index does not fit its range of 0..0xFFF, which the assembler refuses (R90). -/
def expand : Pseudo → Option (List HostOp)
  | .encN => some [.issue (.wrCmd 0x00000001#32)]
  | .encB => some [.issue (.wrCmd 0x00000005#32)]
  | .decN => some [.issue (.wrCmd 0x00000002#32)]
  | .decB => some [.issue (.wrCmd 0x00000006#32)]
  | .clr => some [.issue (.wrStatus 0x00000006#32)]
  | .wait => some [.wait]
  | .ldkey ks =>
    if ks.length ≤ 0x1000 then
      some (loadBytes .wrbKey 0 ks ++ [.issue (.wrKeylen (BitVec.ofNat 32 ks.length))])
    else none
  | .ldbuf bs =>
    if bs.length ≤ 0x1000 then
      some (loadBytes .wrbIbuf 0 bs ++ [.issue (.wrLen (BitVec.ofNat 32 bs.length))])
    else none

/-- The entry of the interleaving that issues an instruction: a bus transaction, for a command word the write of it
to CMD (R172), and for a multiplier, which no host can call (R2), an engine turn (DESIGN CHOICE, log entry 10). -/
def inputOf (i : Instr) : Input :=
  match encode i with
  | .bus17 desc data => .bus desc data
  | .cmd32 w => .bus 0x18000#17 w
  | .mulsel _ => .engine

/-- The transaction of a line: `wait` reads STATUS. -/
def opInput : HostOp → Input
  | .issue i => inputOf i
  | .wait => inputOf .rdStatus

/-- Bit 0 (BUSY) of the word the latest transaction returned. -/
def readBusy (s : State) : Bool :=
  match s.resp with
  | some r => r.rdata.getLsbD 0
  | none => false

/-- What is left of a program after its first line's transaction has been answered: `wait` stays while the returned
bit 0 is 1 and is done at the first read that returns 0 (R91). DESIGN CHOICE for a transaction answered ERROR, after
which the spec leaves the host's doings unsaid (R203, U11): the host goes on with its next line (log entry 10). -/
def afterOp (op : HostOp) (rest : List HostOp) (t : State) : List HostOp :=
  match op with
  | .issue _ => rest
  | .wait => if readBusy t then .wait :: rest else rest

/-- The host with the lines it has still to perform, and the core (R6). -/
structure HostedCore where
  program : List HostOp
  core : State
deriving DecidableEq, Repr

/-- Who takes a step (R6, R71). -/
inductive Agent where
  | host
  | engine
  | reset
deriving DecidableEq, Repr

/-- The outcome of a turn of the core, with what the host has left to do after it. -/
def withProgram (left : State → List HostOp) : Outcome → Host.Outcome HostedCore Fault Refusal
  | .next t => .next { program := left t, core := t }
  | .fault f => .fault f
  | .refused r => .refused r

/-- One step of host and core. A host with nothing left to do does nothing. DESIGN CHOICE for a reset step, after which
the spec leaves the host's doings unsaid: the host keeps the rest of its program (log entry 10). -/
def agentStep (a : Agent) (b : HostedCore) : Host.Outcome HostedCore Fault Refusal :=
  match a with
  | .host =>
    match b.program with
    | [] => .next b
    | op :: rest => withProgram (afterOp op rest) (turn (opInput op) b.core)
  | .engine => withProgram (fun _ => b.program) (turn .engine b.core)
  | .reset => withProgram (fun _ => b.program) (turn .reset b.core)

/-- The run of host and core under an interleaving of the agents, any list at all (R71, R161). -/
def runAgents : List Agent → HostedCore → Host.Outcome HostedCore Fault Refusal
  | [], b => .next b
  | a :: more, b =>
    match agentStep a b with
    | .next b' => runAgents more b'
    | .fault f => .fault f
    | .refused r => .refused r

end Sys2Proof.Machine
end

