-- ==== Sys2Proof/Machine/Feistel.lean ====
section
/-! DEFINITION. The functional level of the cipher (R5, R130 to R135): what an operation computes, as pure functions.
The machine's engine (Machine/Engine.lean) is a separate text; R160 ties the two. -/

namespace Sys2Proof.Machine

/-- The keys in the order an operation uses them: key `ki(dir, n, r)` in round r (R133, R134). -/
def roundKeys (d : Dir) (keys : List Byte) : List Byte :=
  (List.range keys.length).filterMap fun r => keys[keyIndex d keys.length r]?

/-- The rounds of a block, over the keys in the order they are used (R134). -/
def rounds (m : BlockMode) : List Byte → Halves → Halves
  | [], h => h
  | k :: ks, h => rounds m ks (feistelRound m k h)

/-- `xblock(dir, mode, keys, blk)` (R134), the mode being the block's. -/
def xblock (d : Dir) (keys : List Byte) (b : Block) : Block :=
  join (blockMode b) (rounds (blockMode b) (roundKeys d keys) (split b))

/-- The whole blocks of a buffer, left to right; trailing bytes that fill no block are dropped (R135). -/
def partitionBlocks : BlockMode → List Byte → List Block
  | .nibble, x :: rest => .nibble x :: partitionBlocks .nibble rest
  | .byte, x0 :: x1 :: rest => .byte x0 x1 :: partitionBlocks .byte rest
  | _, _ => []

/-- `xbuf(dir, mode, keys, buf)` (R135). -/
def xbuf (d : Dir) (m : BlockMode) (keys buf : List Byte) : List Byte :=
  (partitionBlocks m buf).flatMap fun b => blockBytes (xblock d keys b)

end Sys2Proof.Machine
end

