-- ==== Sys2Proof/Safety.lean ====
section
/-! DEFINITION. The terms the statements about the machine use: the invariant of R37, runs of steps, the
progress of an operation, and what the host can observe. -/

namespace Sys2Proof.Machine

/-- R37(e): the latched operands are within the capacities. -/
abbrev OperandsFit (s : State) : Prop :=
  s.eng.nk.toNat ≤ s.cfg.keyMax ∧ s.eng.nb.toNat * blockSize s.eng.mode ≤ s.cfg.bufMax

/-- The invariants of R37 with the canonical form of the stores, the capacities of R33 and the codes of R202.
R37(a) is the definition of BUSY (R26). R37(e) holds "once a command has been accepted", of which the record of R20
keeps no note, so it is asked of busy states; StepKeepsTheInvariants says that it lasts until a reset. -/
structure Inv (s : State) : Prop where
  /-- R7: the parameters are in range. -/
  config : s.cfg.Valid
  /-- Every store is in canonical form. -/
  canonical : s.mem.wf
  /-- Every defined byte of a store is below its capacity. -/
  within : s.mem.within s.cfg
  /-- R37(b). -/
  block : s.eng.fsm = .fetch ∨ s.eng.fsm = .round ∨ s.eng.fsm = .store → s.eng.bi.toNat < s.eng.nb.toNat
  /-- R37(c). -/
  round : s.eng.fsm = .round → s.eng.rc.toNat < s.eng.nk.toNat
  /-- R37(d). -/
  halves : s.eng.fsm = .round ∨ s.eng.fsm = .store → s.eng.mode = .nibble →
    s.eng.l.toNat ≤ 0x0F ∧ s.eng.r.toNat ≤ 0x0F
  /-- R37(e). -/
  operands : s.busy = true → OperandsFit s
  /-- R37(f). -/
  noError : s.regs.err = false → s.regs.errcode = 0#4
  /-- R202: a recorded code is one of 1 to 5. -/
  someError : s.regs.err = true → 1 ≤ s.regs.errcode.toNat ∧ s.regs.errcode.toNat ≤ 5

/-- `n` steps of the machine, stopping at the first stop. -/
def runSteps : Nat → State → Outcome
  | 0, s => .next s
  | n + 1, s =>
    match step s with
    | .next t => runSteps n t
    | .fault f => .fault f
    | .refused r => .refused r

/-- `u` is the first idle state on the run from `t`, reached after `n` steps. -/
def FirstIdle (n : Nat) (t u : State) : Prop :=
  runSteps n t = .next u ∧ u.busy = false ∧ ∀ m, m < n → ∀ v, runSteps m t = .next v → v.busy = true

/-- No reset is among the next `n` entries of the interleaving. -/
def NoReset (n : Nat) (s : State) : Prop := ∀ inp ∈ s.inputs.take n, inp ≠ .reset

/-- The next step is the engine's turn: the oldest entry says so, or there is none (log entry 2). -/
abbrev EngineMoves (s : State) : Prop := s.inputs = [] ∨ s.inputs.head? = some .engine

/-- How many of the next `n` steps are the engine's turns, up to the first stop. -/
def engineTurns : Nat → State → Nat
  | 0, _ => 0
  | n + 1, s =>
    (if EngineMoves s then 1 else 0) +
      match step s with
      | .next t => engineTurns n t
      | .fault _ => 0
      | .refused _ => 0

/-- What R172 checks before it accepts a command. -/
def Accepts (s : State) : Prop :=
  s.busy = false ∧ s.regs.len.toNat ≤ s.cfg.bufMax ∧ s.regs.keylen.toNat ≤ s.cfg.keyMax

/-- The key store holds the key sequence and IBUF the whole blocks of the input buffer (R86, R154): every byte the
operation reads, and no other. With no whole block it reads no key byte. -/
def Loaded (s : State) (m : BlockMode) (keys buf : List Byte) : Prop :=
  keys.length = s.regs.keylen.toNat ∧
  (∀ i, i < keys.length → 1 ≤ buf.length / blockSize m → s.byteAt .key i = keys[i]?) ∧
  buf.length = s.regs.len.toNat ∧
  ∀ i, i < buf.length / blockSize m * blockSize m → s.byteAt .ibuf i = buf[i]?

/-- Where a running operation stands (R160, the proof's invariant): the operands latched and still in the stores, the
blocks before `E.bi` stored and the other bytes of OBUF as they were `before`, and in ROUND and STORE the halves of
block `E.bi` after its first `E.rc` rounds. -/
structure Progress (d : Dir) (m : BlockMode) (keys buf : List Byte) (before : Nat → Option Byte) (s : State) : Prop where
  loaded : Loaded s m keys buf
  dir : s.eng.dir = d
  mode : s.eng.mode = m
  keyCount : s.eng.nk.toNat = keys.length
  blockCount : s.eng.nb.toNat = buf.length / blockSize m
  stored : ∀ i, i < storeIndex s.eng → s.byteAt .obuf i = (xbuf d m keys buf)[i]?
  untouched : ∀ i, storeIndex s.eng ≤ i → s.byteAt .obuf i = before i
  block : s.eng.fsm = .fetch ∨ s.eng.fsm = .round ∨ s.eng.fsm = .store → s.eng.bi.toNat < s.eng.nb.toNat
  round : s.eng.fsm = .round → s.eng.rc.toNat < s.eng.nk.toNat
  store : s.eng.fsm = .store → s.eng.rc.toNat = s.eng.nk.toNat
  finish : s.eng.fsm = .finish → s.eng.bi.toNat = s.eng.nb.toNat
  halves : s.eng.fsm = .round ∨ s.eng.fsm = .store → ∃ b, (partitionBlocks m buf)[s.eng.bi.toNat]? = some b ∧
    ({ l := s.eng.l, r := s.eng.r } : Halves) = rounds m ((roundKeys d keys).take s.eng.rc.toNat) (split b)

/-- What an operation leaves (R160): its output published, the rest of OBUF as it was `before`, and its operands still
in the stores. -/
def Published (d : Dir) (m : BlockMode) (keys buf : List Byte) (before : Nat → Option Byte) (s : State) : Prop :=
  let len := buf.length / blockSize m * blockSize m
  s.regs.outlen.toNat = len ∧ (∀ i, i < len → s.byteAt .obuf i = (xbuf d m keys buf)[i]?) ∧
  (∀ i, len ≤ i → s.byteAt .obuf i = before i) ∧ s.regs.done = true ∧ s.busy = false ∧ Loaded s m keys buf

/-- Two states that differ at most in engine registers that nothing reads before writing them (R41): all of them
while IDLE, and `E.rc`, `E.L` and `E.R` outside ROUND and STORE. -/
structure SameButUnread (s t : State) : Prop where
  cfg : t.cfg = s.cfg
  regs : t.regs = s.regs
  mem : t.mem = s.mem
  inputs : t.inputs = s.inputs
  resp : t.resp = s.resp
  fsm : t.eng.fsm = s.eng.fsm
  latched : s.eng.fsm ≠ .idle → t.eng.dir = s.eng.dir ∧ t.eng.mode = s.eng.mode ∧ t.eng.nk = s.eng.nk ∧
    t.eng.nb = s.eng.nb ∧ t.eng.bi = s.eng.bi
  working : s.eng.fsm = .round ∨ s.eng.fsm = .store →
    t.eng.rc = s.eng.rc ∧ t.eng.l = s.eng.l ∧ t.eng.r = s.eng.r

/-- Two outcomes of which no host can tell the difference now or later. -/
def SameOutcome : Outcome → Outcome → Prop
  | .next s, .next t => SameButUnread s t
  | .fault f, .fault g => f = g
  | .refused p, .refused q => p = q
  | _, _ => False

/-- The state with an error recorded unless one is recorded already (R201), said by fields. -/
def withError (code : BitVec 4) (s : State) : State :=
  { s with regs := { s.regs with err := true, errcode := if s.regs.err then s.regs.errcode else code } }

/-- The state that has only answered a transaction. -/
def answered (r : Resp) (w : Word) (s : State) : State := { s with resp := some { resp := r, rdata := w } }

end Sys2Proof.Machine
end

