-- ==== Sys2Proof/Certificates/Slice0/Obligations.lean ====
section
/-! DEFINITION. The statements about the CS3626-Feistel core, from the numbered rules of spec/. Each says in its
docstring which rule it formalises. A read of one byte of a store is `State.byteAt`; `answered r w s` is `s` with
nothing but the transaction's response changed; `withError c s` is `s` with `flag_error(c)` done (R201). -/

open Sys2Proof Sys2Proof.Machine

/-! ### Encoding -/

/-- The decoder reads back every well-formed instruction from the words the encoder gives it, with every operand at
every value. -/
def Obligations.DecodeEncodeAgree : Prop :=
  ∀ (c : Config) (i : Instr), i.wellFormed c = true → decode c (encode i) = .ok i

/-- Words written out from the encodings of R84, R89 and R172 to R187 decode to the instructions they stand for,
and reserved ones are rejected (95_test_vectors.md, rows H6, H7, H10 to H14). -/
def Obligations.SpecWordsDecode : Prop :=
  (decodeCmd 0b00000000000000000000000000000001#32 = .ok { dir := .enc, mode := .nibble } ∧
    decodeCmd 0b00000000000000000000000000000110#32 = .ok { dir := .dec, mode := .byte } ∧
    decodeCmd 0x3#32 = .error .reservedOperation ∧ decodeCmd 0x9#32 = .error .reservedCommandBits) ∧
  (decodeMulsel 0b0#1 = .gfmul4 ∧ decodeMulsel 0b1#1 = .gfmul8) ∧
  (decodeBus Config.default 0b11000000000001000#17 5#32 = .ok (.wrLen 5#32) ∧
    decodeBus Config.default 0b01000000000000100#17 0#32 = .ok .rdStatus ∧
    decodeBus Config.default 0b10001000000000000#17 0x41#32 = .ok (.wrbKey 0#12 0x41#32) ∧
    decodeBus Config.default 0b00011000000000011#17 0#32 = .ok (.rdbObuf 3#12)) ∧
  (decodeBus Config.default 0x08014#17 0#32 = .error .unmappedOffset ∧
    decodeBus Config.default 0x04004#17 0#32 = .error .badRegisterAccess ∧
    decodeBus Config.default 0x0A000#17 0#32 = .error .badWindowWidth ∧
    decodeBus Config.default 0x01100#17 0#32 = .error .indexBeyondCapacity ∧
    decodeBus Config.default 0x1C004#17 0#32 = .error .reservedWidthCode)

/-- R84: the four valid command words and what they mean; every other word is ILLEGAL. -/
def Obligations.ExactlyFourCommandWords : Prop :=
  ∀ (w : Word) (cmd : Command), decodeCmd w = .ok cmd ↔
    (w = 0x00000001#32 ∧ cmd = { dir := .enc, mode := .nibble }) ∨
    (w = 0x00000005#32 ∧ cmd = { dir := .enc, mode := .byte }) ∨
    (w = 0x00000002#32 ∧ cmd = { dir := .dec, mode := .nibble }) ∨
    (w = 0x00000006#32 ∧ cmd = { dir := .dec, mode := .byte })

/-- R92, R94: a decoded descriptor is the descriptor of the instruction it decodes to, a write's data word is its
operand, and a window index is mapped: no two descriptors share a meaning. -/
def Obligations.DecodedDescriptorIsTheInstructions : Prop :=
  ∀ (c : Config) (desc : Descriptor) (data : Word) (i : Instr), decodeBus c desc data = .ok i →
    i.wellFormed c = true ∧ ∃ d, encode i = .bus17 desc d ∧ (desc.toNat / 2 ^ 16 = 1 → d = data)

/-- R61, R67, R203: an access outside the offset map, or of a wrong width or alignment, ends with response ERROR and
RDATA 0 and changes nothing else; every other transaction is the instruction it decodes to. -/
def Obligations.UnmappedAccessIsBusError : Prop :=
  ∀ (s : State) (desc : Descriptor) (data : Word),
    let off := desc.toNat % 2 ^ 14
    let wc := desc.toNat / 2 ^ 14 % 4
    let mapped := (wc = 2 ∧ off ∈ [0x000, 0x004, 0x008, 0x00C, 0x010]) ∨
      (wc = 0 ∧ off / 0x1000 = 1 ∧ off % 0x1000 < s.cfg.keyMax) ∨
      (wc = 0 ∧ (off / 0x1000 = 2 ∨ off / 0x1000 = 3) ∧ off % 0x1000 < s.cfg.bufMax)
    (¬mapped → hostTurn desc data s = .next (answered .error 0#32 s)) ∧
    (mapped → ∃ i, decodeBus s.cfg desc data = .ok i ∧ hostTurn desc data s = exec i s)

/-! ### The step -/

/-- R171: a step whose next entry is a host transaction runs exactly the instruction it decodes to, on the state
without that entry; a rejected descriptor is a bus error; and a valid command word written to CMD is the command. -/
def Obligations.StepRunsTheHostTransaction : Prop :=
  ∀ (s : State) (desc : Descriptor) (data : Word) (rest : List Input), s.inputs = .bus desc data :: rest →
    (∀ i, decodeBus s.cfg desc data = .ok i → step s = exec i { s with inputs := rest }) ∧
    (∀ r, decodeBus s.cfg desc data = .error r →
      step s = .next (answered .error 0#32 { s with inputs := rest })) ∧
    (∀ cmd, desc = 0x18000#17 → decodeCmd data = .ok cmd → step s = exec cmd.instr { s with inputs := rest })

/-- R36, R89, R150: a step whose next entry is an engine turn, or that has no entry, takes the micro-step that `fsm`
names, in ROUND the multiplier that the mode selects; in IDLE nothing but the entry changes. -/
def Obligations.StepRunsTheEngineTurn : Prop :=
  ∀ s : State, (s.inputs = [] ∨ s.inputs.head? = some .engine) →
    let u : State := { s with inputs := s.inputs.tail }
    (s.eng.fsm = .idle → step s = .next u) ∧
    (s.eng.fsm = .fetch → step s = microFetch u) ∧
    (s.eng.fsm = .round → s.eng.mode = .nibble → step s = exec .gfmul4 u) ∧
    (s.eng.fsm = .round → s.eng.mode = .byte → step s = exec .gfmul8 u) ∧
    (s.eng.fsm = .store → step s = microStore u) ∧
    (s.eng.fsm = .finish → step s = microFinish u)

/-- R230: the reset step, from any state. -/
def Obligations.ResetStepClearsTheCore : Prop :=
  ∀ (s : State) (rest : List Input), s.inputs = .reset :: rest →
    ∃ t, step s = .next t ∧ t.eng.fsm = .idle ∧
      t.regs = { done := false, err := false, errcode := 0#4, len := 0#32, keylen := 0#32, outlen := 0#32 } ∧
      (∀ sp i, t.byteAt sp i = none) ∧ t.inputs = rest ∧ t.cfg = s.cfg

/-- R40: what reset leaves, for every piece of state R40 gives a value. -/
def Obligations.ResetStateHasTheSpecValues : Prop :=
  State.reset.eng.fsm = .idle ∧ State.reset.busy = false ∧ State.reset.regs.done = false ∧
  State.reset.regs.err = false ∧ State.reset.regs.errcode = 0#4 ∧ State.reset.regs.len = 0x00000000#32 ∧
  State.reset.regs.keylen = 0x00000000#32 ∧ State.reset.regs.outlen = 0x00000000#32 ∧
  ∀ sp i, State.reset.byteAt sp i = none

/-! ### The multipliers -/

/-- R108. -/
def Obligations.MultipliersCommute : Prop :=
  ∀ a b : Byte, gfmul8 a b = gfmul8 b a ∧ gfmul4 a b = gfmul4 b a

/-- R110. -/
def Obligations.MultipliersDistributeOverXor : Prop :=
  ∀ a b1 b2 : Byte, gfmul8 a (b1 ^^^ b2) = gfmul8 a b1 ^^^ gfmul8 a b2 ∧
    gfmul4 a (b1 ^^^ b2) = gfmul4 a b1 ^^^ gfmul4 a b2

/-- R109 and R111: zero absorbs on both sides (for GFMUL4 a zero low nibble does), and one is the identity. -/
def Obligations.MultipliersZeroAndOne : Prop :=
  ∀ a b : Byte, (gfmul8 a 0x00#8 = 0x00#8 ∧ gfmul8 0x00#8 b = 0x00#8) ∧
    (b &&& 0x0F#8 = 0x00#8 → gfmul4 a b = 0x00#8 ∧ gfmul4 b a = 0x00#8) ∧
    (gfmul8 a 0x01#8 = a ∧ gfmul4 a 0x01#8 = a &&& 0x0F#8)

/-- R112 and R113: GFMUL4 uses only the low nibbles of its operands, and its result is a nibble. -/
def Obligations.Gfmul4UsesAndGivesNibbles : Prop :=
  ∀ a b : Byte, gfmul4 a b = gfmul4 (a &&& 0x0F#8) (b &&& 0x0F#8) ∧ (gfmul4 a b).toNat ≤ 0x0F

/-- R107: each product is the product of the operands' polynomials over GF(2), reduced modulo P8 or P4. A byte has
degree below 8, so it is the remainder modulo P8; for P4 the range is stated. -/
def Obligations.ProductsAreReducedPolynomialProducts : Prop :=
  let poly : Byte → Polynomial (ZMod 2) := fun a =>
    ∑ i ∈ Finset.range 8, if a.getLsbD i = true then Polynomial.X ^ i else 0
  (∀ a b : Byte, (Polynomial.X ^ 8 + Polynomial.X ^ 4 + Polynomial.X ^ 3 + Polynomial.X + 1 : Polynomial (ZMod 2)) ∣
    poly a * poly b - poly (gfmul8 a b)) ∧
  ∀ a b : Byte, ((Polynomial.X ^ 4 + Polynomial.X + 1 : Polynomial (ZMod 2)) ∣
    poly (a &&& 0x0F#8) * poly (b &&& 0x0F#8) - poly (gfmul4 a b)) ∧ (gfmul4 a b).toNat ≤ 0x0F

/-- R114: every nonzero value has exactly one inverse. -/
def Obligations.NonzeroValuesHaveOneInverse : Prop :=
  (∀ x : Byte, x ≠ 0x00#8 → ∃ y, gfmul8 x y = 0x01#8 ∧ ∀ z, gfmul8 x z = 0x01#8 → z = y) ∧
  ∀ x : Byte, 1 ≤ x.toNat → x.toNat ≤ 0x0F →
    ∃ y : Byte, y.toNat ≤ 0x0F ∧ gfmul4 x y = 0x01#8 ∧ ∀ z : Byte, z.toNat ≤ 0x0F → gfmul4 x z = 0x01#8 → z = y

/-! ### The round function and the functional level -/

/-- R123, its four cases. -/
def Obligations.RoundFunctionCorners : Prop :=
  ∀ h k : Byte,
    (∀ m, roundFn h 0x00#8 m = 0x00#8) ∧
    (k &&& 0x0F#8 = 0x00#8 → roundFn h k .nibble = 0x00#8) ∧
    (∀ m, roundFn 0x00#8 k m = 0x00#8) ∧
    (roundFn h 0x01#8 .byte = h ∧ (k &&& 0x0F#8 = 0x01#8 → h.toNat ≤ 0x0F → roundFn h k .nibble = h))

/-- R122 and R124: F stays within the mask, so masking it changes nothing; NibbleMode uses only the key's low nibble,
so keys that agree there give one cipher output; ByteMode tells all keys apart. -/
def Obligations.RoundFunctionRangeAndKeyUse : Prop :=
  (∀ h k m, (roundFn h k m).toNat ≤ (halfMask m).toNat ∧ roundFn h k m &&& halfMask m = roundFn h k m) ∧
  (∀ d keys keys' buf, keys.map (· &&& 0x0F#8) = keys'.map (· &&& 0x0F#8) →
    xbuf d .nibble keys buf = xbuf d .nibble keys' buf) ∧
  (∀ k k', (∀ h, roundFn h k .byte = roundFn h k' .byte) → k = k')

/-- R138: each operation undoes the other, for every key sequence, the empty one included; a buffer whose length is
no multiple of the block size comes back without its trailing remainder. -/
def Obligations.OperationsAreInverse : Prop :=
  ∀ (m : BlockMode) (keys buf : List Byte),
    xbuf .dec m keys (xbuf .enc m keys buf) = buf.take (buf.length / blockSize m * blockSize m) ∧
    xbuf .enc m keys (xbuf .dec m keys buf) = buf.take (buf.length / blockSize m * blockSize m)

/-- R139: the output's length, and that the trailing remainder has no part in the output. -/
def Obligations.OutputIsTruncatedToWholeBlocks : Prop :=
  ∀ (d : Dir) (m : BlockMode) (keys buf : List Byte),
    (xbuf d m keys buf).length = buf.length / blockSize m * blockSize m ∧
    xbuf d m keys buf = xbuf d m keys (buf.take (buf.length / blockSize m * blockSize m))

/-- R140 and R141: no round swaps the halves; one round with F zero, or with a zero right half, changes nothing. -/
def Obligations.ZeroRoundAndKeyZeroBlocks : Prop :=
  ∀ d : Dir,
    (∀ x0 x1, xblock d [] (.byte x0 x1) = .byte x1 x0) ∧
    (∀ x : Byte, ∃ y : Byte, xblock d [] (.nibble x) = .nibble y ∧ y.toNat = x.toNat % 16 * 16 + x.toNat / 16) ∧
    ((∀ m r, roundFn r 0x00#8 m = 0x00#8) ∧ ∀ k r : Byte, k &&& 0x0F#8 = 0x00#8 → roundFn r k .nibble = 0x00#8) ∧
    (∀ m k h, (∀ r, roundFn r k m = 0x00#8) → feistelRound m k h = { l := h.r, r := h.l }) ∧
    (∀ k b, ((∀ r, roundFn r k (blockMode b) = 0x00#8) ∨ (split b).r = 0x00#8) → xblock d [k] b = b)

/-- R142: for every direction, mode and key sequence the block transform is a bijection of the mode's blocks. -/
def Obligations.BlockTransformIsBijective : Prop :=
  ∀ (d : Dir) (keys : List Byte), Function.Bijective (xblock d keys) ∧
    ∀ b, blockMode (xblock d keys b) = blockMode b

/-- R77: output block b is the transform of input block b alone, so a buffer cut at a multiple of the block size is
transformed chunk by chunk. -/
def Obligations.BlocksAreIndependent : Prop :=
  ∀ (d : Dir) (m : BlockMode) (keys : List Byte),
    (∀ xs ys, xs.length % blockSize m = 0 → xbuf d m keys (xs ++ ys) = xbuf d m keys xs ++ xbuf d m keys ys) ∧
    (∀ buf b, b < buf.length / blockSize m →
      ((xbuf d m keys buf).drop (b * blockSize m)).take (blockSize m) =
        xbuf d m keys ((buf.drop (b * blockSize m)).take (blockSize m)))

/-- R133 and R137: decryption is encryption with the key sequence reversed, and with at most one key they agree. -/
def Obligations.DecryptionReversesTheKeyOrder : Prop :=
  ∀ (m : BlockMode) (keys buf : List Byte), xbuf .dec m keys buf = xbuf .enc m keys.reverse buf ∧
    (keys.length ≤ 1 → xbuf .dec m keys buf = xbuf .enc m keys buf)

/-! ### Commands -/

/-- R145: an accepted command, whether as the instruction ENCRYPT or DECRYPT or as its word written to CMD, latches
its operands and starts the engine. -/
def Obligations.AcceptedCommandStarts : Prop :=
  ∀ (s : State) (cmd : Command) (i : Instr), s.cfg.Valid → Accepts s →
    (i = cmd.instr ∨ ∃ w, decodeCmd w = .ok cmd ∧ i = .wrCmd w) →
    let n := s.regs.len.toNat / blockSize cmd.mode
    ∃ t, exec i s = .next t ∧
      t.eng.dir = cmd.dir ∧ t.eng.mode = cmd.mode ∧ t.eng.nk.toNat = s.regs.keylen.toNat ∧ t.eng.nb.toNat = n ∧
      t.eng.bi = 0#13 ∧ t.eng.fsm = (if n = 0 then .finish else .fetch) ∧
      t.eng.rc = s.eng.rc ∧ t.eng.l = s.eng.l ∧ t.eng.r = s.eng.r ∧
      t.regs = { s.regs with done := false, outlen := 0#32 } ∧ t.mem = s.mem ∧ t.cfg = s.cfg ∧
      t.inputs = s.inputs ∧ t.resp = some { resp := .okay, rdata := 0#32 }

/-- R172: the checks on a command in their order; a refused one records its code and changes nothing else. -/
def Obligations.CommandChecksInOrder : Prop :=
  ∀ (s : State) (w : Word),
    let refused (code : BitVec 4) : Outcome := .next (answered .okay 0#32 (withError code s))
    (s.busy = true → exec (.wrCmd w) s = refused 2#4) ∧
    (s.busy = false → (∀ cmd, decodeCmd w ≠ .ok cmd) → exec (.wrCmd w) s = refused 1#4) ∧
    ∀ cmd i, decodeCmd w = .ok cmd → (i = .wrCmd w ∨ i = cmd.instr) →
      (s.busy = true → exec i s = refused 2#4) ∧
      (s.busy = false → s.cfg.bufMax < s.regs.len.toNat → exec i s = refused 3#4) ∧
      (s.busy = false → s.regs.len.toNat ≤ s.cfg.bufMax → s.cfg.keyMax < s.regs.keylen.toNat →
        exec i s = refused 4#4) ∧
      (Accepts s → exec i s = .next (answered .okay 0#32 (startOp cmd s)))

/-! ### Registers -/

/-- R173, R175, R177, R179, R181: a register read answers the register's value, in every state, and changes nothing
else. STATUS is given by the places of its fields (R25). -/
def Obligations.RegisterReadsAnswerTheRegister : Prop :=
  ∀ s : State,
    exec .rdCmd s = .next (answered .okay 0#32 s) ∧
    exec .rdLen s = .next (answered .okay s.regs.len s) ∧
    exec .rdKeylen s = .next (answered .okay s.regs.keylen s) ∧
    exec .rdOutlen s = .next (answered .okay s.regs.outlen s) ∧
    ∃ w : Word, exec .rdStatus s = .next (answered .okay w s) ∧
      w.toNat = 16 * s.regs.errcode.toNat + 4 * s.regs.err.toNat + 2 * s.regs.done.toNat +
        (if s.eng.fsm = .idle then 0 else 1)

/-- R174: write-1-to-clear, allowed in every state; nothing else changes. -/
def Obligations.StatusWriteClears : Prop :=
  ∀ (s : State) (w : Word),
    exec (.wrStatus w) s = .next (answered .okay 0#32
      { s with
        regs :=
          { s.regs with
            done := if w.getLsbD 1 then false else s.regs.done
            err := if w.getLsbD 2 then false else s.regs.err
            errcode := if w.getLsbD 2 then 0#4 else s.regs.errcode } })

/-- R176, R178: an idle write stores the whole word, a write while BUSY is refused with ACCESS_BUSY; nothing else
changes. -/
def Obligations.LengthWritesStoreOrAreRefused : Prop :=
  ∀ (s : State) (w : Word),
    (s.busy = false →
      exec (.wrLen w) s = .next (answered .okay 0#32 { s with regs := { s.regs with len := w } }) ∧
      exec (.wrKeylen w) s = .next (answered .okay 0#32 { s with regs := { s.regs with keylen := w } })) ∧
    (s.busy = true →
      exec (.wrLen w) s = .next (answered .okay 0#32 (withError 5#4 s)) ∧
      exec (.wrKeylen w) s = .next (answered .okay 0#32 (withError 5#4 s)))

/-- R180: a write to OUTLEN is ignored, whether BUSY or not. -/
def Obligations.OutlenWriteIsIgnored : Prop :=
  ∀ (s : State) (w : Word), exec (.wrOutlen w) s = .next (answered .okay 0#32 s)

/-! ### Windows -/

/-- R182, R184: an idle write to a mapped KEY or IBUF byte makes that byte DATA[7:0] and leaves every other byte of
every store, and everything else, as it was; while BUSY it is refused; an index at or above the capacity is a bus error. -/
def Obligations.WindowWritesStoreOneByte : Prop :=
  ∀ (s : State) (i : Index) (d : Word) (sp : Space) (ins : Instr) (cap : Nat),
    (sp = .key ∧ ins = .wrbKey i d ∧ cap = s.cfg.keyMax) ∨ (sp = .ibuf ∧ ins = .wrbIbuf i d ∧ cap = s.cfg.bufMax) →
    (cap ≤ i.toNat → exec ins s = .next (answered .error 0#32 s)) ∧
    (i.toNat < cap → s.busy = true → exec ins s = .next (answered .okay 0#32 (withError 5#4 s))) ∧
    (i.toNat < cap → s.busy = false →
      ∃ t, exec ins s = .next t ∧
        (∃ v : Byte, t.byteAt sp i.toNat = some v ∧ v.toNat = d.toNat % 256) ∧
        (∀ sq j, ¬(sq = sp ∧ j = i.toNat) → t.byteAt sq j = s.byteAt sq j) ∧
        t.regs = s.regs ∧ t.eng = s.eng ∧ t.cfg = s.cfg ∧ t.inputs = s.inputs ∧
        t.resp = some { resp := .okay, rdata := 0#32 })

/-- R183, R185, R187: an idle read of a mapped, defined byte answers the byte, zero-extended, and changes nothing else;
of an undefined byte it is the model fault; while BUSY it is refused with a read word of 0; an index at or above the
capacity is a bus error. -/
def Obligations.WindowReadsAnswerTheByte : Prop :=
  ∀ (s : State) (i : Index) (sp : Space) (ins : Instr) (cap : Nat),
    (sp = .key ∧ ins = .rdbKey i ∧ cap = s.cfg.keyMax) ∨ (sp = .ibuf ∧ ins = .rdbIbuf i ∧ cap = s.cfg.bufMax) ∨
      (sp = .obuf ∧ ins = .rdbObuf i ∧ cap = s.cfg.bufMax) →
    (cap ≤ i.toNat → exec ins s = .next (answered .error 0#32 s)) ∧
    (i.toNat < cap → s.busy = true → exec ins s = .next (answered .okay 0#32 (withError 5#4 s))) ∧
    (i.toNat < cap → s.busy = false → s.byteAt sp i.toNat = none →
      exec ins s = .fault (.undefinedByte sp i.toNat)) ∧
    (∀ v, i.toNat < cap → s.busy = false → s.byteAt sp i.toNat = some v →
      exec ins s = .next (answered .okay (BitVec.ofNat 32 v.toNat) s))

/-- R186: a write to a mapped OBUF byte is ignored while idle and refused while BUSY; an index at or above the capacity
is a bus error. -/
def Obligations.ObufWriteIsIgnored : Prop :=
  ∀ (s : State) (i : Index) (d : Word),
    (s.cfg.bufMax ≤ i.toNat → exec (.wrbObuf i d) s = .next (answered .error 0#32 s)) ∧
    (i.toNat < s.cfg.bufMax → s.busy = true →
      exec (.wrbObuf i d) s = .next (answered .okay 0#32 (withError 5#4 s))) ∧
    (i.toNat < s.cfg.bufMax → s.busy = false → exec (.wrbObuf i d) s = .next (answered .okay 0#32 s))

/-- R188: while BUSY each of these transactions is refused with ACCESS_BUSY and a read word of 0, and a CMD write with
CMD_BUSY; the others are allowed. -/
def Obligations.BusyLockout : Prop :=
  ∀ (s : State) (i : Index) (d : Word), s.busy = true →
    let refused : Outcome := .next (answered .okay 0#32 (withError 5#4 s))
    (i.toNat < s.cfg.keyMax → exec (.rdbKey i) s = refused ∧ exec (.wrbKey i d) s = refused) ∧
    (i.toNat < s.cfg.bufMax → exec (.rdbIbuf i) s = refused ∧ exec (.wrbIbuf i d) s = refused ∧
      exec (.rdbObuf i) s = refused ∧ exec (.wrbObuf i d) s = refused) ∧
    (exec (.wrLen d) s = refused ∧ exec (.wrKeylen d) s = refused) ∧
    exec (.wrCmd d) s = .next (answered .okay 0#32 (withError 2#4 s)) ∧
    (∀ ins, ins = .rdCmd ∨ ins = .rdStatus ∨ ins = .rdLen ∨ ins = .rdKeylen ∨ ins = .rdOutlen ∨ ins = .wrOutlen d →
      ∃ w, exec ins s = .next (answered .okay w s)) ∧
    ∃ t, exec (.wrStatus d) s = .next t ∧ t.regs.err = (s.regs.err && !d.getLsbD 2)

/-! ### Frames -/

/-- Memory's frame: every instruction but a KEY or IBUF window write leaves every byte of every store as it was, and
no instruction changes the parameters or the rest of the interleaving. -/
def Obligations.InstructionsKeepMemory : Prop :=
  ∀ (i : Instr) (s t : State), exec i s = .next t →
    ((∀ n d, i ≠ .wrbKey n d ∧ i ≠ .wrbIbuf n d) → ∀ sp a, t.byteAt sp a = s.byteAt sp a) ∧
    t.cfg = s.cfg ∧ t.inputs = s.inputs

/-- The registers' frame: LEN, KEYLEN, OUTLEN and DONE change only by the instructions whose rules name them; ERR and
ERRCODE only by a STATUS write, a command, or a transaction the lockout refuses (R201): not by a register read, a write
to OUTLEN (R180) or a window transaction with an unmapped index (R203), BUSY or not; the engine's registers only by a
command and by the multiplier in use (log entry 7). -/
def Obligations.InstructionsKeepRegisters : Prop :=
  ∀ (i : Instr) (s t : State), exec i s = .next t →
    let command := (∃ m, i = .encrypt m ∨ i = .decrypt m) ∨ ∃ w, i = .wrCmd w
    ((∀ w, i ≠ .wrLen w) → t.regs.len = s.regs.len) ∧
    ((∀ w, i ≠ .wrKeylen w) → t.regs.keylen = s.regs.keylen) ∧
    (¬command → t.regs.outlen = s.regs.outlen) ∧
    (¬command → (∀ w, i ≠ .wrStatus w) → t.regs.done = s.regs.done) ∧
    (¬command → (∀ w, i ≠ .wrStatus w) → s.busy = false →
      t.regs.err = s.regs.err ∧ t.regs.errcode = s.regs.errcode) ∧
    (i ∈ [.gfmul4, .gfmul8, .rdCmd, .rdStatus, .rdLen, .rdKeylen, .rdOutlen] ∨ (∃ w, i = .wrOutlen w) →
      t.regs.err = s.regs.err ∧ t.regs.errcode = s.regs.errcode) ∧
    (i.wellFormed s.cfg = false → t.regs = s.regs) ∧
    (¬command → i ≠ .gfmul4 → i ≠ .gfmul8 → t.eng = s.eng)

/-- R71, R188: no host transaction whatever, decoded or not, disturbs a running operation: it completes and leaves the
engine, the stores, LEN, KEYLEN and OUTLEN as they were. -/
def Obligations.HostCannotDisturbARunningOperation : Prop :=
  ∀ (s : State) (desc : Descriptor) (data : Word), s.busy = true →
    ∃ t, hostTurn desc data s = .next t ∧ t.eng = s.eng ∧ t.mem = s.mem ∧ t.regs.len = s.regs.len ∧
      t.regs.keylen = s.regs.keylen ∧ t.regs.outlen = s.regs.outlen ∧ t.cfg = s.cfg ∧ t.inputs = s.inputs

/-- R69: what repeating a transaction does. -/
def Obligations.RepeatedTransactions : Prop :=
  ∀ (i : Instr) (s t : State), exec i s = .next t →
    (s.busy = false → (∃ d n, i = .wrLen d ∨ i = .wrKeylen d ∨ i = .wrbKey n d ∨ i = .wrbIbuf n d) →
      exec i t = .next t) ∧
    ((∃ d, i = .wrStatus d) → exec i t = .next t) ∧
    (i ∈ [.rdCmd, .rdStatus, .rdLen, .rdKeylen, .rdOutlen] ∨
        (∃ n, i = .rdbKey n ∨ i = .rdbIbuf n ∨ i = .rdbObuf n) →
      exec i t = .next t) ∧
    (∀ cmd : Command, i = cmd.instr → s.cfg.Valid → Accepts s → exec i t = .next (answered .okay 0#32 (withError 2#4 t)))

/-! ### The engine -/

/-- R146: FETCH reads the block's bytes, splits them and starts the rounds; nothing else changes. -/
def Obligations.FetchSplitsTheBlock : Prop :=
  ∀ s : State, s.eng.fsm = .fetch →
    let after (l r : Byte) : State :=
      { s with
        eng := { s.eng with l := l, r := r, rc := 0#13, fsm := if s.eng.nk.toNat = 0 then .store else .round } }
    (∀ x0 x1, s.eng.mode = .byte → 2 * s.eng.bi.toNat + 1 < s.cfg.bufMax →
      s.byteAt .ibuf (2 * s.eng.bi.toNat) = some x0 → s.byteAt .ibuf (2 * s.eng.bi.toNat + 1) = some x1 →
      engineTurn s = .next (after x0 x1)) ∧
    (∀ x, s.eng.mode = .nibble → s.eng.bi.toNat < s.cfg.bufMax → s.byteAt .ibuf s.eng.bi.toNat = some x →
      ∃ l r : Byte, l.toNat = x.toNat / 16 ∧ r.toNat = x.toNat % 16 ∧ engineTurn s = .next (after l r))

/-- GFMUL4 and GFMUL8 as the machine uses them, in ROUND with their mode: the product of the right half and the round
key goes into the XOR-and-swap; nothing else changes. R147 and R151 say so of the engine's turn; that the meaning of the
two table rows is that micro-step is the model's reading (DEDUCED, log entry 7). -/
def Obligations.RoundMultipliesAndSwaps : Prop :=
  ∀ (s : State) (k : Byte), s.eng.fsm = .round → s.eng.rc.toNat < s.eng.nk.toNat → s.eng.nk.toNat ≤ s.cfg.keyMax →
    s.byteAt .key (match s.eng.dir with
      | .enc => s.eng.rc.toNat
      | .dec => s.eng.nk.toNat - 1 - s.eng.rc.toNat) = some k →
    let after (f : Byte) : State :=
      { s with
        eng := { s.eng with
          l := s.eng.r
          r := s.eng.l ^^^ f
          rc := s.eng.rc + 1#13
          fsm := if s.eng.rc.toNat + 1 = s.eng.nk.toNat then .store else .round } }
    (s.eng.mode = .nibble → exec .gfmul4 s = .next (after (gfmul4 s.eng.r k)) ∧
      engineTurn s = .next (after (gfmul4 s.eng.r k))) ∧
    (s.eng.mode = .byte → exec .gfmul8 s = .next (after (gfmul8 s.eng.r k)) ∧
      engineTurn s = .next (after (gfmul8 s.eng.r k)))

/-- The model's reading of R100 and R101 (log entry 7, DEDUCED): where the round function does not use it, a multiplier
changes no state. -/
def Obligations.UnusedMultiplierChangesNothing : Prop :=
  ∀ s : State, (¬(s.eng.fsm = .round ∧ s.eng.mode = .nibble) → exec .gfmul4 s = .next s) ∧
    (¬(s.eng.fsm = .round ∧ s.eng.mode = .byte) → exec .gfmul8 s = .next s)

/-- R148: STORE writes the swapped halves at the block's place in OBUF, and leaves every other byte, and everything
but the block index and the sequencer, as it was. -/
def Obligations.StoreWritesTheSwappedHalves : Prop :=
  ∀ s : State, s.eng.fsm = .store → storeIndex s.eng + blockSize s.eng.mode ≤ s.cfg.bufMax →
    ∃ t, engineTurn s = .next t ∧
      (s.eng.mode = .byte → t.byteAt .obuf (2 * s.eng.bi.toNat) = some s.eng.r ∧
        t.byteAt .obuf (2 * s.eng.bi.toNat + 1) = some s.eng.l) ∧
      (s.eng.mode = .nibble → ∃ v : Byte, t.byteAt .obuf s.eng.bi.toNat = some v ∧
        v.toNat = s.eng.r.toNat % 16 * 16 + s.eng.l.toNat % 16) ∧
      (∀ sp j, ¬(sp = .obuf ∧ storeIndex s.eng ≤ j ∧ j < storeIndex s.eng + blockSize s.eng.mode) →
        t.byteAt sp j = s.byteAt sp j) ∧
      t.eng = { s.eng with
        bi := s.eng.bi + 1#13
        fsm := if s.eng.bi + 1#13 = s.eng.nb then .finish else .fetch } ∧
      t.regs = s.regs ∧ t.cfg = s.cfg ∧ t.inputs = s.inputs ∧ t.resp = s.resp

/-- R149: FINISH publishes the output length, sets DONE and goes idle; nothing else changes. -/
def Obligations.FinishPublishesTheLength : Prop :=
  ∀ s : State, s.eng.fsm = .finish →
    ∃ n : Word, n.toNat = s.eng.nb.toNat * blockSize s.eng.mode ∧
      engineTurn s = .next { s with
        regs := { s.regs with outlen := n, done := true }
        eng := { s.eng with fsm := .idle } }

/-- R155: FETCH and ROUND stop on an undefined byte they read. The last clause is the model's reading of "sticky"
(DEDUCED, log entry 4): a stop ends the run, so no number of further steps undoes it. -/
def Obligations.EngineStopsOnUndefinedByte : Prop :=
  ∀ s : State,
    (s.eng.fsm = .fetch → s.eng.mode = .nibble → s.eng.bi.toNat < s.cfg.bufMax →
      s.byteAt .ibuf s.eng.bi.toNat = none →
      engineTurn s = .fault (.undefinedByte .ibuf s.eng.bi.toNat)) ∧
    (s.eng.fsm = .fetch → s.eng.mode = .byte → 2 * s.eng.bi.toNat + 1 < s.cfg.bufMax →
      (s.byteAt .ibuf (2 * s.eng.bi.toNat) = none ∨ s.byteAt .ibuf (2 * s.eng.bi.toNat + 1) = none) →
      ∃ i, (i = 2 * s.eng.bi.toNat ∨ i = 2 * s.eng.bi.toNat + 1) ∧ s.byteAt .ibuf i = none ∧
        engineTurn s = .fault (.undefinedByte .ibuf i)) ∧
    (s.eng.fsm = .round → (keyAddr s.eng).toNat < s.cfg.keyMax → s.byteAt .key (keyAddr s.eng).toNat = none →
      engineTurn s = .fault (.undefinedByte .key (keyAddr s.eng).toNat)) ∧
    (∀ f n, step s = .fault f → runSteps (n + 1) s = .fault f)

/-- R152: the sequencer's transitions, by the engine, by a host transaction and by reset, and no others; blocks and the
rounds of a block run in ascending order. -/
def Obligations.SequencerTransitions : Prop :=
  ∀ s t : State, Inv s →
    (engineTurn s = .next t →
      (s.eng.fsm = .idle → t.eng.fsm = .idle) ∧
      (s.eng.fsm = .fetch → t.eng.fsm = (if s.eng.nk.toNat = 0 then .store else .round) ∧ t.eng.rc.toNat = 0) ∧
      (s.eng.fsm = .round → t.eng.rc.toNat = s.eng.rc.toNat + 1 ∧
        ((s.eng.rc.toNat + 1 < s.eng.nk.toNat ∧ t.eng.fsm = .round) ∨
          (s.eng.rc.toNat + 1 = s.eng.nk.toNat ∧ t.eng.fsm = .store))) ∧
      (s.eng.fsm = .store → t.eng.bi.toNat = s.eng.bi.toNat + 1 ∧
        ((s.eng.bi.toNat + 1 < s.eng.nb.toNat ∧ t.eng.fsm = .fetch) ∨
          (s.eng.bi.toNat + 1 = s.eng.nb.toNat ∧ t.eng.fsm = .finish))) ∧
      (s.eng.fsm = .finish → t.eng.fsm = .idle) ∧ (s.eng.fsm ≠ .store → t.eng.bi = s.eng.bi)) ∧
    (∀ desc data, hostTurn desc data s = .next t → t.eng = s.eng ∨
      (s.eng.fsm = .idle ∧ ∃ cmd, desc = 0x18000#17 ∧ decodeCmd data = .ok cmd ∧ Accepts s ∧
        t.eng.fsm = if s.regs.len.toNat / blockSize cmd.mode = 0 then .finish else .fetch)) ∧
    (turn .reset s = .next t → t.eng.fsm = .idle)

/-- R33, R38, R62: an engine turn never changes KEY, IBUF, LEN, KEYLEN, ERR or ERRCODE; only FINISH writes a flag or
OUTLEN and only STORE writes OBUF. -/
def Obligations.EngineWritesOnlyItsResults : Prop :=
  ∀ s t : State, engineTurn s = .next t →
    t.mem.key = s.mem.key ∧ t.mem.ibuf = s.mem.ibuf ∧ t.regs.len = s.regs.len ∧ t.regs.keylen = s.regs.keylen ∧
    t.regs.err = s.regs.err ∧ t.regs.errcode = s.regs.errcode ∧ t.cfg = s.cfg ∧ t.inputs = s.inputs ∧
    t.resp = s.resp ∧ (s.eng.fsm ≠ .finish → t.regs = s.regs) ∧ (s.eng.fsm ≠ .store → t.mem = s.mem)

/-! ### The machine as a whole -/

/-- The invariants hold after reset (R37), whatever values the engine's registers hold then (R40). -/
def Obligations.ResetMeetsTheInvariants : Prop :=
  Inv State.reset ∧ ∀ e : Engine, e.fsm = .idle → Inv { State.reset with eng := e }

/-- R37: every step from a state that meets the invariants gives a state that meets them. R37(e) holds of every busy
state, and once it holds no step but reset ends it, so it holds from the first accepted command on. -/
def Obligations.StepKeepsTheInvariants : Prop :=
  ∀ s t : State, Inv s → step s = .next t →
    Inv t ∧ (OperandsFit s → s.inputs.head? ≠ some .reset → OperandsFit t)

/-- R27: the four events that set or clear DONE, over every step; nothing else writes it. -/
def Obligations.DoneChangesOnlyByItsFourEvents : Prop :=
  ∀ s t : State, step s = .next t →
    let finish := s.eng.fsm = .finish ∧ (s.inputs = [] ∨ s.inputs.head? = some .engine)
    let accepted := (∃ data, s.inputs.head? = some (.bus 0x18000#17 data)) ∧ s.busy = false ∧ t.busy = true
    let cleared := ∃ data, s.inputs.head? = some (.bus 0x18004#17 data) ∧ data.getLsbD 1 = true
    (finish → t.regs.done = true) ∧
    (accepted ∨ cleared ∨ s.inputs.head? = some .reset → t.regs.done = false) ∧
    (¬finish → ¬accepted → ¬cleared → s.inputs.head? ≠ some .reset → t.regs.done = s.regs.done)

/-- R28, R29: the first error is kept until a STATUS write with bit 2 or a reset clears ERR and ERRCODE together. -/
def Obligations.FirstErrorIsKeptUntilCleared : Prop :=
  ∀ s t : State, step s = .next t →
    (s.regs.err = true → t.regs.err = true → t.regs.errcode = s.regs.errcode) ∧
    (s.regs.err = true → t.regs.err = false → t.regs.errcode = 0#4 ∧
      (s.inputs.head? = some .reset ∨
        ∃ data, s.inputs.head? = some (.bus 0x18004#17 data) ∧ data.getLsbD 2 = true)) ∧
    (s.regs.err = false → t.regs.err = true → (∃ desc data, s.inputs.head? = some (.bus desc data)) ∧
      1 ≤ t.regs.errcode.toNat ∧ t.regs.errcode.toNat ≤ 5)

/-- R32: OUTLEN is set to 0 by an accepted command and by reset, and to the output length by FINISH; nothing else
writes it. -/
def Obligations.OutlenChangesOnlyByCommandFinishReset : Prop :=
  ∀ s t : State, step s = .next t →
    let finish := s.eng.fsm = .finish ∧ (s.inputs = [] ∨ s.inputs.head? = some .engine)
    let accepted := (∃ data, s.inputs.head? = some (.bus 0x18000#17 data)) ∧ s.busy = false ∧ t.busy = true
    (finish → t.regs.outlen.toNat = s.eng.nb.toNat * blockSize s.eng.mode) ∧
    (accepted ∨ s.inputs.head? = some .reset → t.regs.outlen = 0#32) ∧
    (¬finish → ¬accepted → s.inputs.head? ≠ some .reset → t.regs.outlen = s.regs.outlen)

/-- R34: no step but reset makes a defined byte undefined. -/
def Obligations.DefinedBytesStayDefined : Prop :=
  ∀ s t : State, step s = .next t → s.inputs.head? ≠ some .reset →
    ∀ sp i, s.byteAt sp i ≠ none → t.byteAt sp i ≠ none

/-- R33, R188: who writes a store byte. KEY and IBUF change only by the host's write of that byte while idle, OBUF only
by the STORE of the block it belongs to, and everything by reset. -/
def Obligations.StoreBytesChangeOnlyByTheirWriter : Prop :=
  ∀ (s t : State) (sp : Space) (i : Nat), step s = .next t → t.byteAt sp i ≠ s.byteAt sp i →
    s.inputs.head? = some .reset ∨
    (sp = .obuf ∧ EngineMoves s ∧ s.eng.fsm = .store ∧ storeIndex s.eng ≤ i ∧
      i < storeIndex s.eng + blockSize s.eng.mode) ∨
    (s.busy = false ∧ ∃ desc data n d, s.inputs.head? = some (.bus desc data) ∧ n.toNat = i ∧
      t.byteAt sp i = some (dataByte d) ∧
      ((sp = .key ∧ decodeBus s.cfg desc data = .ok (.wrbKey n d)) ∨
        (sp = .ibuf ∧ decodeBus s.cfg desc data = .ok (.wrbIbuf n d))))

/-- R154, R200: from a state that meets the invariants a step answers a next state, or stops on a mapped byte that is
undefined; nothing else stops the machine and nothing is refused. -/
def Obligations.OnlyUndefinedBytesStopTheMachine : Prop :=
  ∀ s : State, Inv s → (∃ t, step s = .next t) ∨
    ∃ sp i, step s = .fault (.undefinedByte sp i) ∧ i < s.cfg.capacity sp ∧ s.byteAt sp i = none

/-- R41: engine registers that nothing has written yet reach no output: two states that differ only there take steps
that no host can tell apart, for ever. -/
def Obligations.UnreadEngineRegistersAreUnobservable : Prop :=
  ∀ s t : State, SameButUnread s t → SameOutcome (step s) (step t)

/-- R160: whatever host transactions fall between the micro-steps, the engine of an accepted command computes the
functional level: right after FINISH, OUTLEN and OBUF hold the transform of the input, bytes beyond it are as they were
at acceptance, DONE is 1 and the inputs are unchanged. -/
def Obligations.EngineComputesTheBufferTransform : Prop :=
  ∀ (s t u : State) (cmd : Command) (keys buf : List Byte) (n : Nat),
    s.cfg.Valid → Accepts s → Loaded s cmd.mode keys buf → exec cmd.instr s = .next t →
    NoReset n t → FirstIdle n t u →
    let len := buf.length / blockSize cmd.mode * blockSize cmd.mode
    u.regs.outlen.toNat = len ∧
    (∀ i, i < len → u.byteAt .obuf i = (xbuf cmd.dir cmd.mode keys buf)[i]?) ∧
    (∀ i, len ≤ i → u.byteAt .obuf i = s.byteAt .obuf i) ∧
    u.regs.done = true ∧ u.busy = false ∧ u.mem.key = s.mem.key ∧ u.mem.ibuf = s.mem.ibuf ∧
    u.regs.len = s.regs.len ∧ u.regs.keylen = s.regs.keylen

/-- R153: from acceptance to IDLE the engine takes exactly 1 + nb*(nk + 2) turns, whatever host transactions fall
between them and with no reset on the way. A step with no entry left is a turn of the engine's too (log entry 2). -/
def Obligations.OperationTakesTheStatedSteps : Prop :=
  ∀ (s t u : State) (cmd : Command) (n : Nat), s.cfg.Valid → Accepts s → exec cmd.instr s = .next t →
    NoReset n t → FirstIdle n t u →
    engineTurns n t = 1 + s.regs.len.toNat / blockSize cmd.mode * (s.regs.keylen.toNat + 2)

/-- R161, as far as one deterministic machine shows it (log entry 2): whatever finite interleaving without a reset
surrounds it, an accepted operation reaches IDLE. -/
def Obligations.AcceptedOperationReachesIdle : Prop :=
  ∀ (s t : State) (cmd : Command) (keys buf : List Byte),
    s.cfg.Valid → Accepts s → Loaded s cmd.mode keys buf → exec cmd.instr s = .next t →
    (∀ inp ∈ s.inputs, inp ≠ .reset) →
    ∃ n u, n ≤ s.inputs.length + (1 + buf.length / blockSize cmd.mode * (keys.length + 2)) ∧ FirstIdle n t u

/-- R160, its proof's invariant: acceptance establishes the progress of the operation, every step of the machine but a
reset keeps it while the core is BUSY, and the step that ends in IDLE leaves the output published. -/
def Obligations.StepKeepsTheProgress : Prop :=
  (∀ (s t : State) (cmd : Command) (keys buf : List Byte),
    s.cfg.Valid → Accepts s → Loaded s cmd.mode keys buf → exec cmd.instr s = .next t →
    Progress cmd.dir cmd.mode keys buf (s.byteAt .obuf) t) ∧
  ∀ (d : Dir) (m : BlockMode) (keys buf : List Byte) (before : Nat → Option Byte) (s t : State),
    s.busy = true → Progress d m keys buf before s → step s = .next t → s.inputs.head? ≠ some .reset →
    if t.busy then Progress d m keys buf before t else Published d m keys buf before t

/-! ### Host programs -/

/-- R91: what each pseudo-instruction expands to; and `wait`, which reads STATUS once a host turn, stays while the
returned bit 0 is 1, is done at the first read that returns 0, and is untouched by the engine's turns. -/
def Obligations.PseudoInstructionsExpand : Prop :=
  (expand .encN = some [.issue (.wrCmd 0x00000001#32)] ∧ expand .encB = some [.issue (.wrCmd 0x00000005#32)] ∧
    expand .decN = some [.issue (.wrCmd 0x00000002#32)] ∧ expand .decB = some [.issue (.wrCmd 0x00000006#32)] ∧
    expand .clr = some [.issue (.wrStatus 0x00000006#32)] ∧ expand .wait = some [.wait]) ∧
  (∀ ks : List Byte, ks.length ≤ 0x1000 → ∃ ops, expand (.ldkey ks) = some ops ∧ ops.length = ks.length + 1 ∧
    (∀ i k, ks[i]? = some k → ops[i]? = some (HostOp.issue (.wrbKey (BitVec.ofNat 12 i) (BitVec.ofNat 32 k.toNat)))) ∧
    ops[ks.length]? = some (HostOp.issue (.wrKeylen (BitVec.ofNat 32 ks.length)))) ∧
  (∀ bs : List Byte, bs.length ≤ 0x1000 → ∃ ops, expand (.ldbuf bs) = some ops ∧ ops.length = bs.length + 1 ∧
    (∀ i b, bs[i]? = some b → ops[i]? = some (HostOp.issue (.wrbIbuf (BitVec.ofNat 12 i) (BitVec.ofNat 32 b.toNat)))) ∧
    ops[bs.length]? = some (HostOp.issue (.wrLen (BitVec.ofNat 32 bs.length)))) ∧
  ∀ (s : State) (rest : List HostOp),
    (∃ w : Word, exec .rdStatus s = .next (answered .okay w s) ∧ w.getLsbD 0 = s.busy ∧
      agentStep .host { program := .wait :: rest, core := s } =
        .next { program := if s.busy then .wait :: rest else rest, core := answered .okay w s }) ∧
    ∀ b, agentStep .engine { program := .wait :: rest, core := s } = .next b → b.program = .wait :: rest

/-- R71, R91: a run of a host program beside the core, under any interleaving of the agents, is a run of the machine
whose interleaving holds the program's transactions, engine turns and resets. That the host goes on after a response
ERROR, and keeps the rest of its program across a reset (the second clause), is the model's choice (DESIGN CHOICE, log
entry 10); the spec leaves the host's doings there unsaid. -/
def Obligations.HostProgramsAreMachineRuns : Prop :=
  (∀ (agents : List Agent) (b b' : HostedCore), b.core.inputs = [] → runAgents agents b = .next b' →
    ∃ ins : List Input, ins.length ≤ agents.length ∧
      runSteps ins.length { b.core with inputs := ins } = .next b'.core ∧
      ∀ inp ∈ ins, inp = .engine ∨ inp = .reset ∨ ∃ op ∈ b.program, inp = opInput op) ∧
  ∀ b : HostedCore, agentStep .reset b = .next { program := b.program, core := resetStep b.core }
end

