-- ==== Sys2Proof/Laws/State.lean ====
section
/-! SUPPORT. One lemma for each field of State and each named update, each true by definition. -/

namespace Sys2Proof.Machine

variable (s : State)

@[simp] theorem State.setLen_cfg (w : Word) : (s.setLen w).cfg = s.cfg := rfl
@[simp] theorem State.setLen_regs_done (w : Word) : (s.setLen w).regs.done = s.regs.done := rfl
@[simp] theorem State.setLen_regs_err (w : Word) : (s.setLen w).regs.err = s.regs.err := rfl
@[simp] theorem State.setLen_regs_errcode (w : Word) : (s.setLen w).regs.errcode = s.regs.errcode := rfl
@[simp] theorem State.setLen_regs_len (w : Word) : (s.setLen w).regs.len = w := rfl
@[simp] theorem State.setLen_regs_keylen (w : Word) : (s.setLen w).regs.keylen = s.regs.keylen := rfl
@[simp] theorem State.setLen_regs_outlen (w : Word) : (s.setLen w).regs.outlen = s.regs.outlen := rfl
@[simp] theorem State.setLen_mem (w : Word) : (s.setLen w).mem = s.mem := rfl
@[simp] theorem State.setLen_eng (w : Word) : (s.setLen w).eng = s.eng := rfl
@[simp] theorem State.setLen_inputs (w : Word) : (s.setLen w).inputs = s.inputs := rfl
@[simp] theorem State.setLen_resp (w : Word) : (s.setLen w).resp = s.resp := rfl

@[simp] theorem State.setKeylen_cfg (w : Word) : (s.setKeylen w).cfg = s.cfg := rfl
@[simp] theorem State.setKeylen_regs_done (w : Word) : (s.setKeylen w).regs.done = s.regs.done := rfl
@[simp] theorem State.setKeylen_regs_err (w : Word) : (s.setKeylen w).regs.err = s.regs.err := rfl
@[simp] theorem State.setKeylen_regs_errcode (w : Word) : (s.setKeylen w).regs.errcode = s.regs.errcode := rfl
@[simp] theorem State.setKeylen_regs_len (w : Word) : (s.setKeylen w).regs.len = s.regs.len := rfl
@[simp] theorem State.setKeylen_regs_keylen (w : Word) : (s.setKeylen w).regs.keylen = w := rfl
@[simp] theorem State.setKeylen_regs_outlen (w : Word) : (s.setKeylen w).regs.outlen = s.regs.outlen := rfl
@[simp] theorem State.setKeylen_mem (w : Word) : (s.setKeylen w).mem = s.mem := rfl
@[simp] theorem State.setKeylen_eng (w : Word) : (s.setKeylen w).eng = s.eng := rfl
@[simp] theorem State.setKeylen_inputs (w : Word) : (s.setKeylen w).inputs = s.inputs := rfl
@[simp] theorem State.setKeylen_resp (w : Word) : (s.setKeylen w).resp = s.resp := rfl

@[simp] theorem State.setOutlen_cfg (w : Word) : (s.setOutlen w).cfg = s.cfg := rfl
@[simp] theorem State.setOutlen_regs_done (w : Word) : (s.setOutlen w).regs.done = s.regs.done := rfl
@[simp] theorem State.setOutlen_regs_err (w : Word) : (s.setOutlen w).regs.err = s.regs.err := rfl
@[simp] theorem State.setOutlen_regs_errcode (w : Word) : (s.setOutlen w).regs.errcode = s.regs.errcode := rfl
@[simp] theorem State.setOutlen_regs_len (w : Word) : (s.setOutlen w).regs.len = s.regs.len := rfl
@[simp] theorem State.setOutlen_regs_keylen (w : Word) : (s.setOutlen w).regs.keylen = s.regs.keylen := rfl
@[simp] theorem State.setOutlen_regs_outlen (w : Word) : (s.setOutlen w).regs.outlen = w := rfl
@[simp] theorem State.setOutlen_mem (w : Word) : (s.setOutlen w).mem = s.mem := rfl
@[simp] theorem State.setOutlen_eng (w : Word) : (s.setOutlen w).eng = s.eng := rfl
@[simp] theorem State.setOutlen_inputs (w : Word) : (s.setOutlen w).inputs = s.inputs := rfl
@[simp] theorem State.setOutlen_resp (w : Word) : (s.setOutlen w).resp = s.resp := rfl

@[simp] theorem State.setDone_cfg (b : Bool) : (s.setDone b).cfg = s.cfg := rfl
@[simp] theorem State.setDone_regs_done (b : Bool) : (s.setDone b).regs.done = b := rfl
@[simp] theorem State.setDone_regs_err (b : Bool) : (s.setDone b).regs.err = s.regs.err := rfl
@[simp] theorem State.setDone_regs_errcode (b : Bool) : (s.setDone b).regs.errcode = s.regs.errcode := rfl
@[simp] theorem State.setDone_regs_len (b : Bool) : (s.setDone b).regs.len = s.regs.len := rfl
@[simp] theorem State.setDone_regs_keylen (b : Bool) : (s.setDone b).regs.keylen = s.regs.keylen := rfl
@[simp] theorem State.setDone_regs_outlen (b : Bool) : (s.setDone b).regs.outlen = s.regs.outlen := rfl
@[simp] theorem State.setDone_mem (b : Bool) : (s.setDone b).mem = s.mem := rfl
@[simp] theorem State.setDone_eng (b : Bool) : (s.setDone b).eng = s.eng := rfl
@[simp] theorem State.setDone_inputs (b : Bool) : (s.setDone b).inputs = s.inputs := rfl
@[simp] theorem State.setDone_resp (b : Bool) : (s.setDone b).resp = s.resp := rfl

@[simp] theorem State.setErr_cfg (b : Bool) (c : BitVec 4) : (s.setErr b c).cfg = s.cfg := rfl
@[simp] theorem State.setErr_regs_done (b : Bool) (c : BitVec 4) : (s.setErr b c).regs.done = s.regs.done := rfl
@[simp] theorem State.setErr_regs_err (b : Bool) (c : BitVec 4) : (s.setErr b c).regs.err = b := rfl
@[simp] theorem State.setErr_regs_errcode (b : Bool) (c : BitVec 4) : (s.setErr b c).regs.errcode = c := rfl
@[simp] theorem State.setErr_regs_len (b : Bool) (c : BitVec 4) : (s.setErr b c).regs.len = s.regs.len := rfl
@[simp] theorem State.setErr_regs_keylen (b : Bool) (c : BitVec 4) : (s.setErr b c).regs.keylen = s.regs.keylen := rfl
@[simp] theorem State.setErr_regs_outlen (b : Bool) (c : BitVec 4) : (s.setErr b c).regs.outlen = s.regs.outlen := rfl
@[simp] theorem State.setErr_mem (b : Bool) (c : BitVec 4) : (s.setErr b c).mem = s.mem := rfl
@[simp] theorem State.setErr_eng (b : Bool) (c : BitVec 4) : (s.setErr b c).eng = s.eng := rfl
@[simp] theorem State.setErr_inputs (b : Bool) (c : BitVec 4) : (s.setErr b c).inputs = s.inputs := rfl
@[simp] theorem State.setErr_resp (b : Bool) (c : BitVec 4) : (s.setErr b c).resp = s.resp := rfl

@[simp] theorem State.setEngine_cfg (e : Engine) : (s.setEngine e).cfg = s.cfg := rfl
@[simp] theorem State.setEngine_regs (e : Engine) : (s.setEngine e).regs = s.regs := rfl
@[simp] theorem State.setEngine_mem (e : Engine) : (s.setEngine e).mem = s.mem := rfl
@[simp] theorem State.setEngine_eng (e : Engine) : (s.setEngine e).eng = e := rfl
@[simp] theorem State.setEngine_inputs (e : Engine) : (s.setEngine e).inputs = s.inputs := rfl
@[simp] theorem State.setEngine_resp (e : Engine) : (s.setEngine e).resp = s.resp := rfl

@[simp] theorem State.setInputs_cfg (l : List Input) : (s.setInputs l).cfg = s.cfg := rfl
@[simp] theorem State.setInputs_regs (l : List Input) : (s.setInputs l).regs = s.regs := rfl
@[simp] theorem State.setInputs_mem (l : List Input) : (s.setInputs l).mem = s.mem := rfl
@[simp] theorem State.setInputs_eng (l : List Input) : (s.setInputs l).eng = s.eng := rfl
@[simp] theorem State.setInputs_inputs (l : List Input) : (s.setInputs l).inputs = l := rfl
@[simp] theorem State.setInputs_resp (l : List Input) : (s.setInputs l).resp = s.resp := rfl

@[simp] theorem State.putByte_cfg (sp : Space) (i : Nat) (v : Byte) : (s.putByte sp i v).cfg = s.cfg := rfl
@[simp] theorem State.putByte_regs (sp : Space) (i : Nat) (v : Byte) : (s.putByte sp i v).regs = s.regs := rfl
@[simp] theorem State.putByte_mem (sp : Space) (i : Nat) (v : Byte) : (s.putByte sp i v).mem = s.mem.put sp (writeByte (s.mem.at sp) i v) := rfl
@[simp] theorem State.putByte_eng (sp : Space) (i : Nat) (v : Byte) : (s.putByte sp i v).eng = s.eng := rfl
@[simp] theorem State.putByte_inputs (sp : Space) (i : Nat) (v : Byte) : (s.putByte sp i v).inputs = s.inputs := rfl
@[simp] theorem State.putByte_resp (sp : Space) (i : Nat) (v : Byte) : (s.putByte sp i v).resp = s.resp := rfl

@[simp] theorem State.respond_cfg (r : Resp) (w : Word) : (s.respond r w).cfg = s.cfg := rfl
@[simp] theorem State.respond_regs (r : Resp) (w : Word) : (s.respond r w).regs = s.regs := rfl
@[simp] theorem State.respond_mem (r : Resp) (w : Word) : (s.respond r w).mem = s.mem := rfl
@[simp] theorem State.respond_eng (r : Resp) (w : Word) : (s.respond r w).eng = s.eng := rfl
@[simp] theorem State.respond_inputs (r : Resp) (w : Word) : (s.respond r w).inputs = s.inputs := rfl
@[simp] theorem State.respond_resp (r : Resp) (w : Word) : (s.respond r w).resp = some { resp := r, rdata := w } := rfl

@[simp] theorem State.okay_cfg : (s.okay).cfg = s.cfg := rfl
@[simp] theorem State.okay_regs : (s.okay).regs = s.regs := rfl
@[simp] theorem State.okay_mem : (s.okay).mem = s.mem := rfl
@[simp] theorem State.okay_eng : (s.okay).eng = s.eng := rfl
@[simp] theorem State.okay_inputs : (s.okay).inputs = s.inputs := rfl
@[simp] theorem State.okay_resp : (s.okay).resp = some { resp := .okay, rdata := 0#32 } := rfl

@[simp] theorem Memory.put_key_key (m : Memory) (st : Store) : (m.put .key st).key = st := rfl
@[simp] theorem Memory.put_key_ibuf (m : Memory) (st : Store) : (m.put .key st).ibuf = m.ibuf := rfl
@[simp] theorem Memory.put_key_obuf (m : Memory) (st : Store) : (m.put .key st).obuf = m.obuf := rfl
@[simp] theorem Memory.at_key (m : Memory) : m.at .key = m.key := rfl
@[simp] theorem Memory.put_ibuf_key (m : Memory) (st : Store) : (m.put .ibuf st).key = m.key := rfl
@[simp] theorem Memory.put_ibuf_ibuf (m : Memory) (st : Store) : (m.put .ibuf st).ibuf = st := rfl
@[simp] theorem Memory.put_ibuf_obuf (m : Memory) (st : Store) : (m.put .ibuf st).obuf = m.obuf := rfl
@[simp] theorem Memory.at_ibuf (m : Memory) : m.at .ibuf = m.ibuf := rfl
@[simp] theorem Memory.put_obuf_key (m : Memory) (st : Store) : (m.put .obuf st).key = m.key := rfl
@[simp] theorem Memory.put_obuf_ibuf (m : Memory) (st : Store) : (m.put .obuf st).ibuf = m.ibuf := rfl
@[simp] theorem Memory.put_obuf_obuf (m : Memory) (st : Store) : (m.put .obuf st).obuf = st := rfl
@[simp] theorem Memory.at_obuf (m : Memory) : m.at .obuf = m.obuf := rfl

/-- A replaced store is the one read back, and the others stand. -/
theorem Memory.at_put (m : Memory) (sp sq : Space) (st : Store) :
    (m.put sp st).at sq = if sq = sp then st else m.at sq := by
  cases sp <;> cases sq <;> rfl

/-- BUSY reads the sequencer alone (R26). -/
theorem State.busy_eq_true (s : State) : s.busy = true ↔ s.eng.fsm ≠ .idle := by simp [State.busy]

/-- BUSY is 0 exactly in IDLE (R26). -/
theorem State.busy_eq_false (s : State) : s.busy = false ↔ s.eng.fsm = .idle := by simp [State.busy]

/-- States with one engine have one BUSY. -/
theorem State.busy_congr {s t : State} (h : t.eng = s.eng) : t.busy = s.busy := by simp [State.busy, h]

end Sys2Proof.Machine
end

