-- ==== Sys2Proof/Laws/Memory.lean ====
section
/-! SUPPORT. The stores: a read after a write, and that every memory operation keeps the canonical form. -/

namespace Sys2Proof.Machine

/-- Read after write, at the index written and at every other index. -/
theorem readByte_writeByte (st : Store) (i j : Nat) (v : Byte) :
    readByte (writeByte st i v) j = if j = i then some v else readByte st j := by
  induction st with
  | nil => simp only [writeByte, readByte]
  | cons c rest ih =>
    obtain ⟨a, w⟩ := c
    simp only [writeByte]
    by_cases hlt : i < a
    · simp only [hlt, if_true, readByte]
    · by_cases heq : i = a
      · subst heq
        simp only [Nat.lt_irrefl, if_false, if_true, readByte]
        by_cases hj : j = i <;> simp [hj]
      · simp only [hlt, heq, if_false, readByte, ih]
        by_cases hj : j = a
        · subst hj; simp [Ne.symm heq]
        · simp [hj]

/-- The indices a write leaves listed. -/
theorem mem_writeByte {st : Store} {i : Nat} {v : Byte} {c : Host.Cell} (h : c ∈ writeByte st i v) :
    c = (i, v) ∨ c ∈ st := by
  induction st with
  | nil => exact .inl (by simpa [writeByte] using h)
  | cons d rest ih =>
    obtain ⟨a, w⟩ := d
    simp only [writeByte] at h
    split at h
    · simpa using h
    · split at h
      · rcases List.mem_cons.1 h with h | h
        · exact .inl h
        · exact .inr (List.mem_cons_of_mem _ h)
      · rcases List.mem_cons.1 h with h | h
        · exact .inr (h ▸ List.mem_cons_self)
        · exact (ih h).imp_right (List.mem_cons_of_mem _)

/-- A write keeps the canonical form of a store. -/
theorem writeByte_wf {st : Store} (h : Store.wf st) (i : Nat) (v : Byte) : Store.wf (writeByte st i v) := by
  induction st with
  | nil => simp [writeByte, Store.wf]
  | cons d rest ih =>
    obtain ⟨a, w⟩ := d
    have hd : (∀ b ∈ rest.map Prod.fst, a < b) ∧ Store.wf rest := by
      simpa [Store.wf] using h
    simp only [writeByte]
    split
    · rename_i hlt
      refine List.pairwise_cons.2 ⟨fun b hb => ?_, h⟩
      rcases List.mem_cons.1 hb with rfl | hb
      · exact hlt
      · exact hlt.trans (hd.1 b hb)
    · split
      · rename_i heq
        exact List.pairwise_cons.2 ⟨fun b hb => heq ▸ hd.1 b hb, hd.2⟩
      · rename_i hlt hne
        refine List.pairwise_cons.2 ⟨fun b hb => ?_, ih hd.2⟩
        obtain ⟨c, hc, rfl⟩ := List.mem_map.1 hb
        rcases mem_writeByte hc with rfl | hc
        · exact lt_of_le_of_ne (Nat.not_lt.1 hlt) (Ne.symm hne)
        · exact hd.1 _ (List.mem_map_of_mem hc)

/-- A write below the capacity keeps every listed index below it. -/
theorem writeByte_below {cap : Nat} {st : Store} (h : Store.below cap st) {i : Nat} (hi : i < cap) (v : Byte) :
    Store.below cap (writeByte st i v) := by
  intro c hc
  rcases mem_writeByte hc with rfl | hc
  · exact hi
  · exact h c hc

/-- Writing one value twice is writing it once. -/
theorem writeByte_twice (st : Store) (i : Nat) (v w : Byte) : writeByte (writeByte st i v) i w = writeByte st i w := by
  induction st with
  | nil => simp [writeByte]
  | cons d rest ih =>
    obtain ⟨a, x⟩ := d
    by_cases hlt : i < a
    · simp [writeByte, hlt]
    · by_cases heq : i = a
      · subst heq; simp [writeByte]
      · simp [writeByte, hlt, heq, ih]

/-- A listed index is a defined byte. -/
theorem readByte_isSome (st : Store) (i : Nat) : (readByte st i).isSome ↔ i ∈ st.map Prod.fst := by
  induction st with
  | nil => simp [readByte]
  | cons d rest ih =>
    obtain ⟨a, x⟩ := d
    by_cases h : i = a <;> simp [readByte, h, ih]

/-- What a written state reads as, at every byte of every store. -/
theorem byteAt_putByte (s : State) (sp sq : Space) (i j : Nat) (v : Byte) :
    (s.putByte sp i v).byteAt sq j = if sq = sp ∧ j = i then some v else s.byteAt sq j := by
  by_cases h : sq = sp
  · subst h
    simp [State.byteAt, Memory.at_put, readByte_writeByte]
  · simp [State.byteAt, Memory.at_put, h]

/-- States with one memory read as one. -/
theorem byteAt_congr {s t : State} (h : t.mem = s.mem) (sp : Space) (i : Nat) : t.byteAt sp i = s.byteAt sp i := by
  simp [State.byteAt, h]

/-- Memory keeps its canonical form under a write. -/
theorem putByte_wf {s : State} (h : s.mem.wf) (sp : Space) (i : Nat) (v : Byte) : (s.putByte sp i v).mem.wf := by
  obtain ⟨hk, hi, ho⟩ := h
  cases sp
  · exact ⟨writeByte_wf hk i v, hi, ho⟩
  · exact ⟨hk, writeByte_wf hi i v, ho⟩
  · exact ⟨hk, hi, writeByte_wf ho i v⟩

/-- Memory stays within the capacities under a write below them. -/
theorem putByte_within {s : State} (h : s.mem.within s.cfg) {sp : Space} {i : Nat} (hlt : i < s.cfg.capacity sp)
    (v : Byte) : (s.putByte sp i v).mem.within s.cfg := by
  obtain ⟨hk, hi, ho⟩ := h
  cases sp
  · exact ⟨writeByte_below hk hlt v, hi, ho⟩
  · exact ⟨hk, writeByte_below hi hlt v, ho⟩
  · exact ⟨hk, hi, writeByte_below ho hlt v⟩

/-- The memory after reset has the canonical form. -/
theorem reset_mem_wf : State.reset.mem.wf := by decide

/-- The memory after reset is within every capacity. -/
theorem reset_mem_within (c : Config) : State.reset.mem.within c := by
  simp [State.reset, Memory.reset, Memory.within, Store.below]

end Sys2Proof.Machine
end

