-- ==== Sys2Proof/Laws/Ops.lean ====
section
/-! SUPPORT. What each shared operation can do, said once: the fields it leaves, and its next states. -/

namespace Sys2Proof.Machine

/-! ### Store accesses -/

/-- A read succeeds exactly on a defined byte below the capacity. -/
theorem memRead_ok {s : State} {sp : Space} {i : Nat} {v : Byte} :
    memRead s sp i = .ok v ↔ i < s.cfg.capacity sp ∧ s.byteAt sp i = some v := by
  unfold memRead
  split
  · cases h : s.byteAt sp i <;> simp_all
  · simp_all

/-- A read stops on an undefined byte, or beyond the capacity. -/
theorem memRead_error {s : State} {sp : Space} {i : Nat} {f : Fault} :
    memRead s sp i = .error f ↔
      (i < s.cfg.capacity sp ∧ s.byteAt sp i = none ∧ f = .undefinedByte sp i) ∨
        (s.cfg.capacity sp ≤ i ∧ f = .outsideStore sp i) := by
  unfold memRead
  split
  · rename_i h
    cases hb : s.byteAt sp i <;> simp [h, Nat.not_le.2 h, eq_comm]
  · rename_i h
    simp [Nat.not_lt.1 h, h, eq_comm]

/-- A write succeeds exactly below the capacity. -/
theorem memWrite_ok {s t : State} {sp : Space} {i : Nat} {v : Byte} :
    memWrite s sp i v = .ok t ↔ i < s.cfg.capacity sp ∧ t = s.putByte sp i v := by
  unfold memWrite
  split <;> simp_all [eq_comm]

/-- A write stops only beyond the capacity. -/
theorem memWrite_error {s : State} {sp : Space} {i : Nat} {v : Byte} {f : Fault} :
    memWrite s sp i v = .error f ↔ s.cfg.capacity sp ≤ i ∧ f = .outsideStore sp i := by
  unfold memWrite
  split
  · rename_i h
    simp [Nat.not_le.2 h]
  · rename_i h
    simp [Nat.not_lt.1 h, eq_comm]

/-! ### Errors and STATUS -/

section
variable (e : IfaceError) (s : State)

@[simp] theorem flagError_cfg : (flagError e s).cfg = s.cfg := by unfold flagError; split <;> rfl
@[simp] theorem flagError_mem : (flagError e s).mem = s.mem := by unfold flagError; split <;> rfl
@[simp] theorem flagError_eng : (flagError e s).eng = s.eng := by unfold flagError; split <;> rfl
@[simp] theorem flagError_inputs : (flagError e s).inputs = s.inputs := by unfold flagError; split <;> rfl
@[simp] theorem flagError_resp : (flagError e s).resp = s.resp := by unfold flagError; split <;> rfl
@[simp] theorem flagError_len : (flagError e s).regs.len = s.regs.len := by unfold flagError; split <;> rfl
@[simp] theorem flagError_keylen : (flagError e s).regs.keylen = s.regs.keylen := by
  unfold flagError; split <;> rfl
@[simp] theorem flagError_outlen : (flagError e s).regs.outlen = s.regs.outlen := by
  unfold flagError; split <;> rfl
@[simp] theorem flagError_done : (flagError e s).regs.done = s.regs.done := by unfold flagError; split <;> rfl

/-- After `flag_error` ERR is set (R201). -/
@[simp] theorem flagError_err : (flagError e s).regs.err = true := by
  unfold flagError
  split
  · assumption
  · rfl

/-- `flag_error` keeps the first code (R29, R201). -/
theorem flagError_errcode :
    (flagError e s).regs.errcode = if s.regs.err then s.regs.errcode else errorCode e := by
  unfold flagError
  split <;> simp_all
end

section
variable (w : Word) (s : State)

@[simp] theorem clearDone_cfg : (clearDone w s).cfg = s.cfg := by unfold clearDone; split <;> rfl
@[simp] theorem clearDone_mem : (clearDone w s).mem = s.mem := by unfold clearDone; split <;> rfl
@[simp] theorem clearDone_eng : (clearDone w s).eng = s.eng := by unfold clearDone; split <;> rfl
@[simp] theorem clearDone_inputs : (clearDone w s).inputs = s.inputs := by unfold clearDone; split <;> rfl
@[simp] theorem clearDone_len : (clearDone w s).regs.len = s.regs.len := by unfold clearDone; split <;> rfl
@[simp] theorem clearDone_keylen : (clearDone w s).regs.keylen = s.regs.keylen := by
  unfold clearDone; split <;> rfl
@[simp] theorem clearDone_outlen : (clearDone w s).regs.outlen = s.regs.outlen := by
  unfold clearDone; split <;> rfl
@[simp] theorem clearDone_err : (clearDone w s).regs.err = s.regs.err := by unfold clearDone; split <;> rfl
@[simp] theorem clearDone_errcode : (clearDone w s).regs.errcode = s.regs.errcode := by
  unfold clearDone; split <;> rfl

/-- DONE after the write (R27). -/
theorem clearDone_done : (clearDone w s).regs.done = (s.regs.done && !w.getLsbD 1) := by
  unfold clearDone
  split <;> simp_all

@[simp] theorem clearErr_cfg : (clearErr w s).cfg = s.cfg := by unfold clearErr; split <;> rfl
@[simp] theorem clearErr_mem : (clearErr w s).mem = s.mem := by unfold clearErr; split <;> rfl
@[simp] theorem clearErr_eng : (clearErr w s).eng = s.eng := by unfold clearErr; split <;> rfl
@[simp] theorem clearErr_inputs : (clearErr w s).inputs = s.inputs := by unfold clearErr; split <;> rfl
@[simp] theorem clearErr_len : (clearErr w s).regs.len = s.regs.len := by unfold clearErr; split <;> rfl
@[simp] theorem clearErr_keylen : (clearErr w s).regs.keylen = s.regs.keylen := by
  unfold clearErr; split <;> rfl
@[simp] theorem clearErr_outlen : (clearErr w s).regs.outlen = s.regs.outlen := by
  unfold clearErr; split <;> rfl
@[simp] theorem clearErr_done : (clearErr w s).regs.done = s.regs.done := by unfold clearErr; split <;> rfl

/-- ERR after the write (R28). -/
theorem clearErr_err : (clearErr w s).regs.err = (s.regs.err && !w.getLsbD 2) := by
  unfold clearErr
  split <;> simp_all

/-- ERRCODE after the write (R29). -/
theorem clearErr_errcode : (clearErr w s).regs.errcode = if w.getLsbD 2 then 0#4 else s.regs.errcode := by
  unfold clearErr
  split <;> simp_all
end

section
variable (s : State)

@[simp] theorem busError_eq : busError s = s.respond .error 0#32 := rfl
@[simp] theorem resetStep_cfg : (resetStep s).cfg = s.cfg := rfl
@[simp] theorem resetStep_regs : (resetStep s).regs = Regs.reset := rfl
@[simp] theorem resetStep_mem : (resetStep s).mem = Memory.reset := rfl
@[simp] theorem resetStep_eng : (resetStep s).eng = Engine.reset := rfl
@[simp] theorem resetStep_inputs : (resetStep s).inputs = s.inputs := rfl
@[simp] theorem resetStep_resp : (resetStep s).resp = none := rfl
end

/-! ### Transactions -/

/-- The next states under the lockout. -/
theorem lockout_next {s t : State} {idle : Outcome} (h : lockout s idle = .next t) :
    (s.busy = true ∧ t = (flagError .accessBusy s).okay) ∨ (s.busy = false ∧ idle = .next t) := by
  unfold lockout at h
  split at h
  · rename_i hb
    injection h with h
    exact .inl ⟨hb, h.symm⟩
  · rename_i hb
    exact .inr ⟨by simpa using hb, h⟩

/-- The next states of a window transaction. -/
theorem windowAccess_next {sp : Space} {i : Index} {s t : State} {idle : Outcome}
    (h : windowAccess sp i s idle = .next t) :
    (s.cfg.capacity sp ≤ i.toNat ∧ t = busError s) ∨
      (i.toNat < s.cfg.capacity sp ∧ s.busy = true ∧ t = (flagError .accessBusy s).okay) ∨
        (i.toNat < s.cfg.capacity sp ∧ s.busy = false ∧ idle = .next t) := by
  unfold windowAccess at h
  split at h
  · rename_i hm
    exact .inr ((lockout_next h).imp (fun h => ⟨hm, h⟩) fun h => ⟨hm, h⟩)
  · rename_i hm
    injection h with h
    exact .inl ⟨Nat.not_lt.1 hm, h.symm⟩

/-- The next states of a window read. -/
theorem windowRead_next {sp : Space} {i : Index} {s t : State} (h : windowRead sp i s = .next t) :
    (s.cfg.capacity sp ≤ i.toNat ∧ t = busError s) ∨
      (i.toNat < s.cfg.capacity sp ∧ s.busy = true ∧ t = (flagError .accessBusy s).okay) ∨
        (i.toNat < s.cfg.capacity sp ∧ s.busy = false ∧
          ∃ v, s.byteAt sp i.toNat = some v ∧ t = s.respond .okay (zext32 v)) := by
  refine (windowAccess_next h).imp_right (Or.imp_right fun ⟨hm, hb, hi⟩ => ⟨hm, hb, ?_⟩)
  split at hi
  · rename_i v hv
    injection hi with hi
    exact ⟨v, (memRead_ok.1 hv).2, hi.symm⟩
  · cases hi

/-- The next states of a write to a window the host may write. -/
theorem windowWrite_next {sp : Space} {i : Index} {d : Word} {s t : State} (h : windowWrite sp i d s = .next t) :
    (s.cfg.capacity sp ≤ i.toNat ∧ t = busError s) ∨
      (i.toNat < s.cfg.capacity sp ∧ s.busy = true ∧ t = (flagError .accessBusy s).okay) ∨
        (i.toNat < s.cfg.capacity sp ∧ s.busy = false ∧ t = (s.putByte sp i.toNat (dataByte d)).okay) := by
  refine (windowAccess_next h).imp_right (Or.imp_right fun ⟨hm, hb, hi⟩ => ⟨hm, hb, ?_⟩)
  split at hi
  · rename_i s' hs
    injection hi with hi
    rw [← hi, (memWrite_ok.1 hs).2]
  · cases hi

/-- The next states of a command write: refused with one error, or started (R172). -/
theorem writeCommand_next {v : Option Command} {s t : State} (h : writeCommand v s = .next t) :
    (∃ e, t = (flagError e s).okay) ∨
      ∃ cmd, v = some cmd ∧ s.busy = false ∧ s.regs.len.toNat ≤ s.cfg.bufMax ∧
        s.regs.keylen.toNat ≤ s.cfg.keyMax ∧ t = (startOp cmd s).okay := by
  unfold writeCommand at h
  split at h
  · injection h with h
    exact .inl ⟨_, h.symm⟩
  · rename_i hb
    split at h
    · injection h with h
      exact .inl ⟨_, h.symm⟩
    · rename_i cmd
      split at h
      · injection h with h
        exact .inl ⟨_, h.symm⟩
      · rename_i hl
        split at h
        · injection h with h
          exact .inl ⟨_, h.symm⟩
        · rename_i hk
          injection h with h
          exact .inr ⟨cmd, rfl, by simpa using hb, Nat.not_lt.1 hl, Nat.not_lt.1 hk, h.symm⟩

/-- A command write always answers a next state. -/
theorem writeCommand_total (v : Option Command) (s : State) : ∃ t, writeCommand v s = .next t := by
  unfold writeCommand
  split
  · exact ⟨_, rfl⟩
  · split
    · exact ⟨_, rfl⟩
    · split
      · exact ⟨_, rfl⟩
      · split <;> exact ⟨_, rfl⟩

/-! ### Micro-steps -/

/-- FETCH succeeds exactly when the bytes of the block are mapped and defined. -/
theorem fetchBlock_ok {s : State} {b : Block} :
    fetchBlock s = .ok b ↔
      (s.eng.mode = .nibble ∧ ∃ x, memRead s .ibuf s.eng.bi.toNat = .ok x ∧ b = .nibble x) ∨
        (s.eng.mode = .byte ∧ ∃ x0 x1, memRead s .ibuf (2 * s.eng.bi.toNat) = .ok x0 ∧
          memRead s .ibuf (2 * s.eng.bi.toNat + 1) = .ok x1 ∧ b = .byte x0 x1) := by
  unfold fetchBlock
  cases s.eng.mode with
  | byte =>
    cases h0 : memRead s .ibuf (2 * s.eng.bi.toNat) with
    | error f => simp
    | ok x0 => cases h1 : memRead s .ibuf (2 * s.eng.bi.toNat + 1) <;> simp [eq_comm]
  | nibble => cases h0 : memRead s .ibuf s.eng.bi.toNat <;> simp [eq_comm]

/-- FETCH stops only where one of its reads stops. -/
theorem fetchBlock_error {s : State} {f : Fault} (h : fetchBlock s = .error f) :
    ∃ i, memRead s .ibuf i = .error f ∧
      (i = blockSize s.eng.mode * s.eng.bi.toNat ∨
        (s.eng.mode = .byte ∧ i = blockSize s.eng.mode * s.eng.bi.toNat + 1)) := by
  unfold fetchBlock at h
  cases hm : s.eng.mode with
  | byte =>
    simp only [hm] at h
    split at h
    · rename_i g hg
      cases h
      exact ⟨_, hg, .inl rfl⟩
    · split at h
      · rename_i g hg
        cases h
        exact ⟨_, hg, .inr ⟨rfl, rfl⟩⟩
      · cases h
  | nibble =>
    simp only [hm] at h
    split at h
    · rename_i g hg
      cases h
      exact ⟨_, hg, .inl (by simp [blockSize])⟩
    · cases h

/-- The next states of FETCH (R146). -/
theorem microFetch_next {s t : State} (h : microFetch s = .next t) :
    ∃ b, fetchBlock s = .ok b ∧
      t = s.setEngine
        { s.eng with
          l := (split b).l, r := (split b).r, rc := 0#13
          fsm := if s.eng.nk = 0#13 then .store else .round } := by
  unfold microFetch at h
  split at h
  · cases h
  · rename_i b hb
    injection h with h
    exact ⟨b, hb, h.symm⟩

/-- The next states of ROUND (R147). -/
theorem microRound_next {mul : Byte → Byte → Byte} {s t : State} (h : microRound mul s = .next t) :
    ∃ k, memRead s .key (keyAddr s.eng).toNat = .ok k ∧
      t = afterRound (mul s.eng.r k &&& halfMask s.eng.mode) s := by
  unfold microRound at h
  split at h
  · cases h
  · rename_i k hk
    injection h with h
    exact ⟨k, hk, h.symm⟩

/-- The next states of a multiplier's instruction. -/
theorem inRound_next {m : BlockMode} {mul : Byte → Byte → Byte} {s t : State} (h : inRound m s mul = .next t) :
    (s.eng.fsm = .round ∧ s.eng.mode = m ∧ ∃ k, memRead s .key (keyAddr s.eng).toNat = .ok k ∧
        t = afterRound (mul s.eng.r k &&& halfMask m) s) ∨
      (¬(s.eng.fsm = .round ∧ s.eng.mode = m) ∧ t = s) := by
  unfold inRound at h
  split at h
  · rename_i hc
    obtain ⟨k, hk, ht⟩ := microRound_next h
    exact .inl ⟨hc.1, hc.2, k, hk, hc.2 ▸ ht⟩
  · rename_i hc
    injection h with h
    exact .inr ⟨hc, h.symm⟩

section
variable (f : Byte) (s : State)

@[simp] theorem afterRound_cfg : (afterRound f s).cfg = s.cfg := rfl
@[simp] theorem afterRound_regs : (afterRound f s).regs = s.regs := rfl
@[simp] theorem afterRound_mem : (afterRound f s).mem = s.mem := rfl
@[simp] theorem afterRound_inputs : (afterRound f s).inputs = s.inputs := rfl
@[simp] theorem afterRound_resp : (afterRound f s).resp = s.resp := rfl
@[simp] theorem afterRound_eng : (afterRound f s).eng =
    { s.eng with
      l := s.eng.r, r := s.eng.l ^^^ f, rc := s.eng.rc + 1#13
      fsm := if s.eng.rc + 1#13 = s.eng.nk then .store else .round } := rfl
end

section
variable (c : Command) (s : State)

@[simp] theorem startOp_cfg : (startOp c s).cfg = s.cfg := rfl
@[simp] theorem startOp_mem : (startOp c s).mem = s.mem := rfl
@[simp] theorem startOp_inputs : (startOp c s).inputs = s.inputs := rfl
@[simp] theorem startOp_resp : (startOp c s).resp = s.resp := rfl
@[simp] theorem startOp_regs : (startOp c s).regs = { s.regs with done := false, outlen := 0#32 } := rfl
@[simp] theorem startOp_eng : (startOp c s).eng =
    { s.eng with
      dir := c.dir, mode := c.mode, nk := BitVec.ofNat 13 s.regs.keylen.toNat
      nb := BitVec.ofNat 13 (blockCount s c.mode), bi := 0#13
      fsm := if blockCount s c.mode = 0 then .finish else .fetch } := rfl
end

/-- What a run of byte writes leaves: only OBUF, and there only the bytes written. -/
theorem storeBytes_ok {vs : List Byte} {s t : State} {i : Nat} (h : storeBytes s i vs = .ok t) :
    t.cfg = s.cfg ∧ t.regs = s.regs ∧ t.eng = s.eng ∧ t.inputs = s.inputs ∧ t.resp = s.resp ∧
      t.mem.key = s.mem.key ∧ t.mem.ibuf = s.mem.ibuf ∧
        (∀ j, t.byteAt .obuf j = if i ≤ j ∧ j < i + vs.length then vs[j - i]? else s.byteAt .obuf j) := by
  induction vs generalizing s i with
  | nil =>
    simp only [storeBytes, Except.ok.injEq] at h
    subst h
    refine ⟨rfl, rfl, rfl, rfl, rfl, rfl, rfl, fun j => ?_⟩
    rw [if_neg (by simp only [List.length_nil]; omega)]
  | cons v vs ih =>
    simp only [storeBytes] at h
    split at h
    · cases h
    · rename_i s' hs
      obtain ⟨-, rfl⟩ := memWrite_ok.1 hs
      obtain ⟨hc, hr, he, hin, hre, hk, hib, hb⟩ := ih h
      refine ⟨hc, hr, he, hin, hre, hk, hib, fun j => ?_⟩
      rw [hb, byteAt_putByte]
      simp only [List.length_cons]
      rcases Nat.lt_trichotomy j i with hj | hj | hj
      · simp [show ¬(i + 1 ≤ j) by omega, show ¬(i ≤ j) by omega, show j ≠ i by omega]
      · subst hj
        simp
      · have h1 : j - i = (j - (i + 1)) + 1 := by omega
        by_cases hlt : j < i + 1 + vs.length
        · simp [show i + 1 ≤ j by omega, hlt, show i ≤ j by omega, show j < i + (vs.length + 1) by omega, h1]
        · simp [hlt, show ¬(j < i + (vs.length + 1)) by omega, show j ≠ i by omega]

/-- The writes of a store succeed exactly when every index is below the capacity. -/
theorem storeBytes_isOk {vs : List Byte} {s : State} {i : Nat} (h : i + vs.length ≤ s.cfg.bufMax) :
    ∃ t, storeBytes s i vs = .ok t := by
  induction vs generalizing s i with
  | nil => exact ⟨s, rfl⟩
  | cons v vs ih =>
    simp only [List.length_cons] at h
    have hw : memWrite s .obuf i v = .ok (s.putByte .obuf i v) := by
      rw [memWrite_ok]
      refine ⟨?_, rfl⟩
      show i < s.cfg.bufMax
      omega
    simp only [storeBytes, hw]
    exact ih (by show i + 1 + vs.length ≤ s.cfg.bufMax; omega)

/-- A run of byte writes stops only beyond the capacity. -/
theorem storeBytes_error {vs : List Byte} {s : State} {i : Nat} {f : Fault} (h : storeBytes s i vs = .error f) :
    s.cfg.bufMax < i + vs.length := by
  by_contra hc
  obtain ⟨t, ht⟩ := storeBytes_isOk (vs := vs) (s := s) (i := i) (by omega)
  rw [ht] at h
  cases h

/-- A run of byte writes keeps memory canonical and within the capacities. -/
theorem storeBytes_mem {vs : List Byte} {s t : State} {i : Nat} (h : storeBytes s i vs = .ok t) (hw : s.mem.wf)
    (hb : s.mem.within s.cfg) : t.mem.wf ∧ t.mem.within s.cfg := by
  induction vs generalizing s i with
  | nil =>
    simp only [storeBytes, Except.ok.injEq] at h
    exact h ▸ ⟨hw, hb⟩
  | cons v vs ih =>
    simp only [storeBytes] at h
    split at h
    · cases h
    · rename_i s' hs
      obtain ⟨hlt, rfl⟩ := memWrite_ok.1 hs
      exact ih (s := s.putByte .obuf i v) h (putByte_wf hw _ _ _) (putByte_within hb hlt _)

/-- The next states of STORE (R148). -/
theorem microStore_next {s t : State} (h : microStore s = .next t) :
    ∃ s', storeBytes s (storeIndex s.eng) (blockBytes (storeBlock s.eng)) = .ok s' ∧
      t = s'.setEngine
        { s.eng with
          bi := s.eng.bi + 1#13
          fsm := if s.eng.bi + 1#13 = s.eng.nb then .finish else .fetch } := by
  unfold microStore at h
  split at h
  · cases h
  · rename_i s' hs
    injection h with h
    exact ⟨s', hs, h.symm⟩

end Sys2Proof.Machine
end

