-- ==== Sys2Proof/Laws/PerInstr.lean ====
section
/-! SUPPORT. Statements made per instruction: the encoder writes each instruction's words inside its own row of
spec/opcode_table.json (the row's mask and match). -/

namespace Sys2Proof.Laws.RowMatches

/-- The bits of an encoded instruction that the table numbers. -/
def tableBits : Encoded → Nat
  | .bus17 desc _ => desc.toNat
  | .cmd32 w => w.toNat
  | .mulsel sel => sel.toNat

/-- The mask and match of each row of spec/opcode_table.json. -/
def row : Instr → Nat × Nat
  | .encrypt _ => (0xFFFFFFFB, 0x1)
  | .decrypt _ => (0xFFFFFFFB, 0x2)
  | .gfmul4 => (0x1, 0x0)
  | .gfmul8 => (0x1, 0x1)
  | .wrCmd _ => (0x1FFFF, 0x18000)
  | .rdCmd => (0x1FFFF, 0x8000)
  | .wrStatus _ => (0x1FFFF, 0x18004)
  | .rdStatus => (0x1FFFF, 0x8004)
  | .wrLen _ => (0x1FFFF, 0x18008)
  | .rdLen => (0x1FFFF, 0x8008)
  | .wrKeylen _ => (0x1FFFF, 0x1800C)
  | .rdKeylen => (0x1FFFF, 0x800C)
  | .wrOutlen _ => (0x1FFFF, 0x18010)
  | .rdOutlen => (0x1FFFF, 0x8010)
  | .wrbKey _ _ => (0x1F000, 0x11000)
  | .rdbKey _ => (0x1F000, 0x1000)
  | .wrbIbuf _ _ => (0x1F000, 0x12000)
  | .rdbIbuf _ => (0x1F000, 0x2000)
  | .wrbObuf _ _ => (0x1F000, 0x13000)
  | .rdbObuf _ => (0x1F000, 0x3000)

/-- The words of an instruction, masked by its row's mask, are its row's match. -/
def Statement (i : Instr) : Prop := tableBits (encode i) &&& (row i).1 = (row i).2

/-- A window row fixes the five bits above the index. -/
theorem window_masked (f : BitVec 5) (i : Index) :
    (windowDesc f i).toNat &&& 0x1F000 = f.toNat * 0x1000 := by
  have h : (windowDesc f i).toNat = f.toNat <<< 12 ||| i.toNat := BitVec.toNat_append f i
  have hm : (0x1F000 : Nat) = (2 ^ 5 - 1) <<< 12 := rfl
  have hi := i.isLt
  have hf := f.isLt
  rw [h, hm]
  apply Nat.eq_of_testBit_eq
  intro k
  rw [show f.toNat * 0x1000 = f.toNat <<< 12 from (Nat.shiftLeft_eq _ 12).symm]
  simp only [Nat.testBit_and, Nat.testBit_or, Nat.testBit_shiftLeft, Nat.testBit_two_pow_sub_one]
  by_cases hk : 12 ≤ k
  · have h1 : i.toNat.testBit k = false :=
      Nat.testBit_lt_two_pow (lt_of_lt_of_le hi (Nat.pow_le_pow_right (by omega) hk))
    by_cases h5 : k - 12 < 5
    · simp [hk, h1, h5]
    · have h2 : f.toNat.testBit (k - 12) = false :=
        Nat.testBit_lt_two_pow (lt_of_lt_of_le hf (Nat.pow_le_pow_right (by omega) (by omega)))
      simp [h1, h2]
  · simp [hk]

/-- A window row's words, masked, are the row's match. -/
theorem window_row (f : BitVec 5) (v : Nat) (i : Index) (h : f.toNat * 0x1000 = v) :
    (windowDesc f i).toNat &&& 0x1F000 = v := (window_masked f i).trans h

/-- The table bits of the words with a fixed descriptor or a mode. -/
theorem fixed_rows :
    ((0x18000#17).toNat &&& 0x1FFFF = 0x18000 ∧ (0x18004#17).toNat &&& 0x1FFFF = 0x18004 ∧
      (0x18008#17).toNat &&& 0x1FFFF = 0x18008 ∧ (0x1800C#17).toNat &&& 0x1FFFF = 0x1800C ∧
      (0x18010#17).toNat &&& 0x1FFFF = 0x18010) ∧
    ((commandWord 0b01#2 .nibble).toNat &&& 0xFFFFFFFB = 0x1 ∧ (commandWord 0b01#2 .byte).toNat &&& 0xFFFFFFFB = 0x1 ∧
      (commandWord 0b10#2 .nibble).toNat &&& 0xFFFFFFFB = 0x2 ∧ (commandWord 0b10#2 .byte).toNat &&& 0xFFFFFFFB = 0x2) := by
  decide

theorem encrypt : (m : BlockMode) → Statement (.encrypt m)
  | .nibble => fixed_rows.2.1
  | .byte => fixed_rows.2.2.1
theorem decrypt : (m : BlockMode) → Statement (.decrypt m)
  | .nibble => fixed_rows.2.2.2.1
  | .byte => fixed_rows.2.2.2.2
theorem gfmul4 : Statement .gfmul4 := Nat.eq_of_beq_eq_true rfl
theorem gfmul8 : Statement .gfmul8 := Nat.eq_of_beq_eq_true rfl
theorem wrCmd (d : Word) : Statement (.wrCmd d) := fixed_rows.1.1
theorem rdCmd : Statement .rdCmd := Nat.eq_of_beq_eq_true rfl
theorem wrStatus (d : Word) : Statement (.wrStatus d) := fixed_rows.1.2.1
theorem rdStatus : Statement .rdStatus := Nat.eq_of_beq_eq_true rfl
theorem wrLen (d : Word) : Statement (.wrLen d) := fixed_rows.1.2.2.1
theorem rdLen : Statement .rdLen := Nat.eq_of_beq_eq_true rfl
theorem wrKeylen (d : Word) : Statement (.wrKeylen d) := fixed_rows.1.2.2.2.1
theorem rdKeylen : Statement .rdKeylen := Nat.eq_of_beq_eq_true rfl
theorem wrOutlen (d : Word) : Statement (.wrOutlen d) := fixed_rows.1.2.2.2.2
theorem rdOutlen : Statement .rdOutlen := Nat.eq_of_beq_eq_true rfl
theorem wrbKey (i : Index) (d : Word) : Statement (.wrbKey i d) := window_row 0b10001#5 0x11000 i (Nat.eq_of_beq_eq_true rfl)
theorem rdbKey (i : Index) : Statement (.rdbKey i) := window_row 0b00001#5 0x1000 i (Nat.eq_of_beq_eq_true rfl)
theorem wrbIbuf (i : Index) (d : Word) : Statement (.wrbIbuf i d) := window_row 0b10010#5 0x12000 i (Nat.eq_of_beq_eq_true rfl)
theorem rdbIbuf (i : Index) : Statement (.rdbIbuf i) := window_row 0b00010#5 0x2000 i (Nat.eq_of_beq_eq_true rfl)
theorem wrbObuf (i : Index) (d : Word) : Statement (.wrbObuf i d) := window_row 0b10011#5 0x13000 i (Nat.eq_of_beq_eq_true rfl)
theorem rdbObuf (i : Index) : Statement (.rdbObuf i) := window_row 0b00011#5 0x3000 i (Nat.eq_of_beq_eq_true rfl)

end Sys2Proof.Laws.RowMatches
end

