-- ==== Sys2Proof/Laws/Step.lean ====
section
/-! SUPPORT. What one step can do, by the entry of the interleaving it takes, and runs of steps. -/

namespace Sys2Proof.Machine

/-- The step takes an engine turn when nothing more is asked of the machine. -/
theorem step_nil {s : State} (h : s.inputs = []) : step s = engineTurn s := by
  simp [step, nextTurn, h]

/-- The step takes the oldest entry of the interleaving. -/
theorem step_cons {s : State} {inp : Input} {rest : List Input} (h : s.inputs = inp :: rest) :
    step s = turn inp (s.setInputs rest) := by
  simp [step, nextTurn, h]

/-- Every step is one agent's turn on the state without the entry it takes. -/
theorem step_cases (s : State) :
    (s.inputs = [] ∧ step s = engineTurn s) ∨
      (∃ rest, s.inputs = .engine :: rest ∧ step s = engineTurn (s.setInputs rest)) ∨
        (∃ rest, s.inputs = .reset :: rest ∧ step s = .next (resetStep (s.setInputs rest))) ∨
          ∃ d w rest, s.inputs = .bus d w :: rest ∧ step s = hostTurn d w (s.setInputs rest) := by
  cases h : s.inputs with
  | nil => exact .inl ⟨rfl, step_nil h⟩
  | cons inp rest =>
    cases inp with
    | bus d w => exact .inr (.inr (.inr ⟨d, w, rest, rfl, step_cons h⟩))
    | engine => exact .inr (.inl ⟨rest, rfl, step_cons h⟩)
    | reset => exact .inr (.inr (.inl ⟨rest, rfl, step_cons h⟩))

/-- The multiplier instruction of a mode is the one ROUND runs (R89). -/
@[simp] theorem decodeMulsel_nibble : decodeMulsel (mulselOf .nibble) = .gfmul4 := rfl

/-- The multiplier instruction of a mode is the one ROUND runs (R89). -/
@[simp] theorem decodeMulsel_byte : decodeMulsel (mulselOf .byte) = .gfmul8 := rfl

/-- In ROUND the engine's turn is the ROUND micro-step with F's multiplier (R89, R120, R147). -/
theorem engineTurn_round {s : State} (h : s.eng.fsm = .round) :
    engineTurn s = microRound (fun a b => roundFn a b s.eng.mode) s := by
  cases hm : s.eng.mode <;>
    simp [engineTurn, h, hm, exec, execGfmul4, execGfmul8, inRound, roundFn]

/-- The masked diffusion value of a ROUND is that of the functional round (R131, R147). -/
theorem afterRound_halves (k : Byte) (s : State) :
    let t := afterRound (roundFn s.eng.r k s.eng.mode &&& halfMask s.eng.mode) s
    ({ l := t.eng.l, r := t.eng.r } : Halves) = feistelRound s.eng.mode k { l := s.eng.l, r := s.eng.r } := rfl

/-- What a host transaction can do: answer only, record an error, or one of the writes, each only while idle but for
the STATUS write; or start a command. -/
theorem hostTurn_next {d : Descriptor} {w : Word} {s t : State} (h : hostTurn d w s = .next t) :
    (∃ r v, t = s.respond r v) ∨ (∃ e, t = (flagError e s).okay) ∨
    (decodeBus s.cfg d w = .ok (.wrStatus w) ∧ t = (clearErr w (clearDone w s)).okay) ∨
    (s.busy = false ∧ t = (s.setLen w).okay) ∨
    (s.busy = false ∧ t = (s.setKeylen w).okay) ∨
    (∃ sp n, s.busy = false ∧ n.toNat < s.cfg.capacity sp ∧ t = (s.putByte sp n.toNat (dataByte w)).okay ∧
      ((sp = .key ∧ decodeBus s.cfg d w = .ok (.wrbKey n w)) ∨ (sp = .ibuf ∧ decodeBus s.cfg d w = .ok (.wrbIbuf n w)))) ∨
    (∃ cmd, decodeBus s.cfg d w = .ok (.wrCmd w) ∧ decodeCmd w = .ok cmd ∧ Accepts s ∧ t = (startOp cmd s).okay) := by
  unfold hostTurn at h
  split at h
  · rename_i i hi
    have hform : ∃ k tg, i = targetInstr k w tg := by
      unfold decodeBus at hi
      cases hb : busTarget s.cfg (Descriptor.wc d) (Descriptor.off d) with
      | error r => simp [hb, Except.map] at hi
      | ok tg => simp [hb, Except.map] at hi; exact ⟨_, _, hi.symm⟩
    obtain ⟨k, tg, rfl⟩ := hform
    have key : ∀ sp n, windowRead sp n s = .next t → (∃ r v, t = s.respond r v) ∨ (∃ e, t = (flagError e s).okay) := by
      intro sp n h
      rcases windowRead_next h with ⟨_, h⟩ | ⟨_, _, h⟩ | ⟨_, _, v, _, h⟩
      · exact .inl ⟨_, _, h⟩
      · exact .inr ⟨_, h⟩
      · exact .inl ⟨_, _, h⟩
    rcases tg with (_|_|_|_|_) | ⟨(_|_|_), n⟩ <;> cases k <;> simp only [targetInstr, exec, if_true, if_false, Bool.false_eq_true] at h hi
    · injection h with h; exact .inl ⟨_, _, h.symm⟩
    · rcases writeCommand_next h with ⟨e, h⟩ | ⟨cmd, hc, h1, h2, h3, h⟩
      · exact .inr (.inl ⟨e, h⟩)
      · refine .inr (.inr (.inr (.inr (.inr (.inr ⟨cmd, hi, ?_, ⟨h1, h2, h3⟩, h⟩)))))
        cases hd : decodeCmd w <;> simp_all [Except.toOption]
    · injection h with h; exact .inl ⟨_, _, h.symm⟩
    · injection h with h; exact .inr (.inr (.inl ⟨hi, h.symm⟩))
    · injection h with h; exact .inl ⟨_, _, h.symm⟩
    · rcases lockout_next h with ⟨_, h⟩ | ⟨hb, h⟩
      · exact .inr (.inl ⟨_, h⟩)
      · injection h with h; exact .inr (.inr (.inr (.inl ⟨hb, h.symm⟩)))
    · injection h with h; exact .inl ⟨_, _, h.symm⟩
    · rcases lockout_next h with ⟨_, h⟩ | ⟨hb, h⟩
      · exact .inr (.inl ⟨_, h⟩)
      · injection h with h; exact .inr (.inr (.inr (.inr (.inl ⟨hb, h.symm⟩))))
    · injection h with h; exact .inl ⟨_, _, h.symm⟩
    · injection h with h; exact .inl ⟨_, _, h.symm⟩
    · exact (key _ _ h).imp_right .inl
    · rcases windowWrite_next h with ⟨_, h⟩ | ⟨_, _, h⟩ | ⟨h1, h2, h⟩
      · exact .inl ⟨_, _, h⟩
      · exact .inr (.inl ⟨_, h⟩)
      · exact .inr (.inr (.inr (.inr (.inr (.inl ⟨.key, n, h2, h1, h, .inl ⟨rfl, hi⟩⟩)))))
    · exact (key _ _ h).imp_right .inl
    · rcases windowWrite_next h with ⟨_, h⟩ | ⟨_, _, h⟩ | ⟨h1, h2, h⟩
      · exact .inl ⟨_, _, h⟩
      · exact .inr (.inl ⟨_, h⟩)
      · exact .inr (.inr (.inr (.inr (.inr (.inl ⟨.ibuf, n, h2, h1, h, .inr ⟨rfl, hi⟩⟩)))))
    · exact (key _ _ h).imp_right .inl
    · rcases windowAccess_next h with ⟨_, h⟩ | ⟨_, _, h⟩ | ⟨_, _, h⟩
      · exact .inl ⟨_, _, h⟩
      · exact .inr (.inl ⟨_, h⟩)
      · injection h with h; exact .inl ⟨_, _, h.symm⟩
  · injection h with h; exact .inl ⟨_, _, h.symm⟩

/-- A run of more steps is a run of the rest from the next state. -/
theorem runSteps_succ {n : Nat} {s t : State} (h : step s = .next t) : runSteps (n + 1) s = runSteps n t := by
  simp [runSteps, h]

/-- A run in two parts. -/
theorem runSteps_add {m n : Nat} {s t : State} (h : runSteps m s = .next t) : runSteps (m + n) s = runSteps n t := by
  induction m generalizing s with
  | zero =>
    simp only [runSteps] at h
    injection h with h
    simp [h]
  | succ m ih =>
    rw [Nat.succ_add]
    simp only [runSteps] at h ⊢
    cases hs : step s with
    | next u => simp only [hs] at h ⊢; exact ih h
    | fault f => simp [hs] at h
    | refused r => simp [hs] at h

/-- One more step adds one engine turn where it is the engine's. -/
theorem engineTurns_succ {n : Nat} {s t : State} (h : step s = .next t) :
    engineTurns (n + 1) s = (if EngineMoves s then 1 else 0) + engineTurns n t := by
  simp [engineTurns, h]

/-- What one step of host and core can do: nothing, for a host that is done; or one turn of the core, after which the
host's lines are the same but for its own turn. -/
theorem agentStep_next {a : Agent} {b b' : HostedCore} (h : agentStep a b = .next b') :
    (a = .host ∧ b.program = [] ∧ b' = b) ∨
    (∃ op rest t, a = .host ∧ b.program = op :: rest ∧ turn (opInput op) b.core = .next t ∧
      b' = { program := afterOp op rest t, core := t }) ∨
    (∃ t, a ≠ .host ∧ turn (if a = .engine then .engine else .reset) b.core = .next t ∧
      b' = { program := b.program, core := t }) := by
  have key : ∀ {left : State → List HostOp} {o : Outcome}, withProgram left o = .next b' →
      ∃ t, o = .next t ∧ b' = { program := left t, core := t } := by
    intro left o h
    cases o with
    | next t => injection h with h; exact ⟨t, rfl, h.symm⟩
    | fault f => cases h
    | refused r => cases h
  cases a with
  | host =>
    simp only [agentStep] at h
    split at h
    · rename_i hp
      injection h with h
      exact .inl ⟨rfl, hp, h.symm⟩
    · rename_i op rest hp
      obtain ⟨t, ht, hb⟩ := key h
      exact .inr (.inl ⟨op, rest, t, rfl, hp, ht, hb⟩)
  | engine =>
    obtain ⟨t, ht, hb⟩ := key (left := fun _ => b.program) (o := turn .engine b.core) h
    exact .inr (.inr ⟨t, by decide, ht, hb⟩)
  | reset =>
    obtain ⟨t, ht, hb⟩ := key (left := fun _ => b.program) (o := turn .reset b.core) h
    exact .inr (.inr ⟨t, by decide, ht, hb⟩)

/-- A run of the agents is the run of the rest from the next state. -/
theorem runAgents_cons {a : Agent} {more : List Agent} {b b' : HostedCore} (h : agentStep a b = .next b') :
    runAgents (a :: more) b = runAgents more b' := by
  simp [runAgents, h]

end Sys2Proof.Machine
end

