-- ==== Sys2Proof/Tests/Slice0.lean ====
section
/-! SUPPORT. Small tests, each on one step or one function, with results from spec/95_test_vectors.md and the rules;
and a witness for the hypotheses of each statement. -/

namespace Sys2Proof.Tests

open Sys2Proof Sys2Proof.Machine

/-! ### Helpers -/

/-- The next state of an outcome. -/
def nextOf : Outcome → Option State
  | .next s => some s
  | _ => none

/-- The fault of an outcome. -/
def faultOf : Outcome → Option Fault
  | .fault f => some f
  | _ => none

/-- An idle core with lengths and stores. -/
def idleWith (len keylen : Word) (mem : Memory) : State :=
  { State.reset with regs := { Regs.reset with len := len, keylen := keylen }, mem := mem }

/-- Scenario A's stores (95 §1.1). -/
def memA : Memory := { key := [(0, 0x41#8)], ibuf := [(0, 0x23#8), (1, 0x34#8)], obuf := [] }

/-- Scenario A before its command. -/
def idleA : State := idleWith 1#32 1#32 memA

/-- A core in the middle of block 0 of 1, before round 0 of 1, with halves 2 and 3. -/
def runningA (f : Fsm) (m : BlockMode) : State :=
  { idleA with
    eng := { fsm := f, dir := .enc, mode := m, nk := 1#13, nb := 1#13, bi := 0#13, rc := 0#13, l := 2#8, r := 3#8 } }

/-- The STATUS word after an outcome. -/
def statusAfter (o : Outcome) : Option Word := (nextOf o).map statusWord

/-! ### WellFormed: an ill-formed term for each check -/

theorem test_wf_key_index : (Instr.wrbKey 256#12 0#32).wellFormed Config.default = false ∧
    (Instr.rdbKey 256#12).wellFormed Config.default = false ∧
    (Instr.wrbKey 255#12 0#32).wellFormed Config.default = true := by decide

theorem test_wf_buf_index :
    let c : Config := { keyMax := 1, bufMax := 2, base := 0 }
    (Instr.wrbIbuf 2#12 0#32).wellFormed c = false ∧ (Instr.rdbIbuf 2#12).wellFormed c = false ∧
    (Instr.wrbObuf 2#12 0#32).wellFormed c = false ∧ (Instr.rdbObuf 2#12).wellFormed c = false := by decide

/-! ### Decoding, words written out from R84, R89, R92 and R172 to R187 -/

theorem test_decode_commands :
    decode Config.default (.cmd32 0b00000000000000000000000000000001#32) = .ok (.encrypt .nibble) ∧
    decode Config.default (.cmd32 0b00000000000000000000000000000101#32) = .ok (.encrypt .byte) ∧
    decode Config.default (.cmd32 0b00000000000000000000000000000010#32) = .ok (.decrypt .nibble) ∧
    decode Config.default (.cmd32 0b00000000000000000000000000000110#32) = .ok (.decrypt .byte) ∧
    decode Config.default (.cmd32 0b10000000000000000000000000000001#32) = .error .reservedCommandBits := by decide

theorem test_decode_mulsel : decode Config.default (.mulsel 0b0#1) = .ok .gfmul4 ∧
    decode Config.default (.mulsel 0b1#1) = .ok .gfmul8 := by decide

theorem test_decode_register_writes :
    decodeBus Config.default 0b11000000000000000#17 7#32 = .ok (.wrCmd 7#32) ∧
    decodeBus Config.default 0b11000000000000100#17 7#32 = .ok (.wrStatus 7#32) ∧
    decodeBus Config.default 0b11000000000001000#17 7#32 = .ok (.wrLen 7#32) ∧
    decodeBus Config.default 0b11000000000001100#17 7#32 = .ok (.wrKeylen 7#32) ∧
    decodeBus Config.default 0b11000000000010000#17 7#32 = .ok (.wrOutlen 7#32) := by decide

theorem test_decode_register_reads :
    decodeBus Config.default 0b01000000000000000#17 0#32 = .ok .rdCmd ∧
    decodeBus Config.default 0b01000000000000100#17 0#32 = .ok .rdStatus ∧
    decodeBus Config.default 0b01000000000001000#17 0#32 = .ok .rdLen ∧
    decodeBus Config.default 0b01000000000001100#17 0#32 = .ok .rdKeylen ∧
    decodeBus Config.default 0b01000000000010000#17 0#32 = .ok .rdOutlen := by decide

theorem test_decode_windows :
    decodeBus Config.default 0b10001000011111111#17 1#32 = .ok (.wrbKey 255#12 1#32) ∧
    decodeBus Config.default 0b00001000000000010#17 0#32 = .ok (.rdbKey 2#12) ∧
    decodeBus Config.default 0b10010111111111111#17 1#32 = .ok (.wrbIbuf 4095#12 1#32) ∧
    decodeBus Config.default 0b00010000000000100#17 0#32 = .ok (.rdbIbuf 4#12) ∧
    decodeBus Config.default 0b10011000000000000#17 1#32 = .ok (.wrbObuf 0#12 1#32) ∧
    decodeBus Config.default 0b00011000000000011#17 0#32 = .ok (.rdbObuf 3#12) := by decide

/-- Each named rejection (95 §2.7, rows H7, H6, H10 to H14). -/
theorem test_decode_rejections :
    decodeCmd 0x9#32 = .error .reservedCommandBits ∧ decodeCmd 0x3#32 = .error .reservedOperation ∧
    decodeCmd 0x0#32 = .error .reservedOperation ∧
    decodeBus Config.default 0x08014#17 0#32 = .error .unmappedOffset ∧
    decodeBus Config.default 0x04004#17 0#32 = .error .badRegisterAccess ∧
    decodeBus Config.default 0x08006#17 0#32 = .error .badRegisterAccess ∧
    decodeBus Config.default 0x0A000#17 0#32 = .error .badWindowWidth ∧
    decodeBus Config.default 0x01100#17 0#32 = .error .indexBeyondCapacity ∧
    decodeBus Config.default 0x1C004#17 0#32 = .error .reservedWidthCode := by decide

theorem test_decode_table_words :
    decodeTableWord 32 0x5 = some (.encrypt .byte) ∧ decodeTableWord 32 0x0 = none ∧
    decodeTableWord 24 0x18008 = some (.wrLen 0#32) ∧ decodeTableWord 17 0x3000 = some (.rdbObuf 0#12) ∧
    decodeTableWord 8 1 = some .gfmul8 ∧ decodeTableWord 1 0 = some .gfmul4 := by decide

/-! ### The multipliers and the functional level (95 §2.1 to §2.6) -/

theorem test_gfmul4 : gfmul4 3#8 1#8 = 3#8 ∧ gfmul4 8#8 2#8 = 3#8 ∧ gfmul4 0x0F#8 0x0F#8 = 0x0A#8 ∧
    gfmul4 0x13#8 0x05#8 = 0x0F#8 ∧ gfmul4 0x09#8 0x0E#8 = 0x07#8 := by decide

theorem test_gfmul8 : gfmul8 0x57#8 0x83#8 = 0xC1#8 ∧ gfmul8 0x02#8 0x80#8 = 0x1B#8 ∧
    gfmul8 0xFF#8 0xFF#8 = 0x13#8 ∧ gfmul8 0xB4#8 0x21#8 = 0xC5#8 ∧ gfmul8 0x80#8 0x80#8 = 0x9A#8 := by decide

theorem test_round_fn : roundFn 0x0C#8 0x4B#8 .nibble = 0x0D#8 ∧ roundFn 0x34#8 0x4B#8 .byte = 0x48#8 := by decide

theorem test_split_join : split (.nibble 0x5A#8) = { l := 0x05#8, r := 0x0A#8 } ∧
    join .nibble { l := 0x05#8, r := 0x0A#8 } = .nibble 0xA5#8 ∧
    join .byte { l := 0x12#8, r := 0x34#8 } = .byte 0x34#8 0x12#8 := by decide

/-- Key "Key" in ByteMode, both directions (95 §2.5). -/
theorem test_xbuf_byte :
    xbuf .enc .byte [0x4B#8, 0x65#8, 0x79#8] [0x12#8, 0x34#8] = [0xAC#8, 0xD9#8] ∧
    xbuf .dec .byte [0x4B#8, 0x65#8, 0x79#8] [0xAC#8, 0xD9#8] = [0x12#8, 0x34#8] := by decide

/-- Several NibbleMode blocks, and a dropped trailing byte (95 §2.5, §2.6). -/
theorem test_xbuf_blocks :
    xbuf .enc .nibble [0x07#8, 0x0C#8] [0x00#8, 0xFF#8, 0x5A#8] = [0x00#8, 0xA4#8, 0x46#8] ∧
    xbuf .enc .byte [0x41#8, 0x62#8] [1#8, 2#8, 3#8, 4#8, 5#8] = [0x59#8, 0x83#8, 0xD0#8, 0x1C#8] := by decide

/-! ### Transactions (95 §2.7) -/

theorem test_h3_wr_len : (nextOf (exec (.wrLen 0xFFFFFFFF#32) State.reset)).map (·.regs.len) = some 0xFFFFFFFF#32 := by
  decide

theorem test_h4_len_range : statusAfter (exec (.encrypt .byte) (idleWith 0xFFFFFFFF#32 0#32 Memory.reset)) =
    some 0x34#32 := by decide

theorem test_h5_wr_status : statusAfter (exec (.wrStatus 4#32) (flagError .lenRange State.reset)) = some 0#32 := by
  decide

theorem test_h6_illegal : statusAfter (exec (.wrCmd 3#32) State.reset) = some 0x14#32 := by decide

theorem test_h8_keylen_range : statusAfter (exec (.decrypt .nibble) (idleWith 0#32 257#32 Memory.reset)) =
    some 0x44#32 := by decide

theorem test_h9_len_before_keylen : statusAfter (exec (.encrypt .nibble) (idleWith 5000#32 300#32 Memory.reset)) =
    some 0x34#32 := by decide

theorem test_h10_bus_error : (nextOf (hostTurn 0x08014#17 0#32 State.reset)).map (fun t => (t.resp, statusWord t)) =
    some (some { resp := .error, rdata := 0#32 }, 0#32) := by decide

theorem test_h15_access_busy : statusAfter (exec (.wrbIbuf 0#12 1#32) (runningA .round .nibble)) = some 0x55#32 ∧
    (nextOf (exec (.wrbIbuf 0#12 1#32) (runningA .round .nibble))).map (·.mem) = some memA := by decide

theorem test_h16_cmd_busy : statusAfter (exec (.encrypt .nibble) (runningA .fetch .nibble)) = some 0x25#32 := by decide

theorem test_h17_rdb_busy : (nextOf (exec (.rdbObuf 0#12) (runningA .fetch .nibble))).map (·.resp) =
    some (some { resp := .okay, rdata := 0#32 }) := by decide

theorem test_h18_wr_status_busy :
    statusAfter (exec (.wrStatus 6#32) (flagError .cmdBusy (runningA .fetch .nibble))) = some 1#32 := by decide

theorem test_h19_wr_outlen : (nextOf (exec (.wrOutlen 7#32) idleA)).map (·.regs.outlen) = some 0#32 := by decide

theorem test_h20_wrb_obuf : (nextOf (exec (.wrbObuf 0#12 0xFF#32) idleA)).map (·.mem) = some memA := by decide

theorem test_h21_wrb_key : (nextOf (exec (.wrbKey 0#12 0x141#32) State.reset)).map (·.mem.key) =
    some [(0, 0x41#8)] := by decide

theorem test_h22_undefined : faultOf (exec (.rdbObuf 0#12) State.reset) = some (.undefinedByte .obuf 0) := by decide

theorem test_first_error_kept : statusAfter (exec (.wrCmd 7#32) (flagError .lenRange State.reset)) = some 0x34#32 := by
  decide

/-- Reads answer the register or the byte, zero-extended. -/
theorem test_reads : (nextOf (exec (.rdbKey 0#12) idleA)).map (·.resp) = some (some { resp := .okay, rdata := 0x41#32 }) ∧
    (nextOf (exec (.rdbIbuf 1#12) idleA)).map (·.resp) = some (some { resp := .okay, rdata := 0x34#32 }) ∧
    (nextOf (exec .rdLen idleA)).map (·.resp) = some (some { resp := .okay, rdata := 1#32 }) ∧
    (nextOf (exec .rdStatus (runningA .store .nibble))).map (·.resp) = some (some { resp := .okay, rdata := 1#32 }) ∧
    (nextOf (exec .rdCmd idleA)).map (·.resp) = some (some { resp := .okay, rdata := 0#32 }) := by decide

theorem test_wr_keylen : (nextOf (exec (.wrKeylen 3#32) State.reset)).map (·.regs.keylen) = some 3#32 := by decide

/-- `rdb OBUF` and `rd OUTLEN`, `rd KEYLEN` after a result (95 §3, P1). -/
theorem test_result_reads :
    let s : State := { idleA with mem := { memA with obuf := [(0, 0x13#8)] }, regs := { idleA.regs with outlen := 1#32 } }
    (nextOf (exec (.rdbObuf 0#12) s)).map (·.resp) = some (some { resp := .okay, rdata := 0x13#32 }) ∧
    (nextOf (exec .rdOutlen s)).map (·.resp) = some (some { resp := .okay, rdata := 1#32 }) ∧
    (nextOf (exec .rdKeylen s)).map (·.resp) = some (some { resp := .okay, rdata := 1#32 }) := by decide

/-! ### The engine's micro-steps (95 §2.8) -/

theorem test_accept : (nextOf (exec (.encrypt .nibble) idleA)).map (fun t => (t.eng.fsm, t.eng.nk, t.eng.nb, t.eng.bi)) =
    some (.fetch, 1#13, 1#13, 0#13) := by decide

theorem test_accept_empty : (nextOf (exec (.decrypt .byte) idleA)).map (fun t => (t.eng.fsm, t.eng.dir, t.eng.nb)) =
    some (.finish, .dec, 0#13) := by decide

theorem test_fetch : (nextOf (engineTurn (runningA .fetch .nibble))).map (fun t => (t.eng.fsm, t.eng.l, t.eng.r)) =
    some (.round, 2#8, 3#8) := by decide

theorem test_fetch_byte : (nextOf (engineTurn (runningA .fetch .byte))).map (fun t => (t.eng.fsm, t.eng.l, t.eng.r)) =
    some (.round, 0x23#8, 0x34#8) := by decide

theorem test_gfmul4_round : (nextOf (exec .gfmul4 (runningA .round .nibble))).map
    (fun t => (t.eng.fsm, t.eng.rc, t.eng.l, t.eng.r)) = some (.store, 1#13, 3#8, 1#8) := by decide

/-- 0x03 · 0x41 in GF(2⁸) is 0xC3 (95 §2.2). -/
theorem test_gfmul8_round : (nextOf (exec .gfmul8 (runningA .round .byte))).map
    (fun t => (t.eng.fsm, t.eng.rc, t.eng.l, t.eng.r)) = some (.store, 1#13, 3#8, 0xC1#8) := by decide

theorem test_gfmul_unused : nextOf (exec .gfmul4 (runningA .round .byte)) = some (runningA .round .byte) ∧
    nextOf (exec .gfmul8 idleA) = some idleA := by decide

theorem test_store : (nextOf (engineTurn (runningA .store .nibble))).map (fun t => (t.eng.fsm, t.eng.bi, t.mem.obuf)) =
    some (.finish, 1#13, [(0, 0x32#8)]) := by decide

theorem test_store_byte : (nextOf (engineTurn (runningA .store .byte))).map (·.mem.obuf) =
    some [(0, 3#8), (1, 2#8)] := by decide

theorem test_finish : (nextOf (engineTurn (runningA .finish .byte))).map
    (fun t => (t.eng.fsm, t.regs.outlen, statusWord t)) = some (.idle, 2#32, 2#32) := by decide

theorem test_round_undefined : faultOf (exec .gfmul4 { runningA .round .nibble with mem := Memory.reset }) =
    some (.undefinedByte .key 0) := by decide

/-- Decryption starts from the last key (R133, R151). -/
theorem test_key_addr : keyAddr { (runningA .round .byte).eng with dir := .dec, nk := 3#13, rc := 0#13 } = 2#13 ∧
    keyAddr { (runningA .round .byte).eng with dir := .enc, nk := 3#13, rc := 0#13 } = 0#13 := by decide

theorem test_reset_step : (nextOf (step { runningA .store .nibble with inputs := [.reset] })).map
    (fun t => (t.eng.fsm, t.regs, t.mem)) = some (.idle, Regs.reset, Memory.reset) := by decide

theorem test_engine_after_inputs :
    (nextOf (step { runningA .fetch .nibble with inputs := [.bus 0x08004#17 0#32] })).map
      (fun t => (t.eng.fsm, t.resp)) = some (.fetch, some { resp := .okay, rdata := 1#32 }) ∧
    (nextOf (step (runningA .fetch .nibble))).map (·.eng.fsm) = some .round := by decide

/-- A placed word of each format is what the next step runs. -/
theorem test_with_fetch_word :
    (nextOf (step (State.reset.withFetchWord 32 5))).map (fun t => (t.eng.fsm, t.eng.mode)) = some (.finish, .byte) ∧
    statusAfter (step (State.reset.withFetchWord 24 0x18000)) = some 0x14#32 ∧
    (nextOf (step (State.reset.withFetchWord 8 1))).map (fun t => (t.eng.fsm, t.eng.mode)) = some (.store, .byte) ∧
    (nextOf (step (State.reset.withFetchWord 8 0))).map (fun t => (t.eng.fsm, t.eng.mode)) = some (.store, .nibble) := by
  decide

/-- The pseudo-instructions (R91). -/
theorem test_pseudo : expand (.ldkey [0x41#8, 0x62#8]) =
      some [.issue (.wrbKey 0#12 0x41#32), .issue (.wrbKey 1#12 0x62#32), .issue (.wrKeylen 2#32)] ∧
    expand .clr = some [.issue (.wrStatus 6#32)] ∧ inputOf (.wrbKey 1#12 0x62#32) = .bus 0x11001#17 0x62#32 := by decide

/-- What a host has left to do after its turn. -/
def leftAfter (op : HostOp) (s : State) : Option (List HostOp) :=
  match agentStep .host { program := [op], core := s } with
  | .next b => some b.program
  | _ => none

/-- `wait` (R91) reads on while BUSY reads 1, in every state of the sequencer, and is done at a read of 0. -/
theorem test_wait : leftAfter .wait (runningA .fetch .byte) = some [.wait] ∧
    leftAfter .wait (runningA .finish .nibble) = some [.wait] ∧ leftAfter .wait idleA = some [] ∧
    leftAfter .wait (idleA.setDone true) = some [] ∧ leftAfter (.issue .rdStatus) (runningA .fetch .byte) = some [] := by
  decide

/-! ### Witnesses: for each statement with hypotheses, a state and operands that meet them, clause by clause,
at the ends of the ranges. Each is named after its statement. -/

theorem test_witness_DecodeEncodeAgree : (Instr.wrbIbuf 4095#12 0#32).wellFormed Config.default = true ∧
    (Instr.wrbKey 255#12 0#32).wellFormed Config.default = true := by decide

theorem test_witness_DecodedDescriptorIsTheInstructions :
    decodeBus Config.default 0x110FF#17 7#32 = .ok (.wrbKey 255#12 7#32) ∧ (0x110FF#17).toNat / 2 ^ 16 = 1 ∧
    decodeBus Config.default 0x08010#17 7#32 = .ok .rdOutlen := by decide

/-- The last register and the first offset past it, the last mapped and first unmapped key byte, the last offset. -/
theorem test_witness_UnmappedAccessIsBusError :
    (decodeBus Config.default 0x08010#17 0#32).toBool = true ∧ (decodeBus Config.default 0x08014#17 0#32).toBool = false ∧
    (decodeBus Config.default 0x010FF#17 0#32).toBool = true ∧ (decodeBus Config.default 0x01100#17 0#32).toBool = false ∧
    (decodeBus Config.default 0x02FFF#17 0#32).toBool = true ∧ (decodeBus Config.default 0x03FFF#17 0#32).toBool = true ∧
    (decodeBus Config.default 0x07FFF#17 0#32).toBool = false ∧ (decodeBus Config.default 0x00000#17 0#32).toBool = false := by
  decide

theorem test_witness_StepRunsTheHostTransaction :
    ({ idleA with inputs := [.bus 0x18000#17 5#32] } : State).inputs = .bus 0x18000#17 5#32 :: [] ∧
    decodeBus idleA.cfg 0x18000#17 5#32 = .ok (.wrCmd 5#32) ∧ decodeCmd 5#32 = .ok { dir := .enc, mode := .byte } ∧
    decodeBus idleA.cfg 0x18014#17 5#32 = .error .unmappedOffset := by decide

theorem test_witness_StepRunsTheEngineTurn :
    idleA.inputs = [] ∧ ({ idleA with inputs := [.engine] } : State).inputs.head? = some .engine ∧
    idleA.eng.fsm = .idle ∧ (runningA .fetch .byte).eng.fsm = .fetch ∧
    ((runningA .round .nibble).eng.fsm = .round ∧ (runningA .round .nibble).eng.mode = .nibble) ∧
    ((runningA .round .byte).eng.fsm = .round ∧ (runningA .round .byte).eng.mode = .byte) ∧
    (runningA .store .byte).eng.fsm = .store ∧ (runningA .finish .byte).eng.fsm = .finish := by decide

theorem test_witness_ResetStepClearsTheCore :
    ({ runningA .store .byte with inputs := [.reset, .engine] } : State).inputs = .reset :: [.engine] := by decide

theorem test_witness_MultipliersZeroAndOne : 0xF0#8 &&& 0x0F#8 = 0x00#8 := by decide

theorem test_witness_NonzeroValuesHaveOneInverse : (0x01#8 : Byte) ≠ 0x00#8 ∧ (0xFF#8 : Byte) ≠ 0x00#8 ∧
    1 ≤ (0x01#8).toNat ∧ (0x0F#8).toNat ≤ 0x0F := by decide

theorem test_witness_RoundFunctionCorners : 0xF0#8 &&& 0x0F#8 = 0x00#8 ∧ 0xF1#8 &&& 0x0F#8 = 0x01#8 ∧
    (0x0F#8).toNat ≤ 0x0F := by decide

theorem test_witness_RoundFunctionRangeAndKeyUse :
    [0x01#8].map (· &&& 0x0F#8) = [0xF1#8].map (· &&& 0x0F#8) ∧
    ∀ h, roundFn h 0x41#8 .byte = roundFn h 0x41#8 .byte := ⟨by decide, fun _ => rfl⟩

/-- A key for which F is zero at every right half, and a block with a zero right half. -/
theorem test_witness_ZeroRoundAndKeyZeroBlocks :
    (∀ r : Fin 256, roundFn (BitVec.ofFin r) 0x40#8 .nibble = 0x00#8) ∧
    (split (.byte 0x77#8 0x00#8)).r = 0x00#8 := by
  set_option maxRecDepth 20000 in decide

theorem test_witness_BlocksAreIndependent : [1#8, 2#8].length % blockSize .byte = 0 ∧
    1 < [1#8, 2#8, 3#8, 4#8, 5#8].length / blockSize .byte := by decide

theorem test_witness_DecryptionReversesTheKeyOrder : [0x41#8].length ≤ 1 ∧ ([] : List Byte).length ≤ 1 := by decide

/-- Both operand forms, at the largest lengths. -/
theorem test_witness_AcceptedCommandStarts :
    let s := idleWith 4096#32 256#32 memA
    s.cfg.Valid ∧ Accepts s ∧ decodeCmd 1#32 = .ok { dir := .enc, mode := .nibble } := by
  unfold Accepts
  decide

theorem test_witness_CommandChecksInOrder :
    (runningA .fetch .byte).busy = true ∧
    (idleA.busy = false ∧ ∀ cmd, decodeCmd 7#32 ≠ .ok cmd) ∧ decodeCmd 6#32 = .ok { dir := .dec, mode := .byte } ∧
    ((idleWith 4097#32 0#32 memA).busy = false ∧
      (idleWith 4097#32 0#32 memA).cfg.bufMax < (idleWith 4097#32 0#32 memA).regs.len.toNat) ∧
    ((idleWith 4096#32 257#32 memA).regs.len.toNat ≤ (idleWith 4096#32 257#32 memA).cfg.bufMax ∧
      (idleWith 4096#32 257#32 memA).cfg.keyMax < (idleWith 4096#32 257#32 memA).regs.keylen.toNat) ∧
    Accepts idleA := by
  have h : decodeCmd 7#32 = .error .reservedOperation := by decide
  refine ⟨by decide, ⟨by decide, fun cmd hc => ?_⟩, by decide, by decide, by decide, by unfold Accepts; decide⟩
  rw [h] at hc
  cases hc

theorem test_witness_LengthWritesStoreOrAreRefused : idleA.busy = false ∧ (runningA .store .nibble).busy = true := by
  decide

theorem test_witness_WindowWritesStoreOneByte : idleA.busy = false ∧ (255#12).toNat < idleA.cfg.keyMax ∧
    (4095#12).toNat < idleA.cfg.bufMax ∧ idleA.cfg.keyMax ≤ (256#12).toNat ∧ (runningA .store .byte).busy = true ∧
    ({ idleA with cfg := { keyMax := 1, bufMax := 2, base := 0 } } : State).cfg.bufMax ≤ (2#12).toNat := by decide

theorem test_witness_WindowReadsAnswerTheByte :
    let s : State := { idleA with mem := { memA with key := [(255, 9#8)], obuf := [(4095, 8#8)] } }
    s.busy = false ∧ (255#12).toNat < s.cfg.keyMax ∧ s.byteAt .key 255 = some 9#8 ∧
    s.byteAt .ibuf 1 = some 0x34#8 ∧ (4095#12).toNat < s.cfg.bufMax ∧ s.byteAt .obuf 4095 = some 8#8 ∧
    s.byteAt .key 254 = none ∧ s.byteAt .ibuf 4095 = none ∧ s.cfg.keyMax ≤ (256#12).toNat ∧
    (runningA .store .byte).busy = true := by decide

theorem test_witness_ObufWriteIsIgnored : idleA.busy = false ∧ (4095#12).toNat < idleA.cfg.bufMax ∧
    (runningA .fetch .byte).busy = true ∧
    ({ idleA with cfg := { keyMax := 1, bufMax := 2, base := 0 } } : State).cfg.bufMax ≤ (2#12).toNat := by decide

theorem test_witness_BusyLockout : (runningA .round .byte).busy = true ∧
    (255#12).toNat < (runningA .round .byte).cfg.keyMax ∧ (4095#12).toNat < (runningA .round .byte).cfg.bufMax := by
  decide

theorem test_witness_InstructionsKeepMemory : (∃ t, exec .gfmul8 (runningA .round .byte) = .next t) ∧
    ∃ t, exec (.wrStatus 6#32) idleA = .next t := ⟨⟨_, rfl⟩, ⟨_, rfl⟩⟩

theorem test_witness_InstructionsKeepRegisters : (∃ t, exec (.rdbKey 0#12) idleA = .next t) ∧ idleA.busy = false ∧
    (∃ t, exec .gfmul4 (runningA .round .nibble) = .next t) ∧
    (∃ t, exec (.wrOutlen 1#32) (runningA .round .nibble) = .next t) ∧
    (∃ t, exec (.wrbKey 256#12 1#32) (runningA .round .nibble) = .next t) ∧
    (Instr.wrbKey 256#12 1#32).wellFormed (runningA .round .nibble).cfg = false :=
  ⟨⟨_, rfl⟩, rfl, ⟨_, rfl⟩, ⟨_, rfl⟩, ⟨_, rfl⟩, rfl⟩

theorem test_witness_HostCannotDisturbARunningOperation : (runningA .finish .nibble).busy = true := by decide

theorem test_witness_RepeatedTransactions :
    ((∃ t, exec (.wrbKey 0#12 5#32) idleA = .next t) ∧ idleA.busy = false) ∧
    (∃ t, exec (.wrStatus 6#32) idleA = .next t) ∧ (∃ t, exec (.rdbObuf 0#12) (runningA .fetch .byte) = .next t) ∧
    ((∃ t, exec (.encrypt .nibble) idleA = .next t) ∧ idleA.cfg.Valid ∧ Accepts idleA) :=
  ⟨⟨⟨_, rfl⟩, rfl⟩, ⟨_, rfl⟩, ⟨_, rfl⟩, ⟨_, rfl⟩, by decide, by unfold Accepts; decide⟩

theorem test_witness_FetchSplitsTheBlock :
    ((runningA .fetch .byte).eng.fsm = .fetch ∧ (runningA .fetch .byte).eng.mode = .byte ∧
      2 * (runningA .fetch .byte).eng.bi.toNat + 1 < (runningA .fetch .byte).cfg.bufMax ∧
      (runningA .fetch .byte).byteAt .ibuf 0 = some 0x23#8 ∧ (runningA .fetch .byte).byteAt .ibuf 1 = some 0x34#8) ∧
    ((runningA .fetch .nibble).eng.mode = .nibble ∧
      (runningA .fetch .nibble).eng.bi.toNat < (runningA .fetch .nibble).cfg.bufMax) := by decide

/-- The last round of 256, in both directions and both modes. -/
theorem test_witness_RoundMultipliesAndSwaps :
    let s : State := { runningA .round .byte with
      mem := { memA with key := [(0, 0x41#8), (255, 0x42#8)] }
      eng := { (runningA .round .byte).eng with nk := 256#13, rc := 255#13 } }
    s.eng.fsm = .round ∧ s.eng.rc.toNat < s.eng.nk.toNat ∧ s.eng.nk.toNat ≤ s.cfg.keyMax ∧
    s.eng.mode = .byte ∧ s.byteAt .key s.eng.rc.toNat = some 0x42#8 ∧
    s.byteAt .key (s.eng.nk.toNat - 1 - s.eng.rc.toNat) = some 0x41#8 ∧
    let n : State := { s with eng := { s.eng with mode := .nibble, dir := .dec } }
    n.eng.fsm = .round ∧ n.eng.mode = .nibble ∧ n.eng.rc.toNat < n.eng.nk.toNat ∧ n.eng.nk.toNat ≤ n.cfg.keyMax ∧
    n.byteAt .key (n.eng.nk.toNat - 1 - n.eng.rc.toNat) = some 0x41#8 := by
  decide

theorem test_witness_UnusedMultiplierChangesNothing :
    ¬(idleA.eng.fsm = .round ∧ idleA.eng.mode = .nibble) ∧
    ¬((runningA .round .nibble).eng.fsm = .round ∧ (runningA .round .nibble).eng.mode = .byte) := by decide

/-- The last block of a full buffer, in both modes. -/
theorem test_witness_StoreWritesTheSwappedHalves :
    let e : Engine := { (runningA .store .byte).eng with bi := 2047#13 }
    let f : Engine := { (runningA .store .nibble).eng with bi := 4095#13 }
    e.fsm = .store ∧ storeIndex e + blockSize e.mode ≤ Config.default.bufMax ∧
    f.fsm = .store ∧ storeIndex f + blockSize f.mode ≤ Config.default.bufMax := by decide

theorem test_witness_FinishPublishesTheLength : (runningA .finish .byte).eng.fsm = .finish := by decide

theorem test_witness_EngineStopsOnUndefinedByte :
    let n : State := { runningA .fetch .nibble with mem := Memory.reset }
    let b : State := { runningA .fetch .byte with mem := { memA with ibuf := [(0, 1#8)] } }
    let r : State := { runningA .round .byte with mem := Memory.reset }
    n.byteAt .ibuf n.eng.bi.toNat = none ∧ b.byteAt .ibuf (2 * b.eng.bi.toNat + 1) = none ∧
    r.byteAt .key (keyAddr r.eng).toNat = none ∧ (keyAddr r.eng).toNat < r.cfg.keyMax ∧
    faultOf (step r) = some (.undefinedByte .key 0) := by decide

theorem idle_A_ok : idleA.cfg.Valid ∧ idleA.mem.wf := by decide

/-- The last block and the last round of the largest operation meet the invariants, in every state of the sequencer. -/
theorem inv_at_the_bounds (f : Fsm) : Inv { runningA .store .byte with
    eng := { (runningA .store .byte).eng with fsm := f, nb := 2048#13, bi := 2047#13, nk := 256#13, rc := 255#13 } } :=
  { config := idle_A_ok.1, canonical := idle_A_ok.2, within := by simp [runningA, idleA, idleWith, memA, State.reset,
      Config.default, Memory.within, Store.below, Config.capacity]
    block := fun _ => by show 2047 < 2048; decide, round := fun _ => by show 255 < 256; decide
    halves := fun _ h => by cases h
    operands := fun _ => ⟨by show 256 ≤ 256; decide, by show 2048 * 2 ≤ 4096; decide⟩
    noError := fun _ => rfl, someError := fun h => by cases h }

theorem test_witness_SequencerTransitions : ∃ s t, Inv s ∧ engineTurn s = .next t ∧ s.eng.fsm = .store :=
  ⟨_, _, inv_at_the_bounds .store, rfl, rfl⟩

theorem test_witness_EngineWritesOnlyItsResults : (∃ t, engineTurn (runningA .store .byte) = .next t) ∧
    ∃ t, engineTurn (runningA .finish .byte) = .next t := ⟨⟨_, rfl⟩, ⟨_, rfl⟩⟩

theorem test_witness_StepKeepsTheInvariants : ∃ s t, Inv s ∧ step s = .next t ∧ s.eng.fsm = .finish ∧
    OperandsFit s ∧ s.inputs.head? ≠ some .reset :=
  ⟨_, _, inv_at_the_bounds .finish, rfl, rfl, (inv_at_the_bounds .finish).operands rfl, by decide⟩

/-- R37(e) is asked of no idle state: any operands latched there meet the invariants. -/
theorem test_witness_ResetMeetsTheInvariants :
    ({ Engine.reset with nk := 8191#13, nb := 8191#13 } : Engine).fsm = .idle ∧
    ¬OperandsFit { State.reset with eng := { Engine.reset with nk := 8191#13, nb := 8191#13 } } := by decide

/-- DONE set by FINISH; DONE cleared by a STATUS write, by a command and by reset. -/
theorem test_witness_DoneChangesOnlyByItsFourEvents :
    (nextOf (step (runningA .finish .byte))).map (·.regs.done) = some true ∧
    (nextOf (step { idleA.setDone true with inputs := [.bus 0x18004#17 2#32] })).map (·.regs.done) = some false ∧
    (nextOf (step { idleA.setDone true with inputs := [.bus 0x18000#17 1#32] })).map (·.regs.done) = some false ∧
    (nextOf (step { idleA.setDone true with inputs := [.reset] })).map (·.regs.done) = some false := by decide

/-- A later error leaves the first code; a STATUS write clears it; an error is recorded. -/
theorem test_witness_FirstErrorIsKeptUntilCleared :
    (nextOf (step { flagError .lenRange idleA with inputs := [.bus 0x18000#17 0#32] })).map
      (fun t => (t.regs.err, t.regs.errcode)) = some (true, 3#4) ∧
    (nextOf (step { flagError .lenRange idleA with inputs := [.bus 0x18004#17 4#32] })).map
      (fun t => (t.regs.err, t.regs.errcode)) = some (false, 0#4) ∧
    (nextOf (step { idleA with inputs := [.bus 0x18000#17 0#32] })).map
      (fun t => (t.regs.err, t.regs.errcode)) = some (true, 1#4) := by decide

theorem test_witness_OutlenChangesOnlyByCommandFinishReset :
    (nextOf (step (runningA .finish .byte))).map (·.regs.outlen) = some 2#32 ∧
    (nextOf (step { idleA.setOutlen 4#32 with inputs := [.bus 0x18000#17 1#32] })).map (·.regs.outlen) = some 0#32 ∧
    (nextOf (step { idleA.setOutlen 4#32 with inputs := [.reset] })).map (·.regs.outlen) = some 0#32 := by decide

theorem test_witness_DefinedBytesStayDefined : (∃ t, step idleA = .next t) ∧ idleA.inputs.head? ≠ some .reset ∧
    idleA.byteAt .key 0 ≠ none := ⟨⟨_, rfl⟩, by decide, by decide⟩

theorem test_witness_StoreBytesChangeOnlyByTheirWriter :
    (nextOf (step { idleA with inputs := [.bus 0x12007#17 0x99#32] })).map (·.byteAt .ibuf 7) = some (some 0x99#8) ∧
    (nextOf (step (runningA .store .byte))).map (·.byteAt .obuf 1) = some (some 2#8) ∧
    (nextOf (step { idleA with inputs := [.reset] })).map (·.byteAt .key 0) = some none := by decide

theorem test_witness_OnlyUndefinedBytesStopTheMachine : ∃ s, Inv s ∧ s.eng.fsm = .fetch ∧
    faultOf (step s) = some (.undefinedByte .ibuf 4094) := ⟨_, inv_at_the_bounds .fetch, rfl, by decide⟩

theorem test_witness_UnreadEngineRegistersAreUnobservable :
    SameButUnread idleA { idleA with eng := { idleA.eng with l := 9#8, nk := 5#13 } } :=
  { cfg := rfl, regs := rfl, mem := rfl, inputs := rfl, resp := rfl, fsm := rfl
    latched := fun h => absurd rfl h, working := by decide }

/-- Scenario A holds its key and its input. -/
theorem loaded_A : Loaded idleA .nibble [0x41#8] [0x23#8] := by
  refine ⟨rfl, fun i hi _ => ?_, rfl, fun i hi => ?_⟩ <;>
    (obtain rfl : i = 0 := by simp [blockSize] at hi; omega) <;> rfl

/-- Scenario A's command is accepted. -/
theorem accepts_A : Accepts idleA := by unfold Accepts; decide

/-- Scenario A's encryption takes the four steps of 95 §2.8 and then is idle. -/
theorem first_idle_A : ∃ t u, exec (Command.instr { dir := .enc, mode := .nibble }) idleA = .next t ∧ NoReset 4 t ∧
    FirstIdle 4 t u ∧ u.byteAt .obuf 0 = some 0x13#8 := by
  refine ⟨(startOp { dir := .enc, mode := .nibble } idleA).okay,
    (nextOf (runSteps 4 (startOp { dir := .enc, mode := .nibble } idleA).okay)).getD idleA,
    rfl, ?_, ⟨rfl, rfl, fun m hm v hv => ?_⟩, by decide⟩
  · intro inp h
    exact absurd h (List.not_mem_nil)
  · interval_cases m <;> (injection hv with hv; exact hv ▸ rfl)

theorem test_witness_EngineComputesTheBufferTransform :
    ∃ s t u cmd keys buf n, s.cfg.Valid ∧ Accepts s ∧ Loaded s (Command.mode cmd) keys buf ∧
      exec cmd.instr s = .next t ∧ NoReset n t ∧ FirstIdle n t u := by
  obtain ⟨t, u, h1, h2, h3, -⟩ := first_idle_A
  exact ⟨idleA, t, u, { dir := .enc, mode := .nibble }, _, _, 4, by decide, accepts_A, loaded_A, h1, h2, h3⟩

/-- With a read of STATUS after the acceptance the operation has four engine turns in five steps. -/
theorem test_witness_OperationTakesTheStatedSteps :
    ∃ s t u, s.cfg.Valid ∧ Accepts s ∧ exec (Command.instr { dir := .enc, mode := .nibble }) s = .next t ∧
      NoReset 5 t ∧ FirstIdle 5 t u ∧ engineTurns 5 t = 4 := by
  refine ⟨{ idleA with inputs := [.bus 0x08004#17 0#32] },
    (startOp { dir := .enc, mode := .nibble } { idleA with inputs := [.bus 0x08004#17 0#32] }).okay,
    (nextOf (runSteps 5
      (startOp { dir := .enc, mode := .nibble } { idleA with inputs := [.bus 0x08004#17 0#32] }).okay)).getD idleA,
    by decide, accepts_A, rfl, ?_, ⟨rfl, rfl, fun m hm v hv => ?_⟩, rfl⟩
  · intro inp h
    rw [List.mem_singleton.1 h]
    exact fun h => by cases h
  · interval_cases m <;> (injection hv with hv; exact hv ▸ rfl)

theorem test_witness_AcceptedOperationReachesIdle :
    ∃ s : State, s.cfg.Valid ∧ Accepts s ∧ Loaded s .nibble [0x41#8] [0x23#8] ∧
      (∃ t, exec (Command.instr { dir := .dec, mode := .nibble }) s = .next t) ∧
      s.inputs = [.bus 0x08004#17 0#32, .engine] ∧ ∀ inp ∈ s.inputs, inp ≠ .reset :=
  ⟨{ idleA with inputs := [.bus 0x08004#17 0#32, .engine] }, by decide, accepts_A, loaded_A, ⟨_, rfl⟩, rfl, by decide⟩

/-- Scenario A right after its acceptance. -/
theorem progress_A : Progress .enc .nibble [0x41#8] [0x23#8] (idleA.byteAt .obuf)
    (startOp { dir := .enc, mode := .nibble } idleA).okay :=
  { loaded := loaded_A, dir := rfl, mode := rfl, keyCount := rfl, blockCount := rfl
    stored := fun i hi => absurd hi (Nat.not_lt_zero i), untouched := fun _ _ => rfl
    block := fun _ => by decide, round := by decide, store := by decide, finish := by decide, halves := by decide }

theorem test_witness_StepKeepsTheProgress :
    (idleA.cfg.Valid ∧ Accepts idleA ∧ Loaded idleA .nibble [0x41#8] [0x23#8] ∧
      exec (Command.instr { dir := .enc, mode := .nibble }) idleA =
        .next (startOp { dir := .enc, mode := .nibble } idleA).okay) ∧
    ∃ s t, s.busy = true ∧ Progress .enc .nibble [0x41#8] [0x23#8] (idleA.byteAt .obuf) s ∧ step s = .next t ∧
      s.inputs.head? ≠ some .reset :=
  ⟨⟨by decide, accepts_A, loaded_A, rfl⟩, _, _, rfl, progress_A, rfl, by decide⟩

theorem test_witness_PseudoInstructionsExpand : ([0x41#8] : List Byte).length ≤ 0x1000 ∧
    ([0x41#8] : List Byte)[0]? = some 0x41#8 ∧
    ∃ b, agentStep .engine { program := [.wait], core := runningA .finish .byte } = .next b := ⟨by decide, rfl, _, rfl⟩

theorem test_witness_HostProgramsAreMachineRuns : idleA.inputs = [] ∧
    ∃ b, runAgents [.host, .host, .engine, .reset]
      { program := [.issue (.encrypt .nibble), .wait], core := idleA } = .next b := ⟨rfl, _, rfl⟩

end Sys2Proof.Tests
end

section
/-! PROOFS. What a turn can do, said once for the statements about the state: the descriptors of the register writes,
the effect of a host transaction on STATUS, OUTLEN, the stores and the engine, the next states of an engine turn, and
one step as one of the three turns. -/

namespace Sys2Proof.Machine

/-! ### The descriptors of the register writes -/

/-- The offset of a register (R23). -/
def registerOffset : RegName → BitVec 14
  | .cmd => 0x000#14
  | .status => 0x004#14
  | .len => 0x008#14
  | .keylen => 0x00C#14
  | .outlen => 0x010#14

theorem offset_of_registerAt {off : BitVec 14} {r : RegName} (h : registerAt off = some r) :
    off = registerOffset r := by
  unfold registerAt at h
  split_ifs at h <;> cases h <;> assumption

theorem widthCode_of_widthOf_four : ∀ {wc : BitVec 2}, widthOf wc = some 4 → wc = 0b10#2 := by decide

/-- A descriptor is its three fields in order (R92). -/
theorem descriptor_eq_append (d : Descriptor) :
    d = BitVec.ofBool (Descriptor.k d) ++ Descriptor.wc d ++ Descriptor.off d := by
  apply BitVec.eq_of_getLsbD_eq
  intro i hi
  simp only [Descriptor.k, Descriptor.wc, Descriptor.off, BitVec.getLsbD_append, BitVec.getLsbD_extractLsb',
    BitVec.getLsbD_ofBool]
  interval_cases i <;> simp

/-- A descriptor that selects a register has the width code of 4 bytes and that register's offset (R67, R94). -/
theorem fields_of_busTarget_reg {c : Config} {wc : BitVec 2} {off : BitVec 14} {r : RegName}
    (h : busTarget c wc off = .ok (.reg r)) : wc = 0b10#2 ∧ off = registerOffset r := by
  unfold busTarget at h
  split at h
  · cases h
  · rename_i width hw
    split at h
    · split at h
      · cases h
      · rename_i hbad
        obtain ⟨hfour, -⟩ := not_or.1 hbad
        split at h
        · rename_i r' hr
          cases h
          exact ⟨widthCode_of_widthOf_four (hw.trans (congrArg some (not_not.1 hfour))), offset_of_registerAt hr⟩
        · cases h
    · split at h
      · cases h
      · split at h <;> cases h

/-- A decoded transaction is its target's instruction (R94). -/
theorem decodeBus_ok {c : Config} {d : Descriptor} {w : Word} {i : Instr} :
    decodeBus c d w = .ok i ↔
      ∃ tg, busTarget c (Descriptor.wc d) (Descriptor.off d) = .ok tg ∧ targetInstr (Descriptor.k d) w tg = i := by
  unfold decodeBus
  cases busTarget c (Descriptor.wc d) (Descriptor.off d) <;> simp [Except.map]

/-- A register write is the instruction of no other target and of no read. -/
theorem target_of_registerWrite {k : Bool} {w x : Word} {tg : Target} {r : RegName}
    (h : targetInstr k w tg = targetInstr true x (.reg r)) : k = true ∧ tg = .reg r := by
  rcases tg with (_ | _ | _ | _ | _) | ⟨_ | _ | _, n⟩ <;> cases k <;> cases r <;> simp [targetInstr] at h ⊢

/-- The only descriptor of a register write: K = 1, four bytes wide, at the register's offset (R92, R94). -/
theorem desc_of_decodeBus_registerWrite {c : Config} {d : Descriptor} {w x : Word} (r : RegName)
    (h : decodeBus c d w = .ok (targetInstr true x (.reg r))) :
    d = BitVec.ofBool true ++ 0b10#2 ++ registerOffset r := by
  obtain ⟨tg, hb, hi⟩ := decodeBus_ok.1 h
  obtain ⟨hk, rfl⟩ := target_of_registerWrite hi
  obtain ⟨hwc, hoff⟩ := fields_of_busTarget_reg hb
  rw [← hk, ← hwc, ← hoff]
  exact descriptor_eq_append d

/-- The only descriptor of a write to CMD (R172). -/
theorem desc_of_decodeBus_wrCmd {c : Config} {d : Descriptor} {w x : Word} (h : decodeBus c d w = .ok (.wrCmd x)) :
    d = 0x18000#17 := desc_of_decodeBus_registerWrite .cmd h

/-- The only descriptor of a write to STATUS (R174). -/
theorem desc_of_decodeBus_wrStatus {c : Config} {d : Descriptor} {w x : Word}
    (h : decodeBus c d w = .ok (.wrStatus x)) : d = 0x18004#17 := desc_of_decodeBus_registerWrite .status h

/-! ### A host transaction -/

/-- A transaction with descriptor 0x18004 is the write-1-to-clear of STATUS, whatever the parameters (R174). -/
theorem hostTurn_wrStatus (w : Word) (s : State) :
    hostTurn 0x18004#17 w s = .next (clearErr w (clearDone w s)).okay := rfl

/-- A start leaves IDLE at once (R145). -/
theorem startOp_busy (cmd : Command) (s : State) : (startOp cmd s).busy = true := by
  rw [State.busy_eq_true, startOp_eng]
  show (if blockCount s cmd.mode = 0 then Fsm.finish else Fsm.fetch) ≠ .idle
  split <;> decide

/-- A host transaction starts an accepted command written to CMD, or leaves the engine and OUTLEN, and DONE too but
for a STATUS write with bit 1. -/
theorem hostTurn_starts_or_keeps {d : Descriptor} {w : Word} {s t : State} (h : hostTurn d w s = .next t) :
    (d = 0x18000#17 ∧ ∃ cmd, Accepts s ∧ t = (startOp cmd s).okay) ∨
      (t.eng = s.eng ∧ t.regs.outlen = s.regs.outlen ∧
        t.regs.done = if d = 0x18004#17 ∧ w.getLsbD 1 = true then false else s.regs.done) := by
  by_cases hd : d = 0x18004#17
  · subst hd
    rw [hostTurn_wrStatus] at h
    injection h with h
    subst h
    refine .inr ⟨by simp, by simp, ?_⟩
    rw [State.okay_regs, clearErr_done, clearDone_done]
    cases w.getLsbD 1 <;> simp
  · rcases hostTurn_next h with ⟨r, v, rfl⟩ | ⟨e, rfl⟩ | ⟨hdec, -⟩ | ⟨-, rfl⟩ | ⟨-, rfl⟩ | ⟨sp, n, -, -, rfl, -⟩ |
      ⟨cmd, hdec, -, hacc, rfl⟩
    · simp [hd]
    · simp [hd]
    · exact absurd (desc_of_decodeBus_wrStatus hdec) hd
    · simp [hd]
    · simp [hd]
    · simp [hd]
    · exact .inl ⟨desc_of_decodeBus_wrCmd hdec, cmd, hacc, rfl⟩

/-- The codes of R202 are 1 to 5. -/
theorem errorCode_bounds (e : IfaceError) : 1 ≤ (errorCode e).toNat ∧ (errorCode e).toNat ≤ 5 := by
  cases e <;> decide

/-- A host transaction keeps ERR and ERRCODE, records the first error, or clears both by a STATUS write with bit 2
(R28, R29). -/
theorem hostTurn_err {d : Descriptor} {w : Word} {s t : State} (h : hostTurn d w s = .next t) :
    (t.regs.err = s.regs.err ∧ t.regs.errcode = s.regs.errcode) ∨
    (s.regs.err = false ∧ t.regs.err = true ∧ ∃ e, t.regs.errcode = errorCode e) ∨
    (d = 0x18004#17 ∧ w.getLsbD 2 = true ∧ t.regs.err = false ∧ t.regs.errcode = 0#4) := by
  rcases hostTurn_next h with ⟨r, v, rfl⟩ | ⟨e, rfl⟩ | ⟨hdec, rfl⟩ | ⟨-, rfl⟩ | ⟨-, rfl⟩ | ⟨sp, n, -, -, rfl, -⟩ |
    ⟨cmd, -, -, -, rfl⟩
  · exact .inl ⟨rfl, rfl⟩
  · cases he : s.regs.err with
    | true => exact .inl ⟨by simp, by simp [flagError_errcode, he]⟩
    | false => exact .inr (.inl ⟨rfl, by simp, e, by simp [flagError_errcode, he]⟩)
  · rw [State.okay_regs, clearErr_err, clearErr_errcode, clearDone_err, clearDone_errcode]
    cases w.getLsbD 2 with
    | true => exact .inr (.inr ⟨desc_of_decodeBus_wrStatus hdec, rfl, by simp, rfl⟩)
    | false => exact .inl ⟨by simp, rfl⟩
  · exact .inl ⟨rfl, rfl⟩
  · exact .inl ⟨rfl, rfl⟩
  · exact .inl ⟨rfl, rfl⟩
  · exact .inl ⟨rfl, rfl⟩

/-- A host transaction keeps every store, or writes the byte that its descriptor names, idle and
below the capacity (R182, R184). -/
theorem hostTurn_mem {d : Descriptor} {w : Word} {s t : State} (h : hostTurn d w s = .next t) :
    t.mem = s.mem ∨
    ∃ sp n, s.busy = false ∧ n.toNat < s.cfg.capacity sp ∧ t.mem = (s.putByte sp n.toNat (dataByte w)).mem ∧
      ((sp = .key ∧ decodeBus s.cfg d w = .ok (.wrbKey n w)) ∨
        (sp = .ibuf ∧ decodeBus s.cfg d w = .ok (.wrbIbuf n w))) := by
  rcases hostTurn_next h with ⟨r, v, rfl⟩ | ⟨e, rfl⟩ | ⟨-, rfl⟩ | ⟨-, rfl⟩ | ⟨-, rfl⟩ | ⟨sp, n, hb, hn, rfl, hdec⟩ |
    ⟨cmd, -, -, -, rfl⟩
  · exact .inl rfl
  · exact .inl (by simp)
  · exact .inl (by simp)
  · exact .inl rfl
  · exact .inl rfl
  · exact .inr ⟨sp, n, hb, hn, rfl, hdec⟩
  · exact .inl rfl

theorem hostTurn_cfg {d : Descriptor} {w : Word} {s t : State} (h : hostTurn d w s = .next t) : t.cfg = s.cfg := by
  rcases hostTurn_next h with ⟨r, v, rfl⟩ | ⟨e, rfl⟩ | ⟨-, rfl⟩ | ⟨-, rfl⟩ | ⟨-, rfl⟩ | ⟨sp, n, -, -, rfl, -⟩ |
    ⟨cmd, -, -, -, rfl⟩ <;> simp

/-! ### An engine turn -/

/-- The next states of an engine turn, by the micro-step that fsm names (R36, R145 to R150). -/
theorem engineTurn_next {s t : State} (h : engineTurn s = .next t) :
    (s.eng.fsm = .idle ∧ t = s) ∨
    (s.eng.fsm = .fetch ∧ ∃ b, fetchBlock s = .ok b ∧
      t = s.setEngine
        { s.eng with
          l := (split b).l, r := (split b).r, rc := 0#13
          fsm := if s.eng.nk = 0#13 then .store else .round }) ∨
    (s.eng.fsm = .round ∧ ∃ k, memRead s .key (keyAddr s.eng).toNat = .ok k ∧
      t = afterRound (roundFn s.eng.r k s.eng.mode &&& halfMask s.eng.mode) s) ∨
    (s.eng.fsm = .store ∧ ∃ u, storeBytes s (storeIndex s.eng) (blockBytes (storeBlock s.eng)) = .ok u ∧
      t = u.setEngine
        { s.eng with
          bi := s.eng.bi + 1#13
          fsm := if s.eng.bi + 1#13 = s.eng.nb then .finish else .fetch }) ∨
    (s.eng.fsm = .finish ∧
      t = ((s.setOutlen (BitVec.ofNat 32 (s.eng.nb.toNat * blockSize s.eng.mode))).setDone true).setEngine
        { s.eng with fsm := .idle }) := by
  cases hf : s.eng.fsm with
  | idle =>
    simp only [engineTurn, hf] at h
    injection h with h
    exact .inl ⟨rfl, h.symm⟩
  | fetch =>
    simp only [engineTurn, hf] at h
    exact .inr (.inl ⟨rfl, microFetch_next h⟩)
  | round =>
    rw [engineTurn_round hf] at h
    exact .inr (.inr (.inl ⟨rfl, microRound_next h⟩))
  | store =>
    simp only [engineTurn, hf] at h
    exact .inr (.inr (.inr (.inl ⟨rfl, microStore_next h⟩)))
  | finish =>
    simp only [engineTurn, hf, microFinish] at h
    injection h with h
    exact .inr (.inr (.inr (.inr ⟨rfl, h.symm⟩)))

/-- Only FINISH writes a register, and it publishes the operation (R149). -/
theorem engineTurn_regs {s t : State} (h : engineTurn s = .next t) :
    t.regs = if s.eng.fsm = .finish then
      { s.regs with outlen := BitVec.ofNat 32 (s.eng.nb.toNat * blockSize s.eng.mode), done := true } else s.regs := by
  rcases engineTurn_next h with ⟨hf, rfl⟩ | ⟨hf, b, -, rfl⟩ | ⟨hf, k, -, rfl⟩ | ⟨hf, u, hu, rfl⟩ | ⟨hf, rfl⟩
  · simp [hf]
  · simp [hf]
  · simp [hf]
  · obtain ⟨-, hregs, -⟩ := storeBytes_ok hu
    simp [hf, hregs]
  · simp [hf, State.setDone, State.setOutlen]

/-- An engine turn leaves ERR and ERRCODE. -/
theorem engineTurn_err {s t : State} (h : engineTurn s = .next t) :
    t.regs.err = s.regs.err ∧ t.regs.errcode = s.regs.errcode := by
  rw [engineTurn_regs h]
  split <;> exact ⟨rfl, rfl⟩

/-- An engine turn keeps the parameters and what the start latched but E.bi (R145). -/
theorem engineTurn_latched {s t : State} (h : engineTurn s = .next t) :
    t.cfg = s.cfg ∧ t.eng.dir = s.eng.dir ∧ t.eng.mode = s.eng.mode ∧ t.eng.nk = s.eng.nk ∧ t.eng.nb = s.eng.nb := by
  rcases engineTurn_next h with ⟨-, rfl⟩ | ⟨-, b, -, rfl⟩ | ⟨-, k, -, rfl⟩ | ⟨-, u, hu, rfl⟩ | ⟨-, rfl⟩
  · simp
  · simp
  · simp
  · obtain ⟨hcfg, -⟩ := storeBytes_ok hu
    simp [hcfg]
  · simp

/-- A block has as many bytes as its mode says (R12). -/
theorem length_storeBlock (e : Engine) : (blockBytes (storeBlock e)).length = blockSize e.mode := by
  unfold storeBlock join
  cases e.mode <;> rfl

/-- An engine turn writes no byte but, in STORE, those of the block being stored, which are then defined (R148). -/
theorem engineTurn_byteAt {s t : State} (h : engineTurn s = .next t) (sp : Space) (i : Nat) :
    t.byteAt sp i = s.byteAt sp i ∨
    (sp = .obuf ∧ s.eng.fsm = .store ∧ storeIndex s.eng ≤ i ∧ i < storeIndex s.eng + blockSize s.eng.mode ∧
      t.byteAt sp i ≠ none) := by
  rcases engineTurn_next h with ⟨-, rfl⟩ | ⟨-, b, -, rfl⟩ | ⟨-, k, -, rfl⟩ | ⟨hf, u, hu, rfl⟩ | ⟨-, rfl⟩
  · exact .inl rfl
  · exact .inl rfl
  · exact .inl rfl
  · obtain ⟨-, -, -, -, -, hkey, hibuf, hobuf⟩ := storeBytes_ok hu
    cases sp with
    | key => exact .inl (by simp [State.byteAt, hkey])
    | ibuf => exact .inl (by simp [State.byteAt, hibuf])
    | obuf =>
      have hi := hobuf i
      rw [length_storeBlock] at hi
      by_cases hin : storeIndex s.eng ≤ i ∧ i < storeIndex s.eng + blockSize s.eng.mode
      · refine .inr ⟨rfl, hf, hin.1, hin.2, ?_⟩
        rw [if_pos hin] at hi
        show u.byteAt .obuf i ≠ none
        rw [hi, Ne, List.getElem?_eq_none_iff, length_storeBlock]
        omega
      · exact .inl (hi.trans (if_neg hin))
  · exact .inl rfl

/-! ### One step -/

/-- One step is an engine turn, a reset or a host transaction, on the state without the entry it takes. -/
theorem step_next {s t : State} (h : step s = .next t) :
    (EngineMoves s ∧ ∃ rest, engineTurn (s.setInputs rest) = .next t) ∨
    (s.inputs.head? = some .reset ∧ ∃ rest, t = resetStep (s.setInputs rest)) ∨
    ∃ d w rest, s.inputs.head? = some (.bus d w) ∧ hostTurn d w (s.setInputs rest) = .next t := by
  rcases step_cases s with ⟨hin, hs⟩ | ⟨rest, hin, hs⟩ | ⟨rest, hin, hs⟩ | ⟨d, w, rest, hin, hs⟩ <;> rw [hs] at h
  · exact .inl ⟨.inl hin, [], by rwa [← hin]⟩
  · exact .inl ⟨.inr (by simp [hin]), rest, h⟩
  · injection h with h
    exact .inr (.inl ⟨by simp [hin], rest, h.symm⟩)
  · exact .inr (.inr ⟨d, w, rest, by simp [hin], h⟩)

/-- Where it is the engine's move, the step is an engine turn. -/
theorem step_of_engineMoves {s : State} (h : EngineMoves s) : ∃ rest, step s = engineTurn (s.setInputs rest) := by
  rcases h with h | h
  · exact ⟨[], by rw [step_nil h, ← h]; rfl⟩
  · obtain ⟨rest, hin⟩ := List.head?_eq_some_iff.1 h
    exact ⟨rest, step_cons hin⟩

/-- The step performs a transaction at the head of the interleaving. -/
theorem step_of_bus {s : State} {d : Descriptor} {w : Word} (h : s.inputs.head? = some (.bus d w)) :
    ∃ rest, step s = hostTurn d w (s.setInputs rest) := by
  obtain ⟨rest, hin⟩ := List.head?_eq_some_iff.1 h
  exact ⟨rest, step_cons hin⟩

/-- The step performs a reset at the head of the interleaving. -/
theorem step_of_reset {s : State} (h : s.inputs.head? = some .reset) :
    ∃ rest, step s = .next (resetStep (s.setInputs rest)) := by
  obtain ⟨rest, hin⟩ := List.head?_eq_some_iff.1 h
  exact ⟨rest, step_cons hin⟩

end Sys2Proof.Machine
end

section
/-! PROOFS. The invariants of R37 hold after reset (O46), and every step keeps them (O47): a start establishes them,
a host transaction that starts nothing leaves the engine, and each micro-step is checked once. -/

namespace Sys2Proof.Machine

/-! ### What the invariants rest on -/

/-- The fields that say which error is recorded (R37(f), R202). -/
abbrev ErrorsFit (r : Regs) : Prop :=
  (r.err = false → r.errcode = 0#4) ∧ (r.err = true → 1 ≤ r.errcode.toNat ∧ r.errcode.toNat ≤ 5)

/-- The invariants speak of the parameters, the stores, the engine and the recorded error alone. -/
theorem Inv.of_eng_eq {s t : State} (hs : Inv s) (hcfg : t.cfg = s.cfg) (heng : t.eng = s.eng) (hwf : t.mem.wf)
    (hwithin : t.mem.within s.cfg) (herr : ErrorsFit t.regs) : Inv t where
  config := hcfg ▸ hs.config
  canonical := hwf
  within := hcfg ▸ hwithin
  block := heng ▸ hs.block
  round := heng ▸ hs.round
  halves := heng ▸ hs.halves
  operands hb := by
    have h := hs.operands (State.busy_congr heng ▸ hb)
    simpa [OperandsFit, hcfg, heng] using h
  noError := herr.1
  someError := herr.2

/-- The recorded error after a host transaction is 0 or one of 1 to 5. -/
theorem errorsFit_of_hostTurn {d : Descriptor} {w : Word} {s t : State} (hs : ErrorsFit s.regs)
    (h : hostTurn d w s = .next t) : ErrorsFit t.regs := by
  rcases hostTurn_err h with ⟨herr, hcode⟩ | ⟨-, herr, e, hcode⟩ | ⟨-, -, herr, hcode⟩
  · simpa only [ErrorsFit, herr, hcode] using hs
  · exact ⟨by simp [herr], fun _ => hcode ▸ errorCode_bounds e⟩
  · exact ⟨fun _ => hcode, by simp [herr]⟩

/-- A host transaction keeps memory canonical and within the capacities. -/
theorem hostTurn_keeps_memory_form {d : Descriptor} {w : Word} {s t : State} (h : hostTurn d w s = .next t)
    (hwf : s.mem.wf) (hwithin : s.mem.within s.cfg) : t.mem.wf ∧ t.mem.within s.cfg := by
  rcases hostTurn_mem h with hmem | ⟨sp, n, -, hn, hmem, -⟩
  · exact hmem ▸ ⟨hwf, hwithin⟩
  · exact hmem ▸ ⟨putByte_wf hwf _ _ _, putByte_within hwithin hn _⟩

/-- An engine turn keeps memory canonical and within the capacities. -/
theorem engineTurn_keeps_memory_form {s t : State} (h : engineTurn s = .next t)
    (hwf : s.mem.wf) (hwithin : s.mem.within s.cfg) : t.mem.wf ∧ t.mem.within s.cfg := by
  rcases engineTurn_next h with ⟨-, rfl⟩ | ⟨-, b, -, rfl⟩ | ⟨-, k, -, rfl⟩ | ⟨-, u, hu, rfl⟩ | ⟨-, rfl⟩
  · exact ⟨hwf, hwithin⟩
  · exact ⟨hwf, hwithin⟩
  · exact ⟨hwf, hwithin⟩
  · obtain ⟨hcfg, -⟩ := storeBytes_ok hu
    obtain ⟨huwf, huwithin⟩ := storeBytes_mem hu hwf hwithin
    exact ⟨huwf, huwithin⟩
  · exact ⟨hwf, hwithin⟩

/-! ### The start of an operation -/

/-- An accepted command latches its operands exactly (R145): they fit the 13 bits of E.nk and E.nb. -/
theorem startOp_counts {s : State} (cmd : Command) (hc : s.cfg.Valid) (ha : Accepts s) :
    (startOp cmd s).eng.nk.toNat = s.regs.keylen.toNat ∧
      (startOp cmd s).eng.nb.toNat = blockCount s cmd.mode := by
  obtain ⟨⟨-, hk⟩, -, hb⟩ := hc
  obtain ⟨-, hlen, hkeylen⟩ := ha
  have hcount : blockCount s cmd.mode ≤ s.regs.len.toNat := Nat.div_le_self _ _
  simp only [startOp_eng, BitVec.toNat_ofNat]
  exact ⟨Nat.mod_eq_of_lt (by omega), Nat.mod_eq_of_lt (by omega)⟩

/-- R37(e) at the start. -/
theorem operandsFit_startOp {s : State} (cmd : Command) (hc : s.cfg.Valid) (ha : Accepts s) :
    OperandsFit (startOp cmd s).okay := by
  obtain ⟨hnk, hnb⟩ := startOp_counts cmd hc ha
  obtain ⟨-, hlen, hkeylen⟩ := ha
  refine ⟨hnk.trans_le hkeylen, ?_⟩
  show (startOp cmd s).eng.nb.toNat * blockSize cmd.mode ≤ s.cfg.bufMax
  rw [hnb]
  exact (Nat.div_mul_le_self _ _).trans hlen

/-- An accepted command starts in FETCH with a block to do, or in FINISH (R145). -/
theorem inv_startOp {s : State} (cmd : Command) (hs : Inv s) (ha : Accepts s) : Inv (startOp cmd s).okay := by
  obtain ⟨-, hnb⟩ := startOp_counts cmd hs.config ha
  have hfsm : (startOp cmd s).okay.eng.fsm = if blockCount s cmd.mode = 0 then .finish else .fetch := rfl
  refine ⟨hs.config, hs.canonical, hs.within, fun hf => ?_, fun hf => ?_, fun hf => ?_,
    fun _ => operandsFit_startOp cmd hs.config ha, hs.noError, hs.someError⟩
  · show 0 < (startOp cmd s).eng.nb.toNat
    rw [hnb]
    by_contra hzero
    simp [Nat.eq_zero_of_not_pos hzero] at hf
  · rw [hfsm] at hf
    split at hf <;> cases hf
  · rw [hfsm] at hf
    split at hf <;> rcases hf with hf | hf <;> cases hf

/-! ### The halves of a block -/

/-- The halves of a block have the width of its mode (R130, R37(d)). -/
theorem split_nibble_le (x : Byte) : (split (.nibble x)).l.toNat ≤ 0x0F ∧ (split (.nibble x)).r.toNat ≤ 0x0F := by
  simp only [split, BitVec.toNat_setWidth, BitVec.extractLsb'_toNat]
  omega

/-- The XOR of a nibble with a masked diffusion value is a nibble (R147, R37(d)). -/
theorem xor_halfMask_nibble_le {l : Byte} (hl : l.toNat ≤ 0x0F) (f : Byte) :
    (l ^^^ (f &&& halfMask .nibble)).toNat ≤ 0x0F := by
  have hf : (f &&& halfMask .nibble).toNat ≤ 0x0F := by
    rw [BitVec.toNat_and]
    exact Nat.and_le_right
  rw [BitVec.toNat_xor]
  have := Nat.xor_lt_two_pow (n := 4) (Nat.lt_succ_of_le hl) (Nat.lt_succ_of_le hf)
  omega

/-- A counter below a bound moves to the bound or stays below it. -/
theorem count_succ_lt {a b : Count} (h : a.toNat < b.toNat) (hne : a + 1#13 ≠ b) : (a + 1#13).toNat < b.toNat := by
  bv_omega

/-! ### The engine's turn -/

/-- R37(b) to (d) are kept by every micro-step. -/
theorem engineTurn_keeps_engine_invariants {s t : State} (hs : Inv s) (h : engineTurn s = .next t) :
    (t.eng.fsm = .fetch ∨ t.eng.fsm = .round ∨ t.eng.fsm = .store → t.eng.bi.toNat < t.eng.nb.toNat) ∧
    (t.eng.fsm = .round → t.eng.rc.toNat < t.eng.nk.toNat) ∧
    (t.eng.fsm = .round ∨ t.eng.fsm = .store → t.eng.mode = .nibble →
      t.eng.l.toNat ≤ 0x0F ∧ t.eng.r.toNat ≤ 0x0F) := by
  rcases engineTurn_next h with ⟨-, rfl⟩ | ⟨hf, b, hb, rfl⟩ | ⟨hf, k, -, rfl⟩ | ⟨hf, u, -, rfl⟩ | ⟨-, rfl⟩
  · exact ⟨hs.block, hs.round, hs.halves⟩
  · refine ⟨fun _ => hs.block (.inl hf), fun hr => ?_, fun _ hm => ?_⟩
    · have hnk : s.eng.nk ≠ 0#13 := fun h0 => by simp [h0] at hr
      show 0 < s.eng.nk.toNat
      bv_omega
    · rcases fetchBlock_ok.1 hb with ⟨-, x, -, rfl⟩ | ⟨hbyte, -⟩
      · exact split_nibble_le x
      · exact absurd (hbyte.symm.trans hm) (by decide)
  · refine ⟨fun _ => hs.block (.inr (.inl hf)), fun hr => ?_, fun _ hm => ?_⟩
    · exact count_succ_lt (hs.round hf) fun hend => absurd (ite_eq_right_iff.1 hr hend) (by decide)
    · have hm' : s.eng.mode = .nibble := hm
      obtain ⟨hl, hr⟩ := hs.halves (.inl hf) hm'
      simp only [afterRound_eng, hm']
      exact ⟨hr, xor_halfMask_nibble_le hl _⟩
  · refine ⟨fun hf' => ?_, fun hr => ?_, fun hr => ?_⟩
    · refine count_succ_lt (hs.block (.inr (.inr hf))) fun (hend : s.eng.bi + 1#13 = s.eng.nb) => ?_
      simp [if_pos hend] at hf'
    · simp only [State.setEngine_eng] at hr
      split at hr <;> cases hr
    · simp only [State.setEngine_eng] at hr
      split at hr <;> rcases hr with hr | hr <;> cases hr
  · simp

/-- An engine turn keeps R37(e), which speaks of nothing it writes. -/
theorem engineTurn_keeps_operandsFit {s t : State} (h : engineTurn s = .next t) (ho : OperandsFit s) :
    OperandsFit t := by
  obtain ⟨hcfg, -, hmode, hnk, hnb⟩ := engineTurn_latched h
  simpa [OperandsFit, hcfg, hmode, hnk, hnb] using ho

/-- An engine that is busy after its turn was busy before it (R150). -/
theorem busy_of_engineTurn {s t : State} (h : engineTurn s = .next t) (hb : t.busy = true) : s.busy = true := by
  rw [State.busy_eq_true] at hb ⊢
  intro hidle
  rcases engineTurn_next h with ⟨-, rfl⟩ | ⟨hf, -⟩ | ⟨hf, -⟩ | ⟨hf, -⟩ | ⟨hf, -⟩
  · exact hb hidle
  all_goals rw [hidle] at hf; cases hf

theorem engineTurn_keeps_inv {s t : State} (hs : Inv s) (h : engineTurn s = .next t) : Inv t := by
  obtain ⟨hcfg, -⟩ := engineTurn_latched h
  obtain ⟨hwf, hwithin⟩ := engineTurn_keeps_memory_form h hs.canonical hs.within
  obtain ⟨hblock, hround, hhalves⟩ := engineTurn_keeps_engine_invariants hs h
  obtain ⟨herr, hcode⟩ := engineTurn_err h
  exact ⟨hcfg ▸ hs.config, hwf, hcfg ▸ hwithin, hblock, hround, hhalves,
    fun hb => engineTurn_keeps_operandsFit h (hs.operands (busy_of_engineTurn h hb)),
    fun he => hcode ▸ hs.noError (herr ▸ he), fun he => hcode ▸ hs.someError (herr ▸ he)⟩

/-! ### The host's turn -/

theorem hostTurn_keeps_inv {d : Descriptor} {w : Word} {s t : State} (hs : Inv s) (h : hostTurn d w s = .next t) :
    Inv t := by
  rcases hostTurn_starts_or_keeps h with ⟨-, cmd, hacc, rfl⟩ | ⟨heng, -⟩
  · exact inv_startOp cmd hs hacc
  · obtain ⟨hwf, hwithin⟩ := hostTurn_keeps_memory_form h hs.canonical hs.within
    exact hs.of_eng_eq (hostTurn_cfg h) heng hwf hwithin (errorsFit_of_hostTurn ⟨hs.noError, hs.someError⟩ h)

/-- A host transaction keeps R37(e), and an accepted command establishes it. -/
theorem hostTurn_keeps_operandsFit {d : Descriptor} {w : Word} {s t : State} (hc : s.cfg.Valid)
    (h : hostTurn d w s = .next t) (ho : OperandsFit s) : OperandsFit t := by
  rcases hostTurn_starts_or_keeps h with ⟨-, cmd, hacc, rfl⟩ | ⟨heng, -⟩
  · exact operandsFit_startOp cmd hc hacc
  · simpa [OperandsFit, hostTurn_cfg h, heng] using ho

/-! ### Reset and the step -/

/-- A state with the reset registers and stores meets the invariants under any parameters in range and with any idle
engine. -/
theorem inv_of_reset {s : State} (hc : s.cfg.Valid) (hr : s.regs = Regs.reset) (hm : s.mem = Memory.reset)
    (hf : s.eng.fsm = .idle) : Inv s where
  config := hc
  canonical := hm ▸ reset_mem_wf
  within := hm ▸ reset_mem_within s.cfg
  block := by simp [hf]
  round := by simp [hf]
  halves := by simp [hf]
  operands hb := absurd hf ((State.busy_eq_true s).1 hb)
  noError _ := hr ▸ rfl
  someError he := absurd (hr ▸ he : Regs.reset.err = true) (by decide)

/-- The entry that a step takes is no part of what the invariants speak of. -/
theorem Inv.setInputs {s : State} (hs : Inv s) (rest : List Input) : Inv (s.setInputs rest) :=
  ⟨hs.config, hs.canonical, hs.within, hs.block, hs.round, hs.halves, hs.operands, hs.noError, hs.someError⟩

/-- Settles O47: R37 through each of the three turns of a step. -/
theorem stepKeepsTheInvariants : Obligations.StepKeepsTheInvariants := by
  intro s t hs h
  rcases step_next h with ⟨-, rest, h⟩ | ⟨hin, rest, rfl⟩ | ⟨d, w, rest, -, h⟩
  · exact ⟨engineTurn_keeps_inv (hs.setInputs rest) h, fun ho _ => engineTurn_keeps_operandsFit h ho⟩
  · exact ⟨inv_of_reset hs.config rfl rfl rfl, fun _ hne => absurd hin hne⟩
  · have hs' := hs.setInputs rest
    exact ⟨hostTurn_keeps_inv hs' h, fun ho _ => hostTurn_keeps_operandsFit hs'.config h ho⟩

theorem default_valid : Config.default.Valid := by decide

/-- Settles O46: no invariant speaks of the other registers of an idle engine. -/
theorem resetMeetsTheInvariants : Obligations.ResetMeetsTheInvariants :=
  ⟨inv_of_reset default_valid rfl rfl rfl, fun _ he => inv_of_reset default_valid rfl rfl he⟩

end Sys2Proof.Machine
end

section
/-! PROOFS. Engine registers that nothing has written reach no output (O54). SameButUnread is kept by each named
operation, and each operation's checks and reads answer alike on two related states; so every instruction and every
micro-step gives related outcomes. -/

namespace Sys2Proof.Machine

/-! ### The relation under the operations -/

theorem SameButUnread.refl (s : State) : SameButUnread s s := by
  constructor <;> simp

theorem SameOutcome.refl : ∀ o : Outcome, SameOutcome o o
  | .next u => SameButUnread.refl u
  | .fault _ => rfl
  | .refused _ => rfl

/-- In ROUND and STORE every engine register has been written, so related states are equal. -/
theorem SameButUnread.eq_of_working {s t : State} (h : SameButUnread s t)
    (hf : s.eng.fsm = .round ∨ s.eng.fsm = .store) : t = s := by
  obtain ⟨hdir, hmode, hnk, hnb, hbi⟩ := h.latched (by rcases hf with hf | hf <;> simp [hf])
  obtain ⟨hrc, hl, hr⟩ := h.working hf
  obtain ⟨hcfg, hregs, hmem, hinputs, hresp, hfsm, -, -⟩ := h
  obtain ⟨_, _, _, ⟨⟩, _, _⟩ := s
  obtain ⟨_, _, _, ⟨⟩, _, _⟩ := t
  simp_all

section
variable {s t : State} (h : SameButUnread s t)
include h

theorem SameButUnread.busy : t.busy = s.busy := by simp [State.busy, h.fsm]

theorem SameButUnread.memRead (sp : Space) (i : Nat) : memRead t sp i = memRead s sp i := by
  simp [Machine.memRead, State.byteAt, h.cfg, h.mem]

theorem SameButUnread.statusWord : statusWord t = statusWord s := by
  simp [Machine.statusWord, h.busy, h.regs]

theorem SameButUnread.blockCount (m : BlockMode) : blockCount t m = blockCount s m := by
  simp [Machine.blockCount, h.regs]

theorem SameButUnread.setInputs (l : List Input) : SameButUnread (s.setInputs l) (t.setInputs l) :=
  { h with inputs := rfl }

theorem SameButUnread.respond (r : Resp) (w : Word) : SameButUnread (s.respond r w) (t.respond r w) :=
  { h with resp := rfl }

theorem SameButUnread.setLen (w : Word) : SameButUnread (s.setLen w) (t.setLen w) :=
  { h with regs := by simp [State.setLen, h.regs] }

theorem SameButUnread.setKeylen (w : Word) : SameButUnread (s.setKeylen w) (t.setKeylen w) :=
  { h with regs := by simp [State.setKeylen, h.regs] }

theorem SameButUnread.setDone (b : Bool) : SameButUnread (s.setDone b) (t.setDone b) :=
  { h with regs := by simp [State.setDone, h.regs] }

theorem SameButUnread.setErr (b : Bool) (c : BitVec 4) : SameButUnread (s.setErr b c) (t.setErr b c) :=
  { h with regs := by simp [State.setErr, h.regs] }

theorem SameButUnread.putByte (sp : Space) (i : Nat) (v : Byte) :
    SameButUnread (s.putByte sp i v) (t.putByte sp i v) :=
  { h with mem := by simp [h.mem] }

theorem SameButUnread.flagError (e : IfaceError) : SameButUnread (flagError e s) (flagError e t) := by
  unfold Machine.flagError
  rw [h.regs]
  split
  · exact h
  · exact h.setErr _ _

theorem SameButUnread.clearDone (w : Word) : SameButUnread (clearDone w s) (clearDone w t) := by
  unfold Machine.clearDone
  split
  · exact h.setDone _
  · exact h

theorem SameButUnread.clearErr (w : Word) : SameButUnread (clearErr w s) (clearErr w t) := by
  unfold Machine.clearErr
  split
  · exact h.setErr _ _
  · exact h

/-- A start latches every operand and leaves only E.rc, E.L and E.R unwritten, outside ROUND and STORE (R145). -/
theorem SameButUnread.startOp (cmd : Command) : SameButUnread (startOp cmd s) (startOp cmd t) :=
  { h with
    regs := by simp [h.regs]
    fsm := by simp [h.blockCount]
    latched := fun _ => by simp [h.blockCount, h.regs]
    working := fun hf => by
      rw [startOp_eng] at hf
      split at hf <;> rcases hf with hf | hf <;> cases hf }

/-! ### The instructions -/

theorem lockout_sameOutcome {a b : Outcome} (hab : SameOutcome a b) : SameOutcome (lockout s a) (lockout t b) := by
  unfold lockout
  rw [h.busy]
  split
  · exact (h.flagError _).respond _ _
  · exact hab

theorem windowAccess_sameOutcome (sp : Space) (i : Index) {a b : Outcome} (hab : SameOutcome a b) :
    SameOutcome (windowAccess sp i s a) (windowAccess sp i t b) := by
  unfold windowAccess
  rw [h.cfg]
  split
  · exact lockout_sameOutcome h hab
  · exact h.respond _ _

theorem windowRead_sameOutcome (sp : Space) (i : Index) : SameOutcome (windowRead sp i s) (windowRead sp i t) := by
  refine windowAccess_sameOutcome h sp i ?_
  rw [h.memRead]
  split
  · exact h.respond _ _
  · rfl

theorem windowWrite_sameOutcome (sp : Space) (i : Index) (d : Word) :
    SameOutcome (windowWrite sp i d s) (windowWrite sp i d t) := by
  refine windowAccess_sameOutcome h sp i ?_
  unfold memWrite
  rw [h.cfg]
  split_ifs
  · exact (h.putByte _ _ _).respond _ _
  · rfl

theorem writeCommand_sameOutcome (v : Option Command) : SameOutcome (writeCommand v s) (writeCommand v t) := by
  unfold writeCommand
  rw [h.busy, h.cfg, h.regs]
  split
  · exact (h.flagError _).respond _ _
  · split
    · exact (h.flagError _).respond _ _
    · split
      · exact (h.flagError _).respond _ _
      · split
        · exact (h.flagError _).respond _ _
        · exact (h.startOp _).respond _ _

/-- A multiplier reads the engine in ROUND alone, where related states are equal. -/
theorem inRound_sameOutcome (m : BlockMode) (mul : Byte → Byte → Byte) :
    SameOutcome (inRound m s mul) (inRound m t mul) := by
  by_cases hf : s.eng.fsm = .round
  · rw [h.eq_of_working (.inl hf)]
    exact SameOutcome.refl _
  · simp only [inRound, h.fsm, hf, false_and, if_false]
    exact h

theorem exec_sameOutcome (i : Instr) : SameOutcome (exec i s) (exec i t) := by
  have hanswer : ∀ {r : Resp} {v w : Word}, w = v → SameOutcome (.next (s.respond r v)) (.next (t.respond r w)) :=
    fun hw => hw ▸ h.respond _ _
  cases i with
  | encrypt m => exact writeCommand_sameOutcome h (some { dir := .enc, mode := m })
  | decrypt m => exact writeCommand_sameOutcome h (some { dir := .dec, mode := m })
  | gfmul4 => exact inRound_sameOutcome h _ _
  | gfmul8 => exact inRound_sameOutcome h _ _
  | wrCmd d => exact writeCommand_sameOutcome h _
  | rdCmd => exact hanswer rfl
  | wrStatus d => exact ((h.clearDone d).clearErr d).respond _ _
  | rdStatus => exact hanswer h.statusWord
  | wrLen d => exact lockout_sameOutcome h ((h.setLen d).respond _ _)
  | rdLen => exact hanswer (by rw [h.regs])
  | wrKeylen d => exact lockout_sameOutcome h ((h.setKeylen d).respond _ _)
  | rdKeylen => exact hanswer (by rw [h.regs])
  | wrOutlen d => exact hanswer rfl
  | rdOutlen => exact hanswer (by rw [h.regs])
  | wrbKey n d => exact windowWrite_sameOutcome h _ _ _
  | rdbKey n => exact windowRead_sameOutcome h _ _
  | wrbIbuf n d => exact windowWrite_sameOutcome h _ _ _
  | rdbIbuf n => exact windowRead_sameOutcome h _ _
  | wrbObuf n d => exact windowAccess_sameOutcome h _ _ (h.respond _ _)
  | rdbObuf n => exact windowRead_sameOutcome h _ _

/-! ### The turns -/

theorem hostTurn_sameOutcome (d : Descriptor) (w : Word) : SameOutcome (hostTurn d w s) (hostTurn d w t) := by
  unfold hostTurn
  rw [h.cfg]
  split
  · exact exec_sameOutcome h _
  · exact h.respond _ _

/-- FETCH reads E.mode and E.bi, which the start has written (R145, R146). -/
theorem SameButUnread.fetchBlock (hf : s.eng.fsm = .fetch) : fetchBlock t = fetchBlock s := by
  obtain ⟨-, hmode, -, -, hbi⟩ := h.latched (by simp [hf])
  simp [Machine.fetchBlock, h.memRead, hmode, hbi]

/-- FETCH writes E.rc, E.L and E.R, which nothing has read since the start (R146). -/
theorem microFetch_sameOutcome (hf : s.eng.fsm = .fetch) : SameOutcome (microFetch s) (microFetch t) := by
  obtain ⟨hdir, hmode, hnk, hnb, hbi⟩ := h.latched (by simp [hf])
  unfold microFetch
  rw [h.fetchBlock hf]
  split
  · rfl
  · exact { h with
      fsm := by simp [hnk]
      latched := fun _ => ⟨hdir, hmode, hnk, hnb, hbi⟩
      working := fun _ => ⟨rfl, rfl, rfl⟩ }

/-- FINISH publishes from E.nb and E.mode and goes to IDLE, where nothing reads the engine (R149, R150). -/
theorem microFinish_sameOutcome (hf : s.eng.fsm = .finish) : SameOutcome (microFinish s) (microFinish t) := by
  obtain ⟨-, hmode, -, hnb, -⟩ := h.latched (by simp [hf])
  exact { h with
    regs := by simp [State.setDone, State.setOutlen, h.regs, hmode, hnb]
    fsm := rfl
    latched := fun hne => absurd rfl hne
    working := fun hw => by rcases hw with hw | hw <;> cases hw }

theorem engineTurn_sameOutcome : SameOutcome (engineTurn s) (engineTurn t) := by
  cases hf : s.eng.fsm with
  | idle =>
    simp only [engineTurn, h.fsm, hf]
    exact h
  | fetch =>
    simp only [engineTurn, h.fsm, hf]
    exact microFetch_sameOutcome h hf
  | round =>
    rw [h.eq_of_working (.inl hf)]
    exact SameOutcome.refl _
  | store =>
    rw [h.eq_of_working (.inr hf)]
    exact SameOutcome.refl _
  | finish =>
    simp only [engineTurn, h.fsm, hf]
    exact microFinish_sameOutcome h hf

/-- A reset writes every register, so it leaves related states equal (R230). -/
theorem resetStep_sameOutcome : SameOutcome (.next (resetStep s)) (.next (resetStep t)) := by
  have heq : resetStep t = resetStep s := by simp [resetStep, h.cfg, h.inputs]
  exact heq ▸ SameOutcome.refl _

theorem turn_sameOutcome (inp : Input) : SameOutcome (turn inp s) (turn inp t) := by
  cases inp with
  | bus d w => exact hostTurn_sameOutcome h d w
  | engine => exact engineTurn_sameOutcome h
  | reset => exact resetStep_sameOutcome h

end

/-- Settles O54: both states take the same entry of the interleaving, and its turn gives related outcomes. -/
theorem unreadEngineRegistersAreUnobservable : Obligations.UnreadEngineRegistersAreUnobservable := by
  intro s t h
  cases hin : s.inputs with
  | nil =>
    rw [step_nil hin, step_nil (h.inputs.trans hin)]
    exact engineTurn_sameOutcome h
  | cons inp rest =>
    rw [step_cons hin, step_cons (h.inputs.trans hin)]
    exact turn_sameOutcome (h.setInputs rest) inp

end Sys2Proof.Machine
end

section
/-! PROOFS. The registers after reset (O9), what each instruction can do to them (O35), and who writes STATUS.DONE,
STATUS.ERR with ERRCODE, and OUTLEN over every step (O48 to O50). -/

namespace Sys2Proof.Machine

/-- Settles O9: R40's table, with no byte defined. -/
theorem resetStateHasTheSpecValues : Obligations.ResetStateHasTheSpecValues := by
  refine ⟨rfl, rfl, rfl, rfl, rfl, rfl, rfl, rfl, fun sp i => ?_⟩
  cases sp <;> rfl

/-! ### The instructions' effect on the registers -/

/-- The instructions that give the core a command word: the two command words and the write to CMD (R172). -/
abbrev IsCommand (i : Instr) : Prop := (∃ m, i = .encrypt m ∨ i = .decrypt m) ∨ ∃ w, i = .wrCmd w

/-- The instructions that record no error, BUSY or not (R175 to R181, R188). -/
abbrev RecordsNoError (i : Instr) : Prop :=
  i ∈ [.gfmul4, .gfmul8, .rdCmd, .rdStatus, .rdLen, .rdKeylen, .rdOutlen] ∨ ∃ w, i = .wrOutlen w

/-- What an instruction's next state can be, as far as the registers and the engine go. -/
inductive RegisterEffect (s : State) : Instr → State → Prop
  /-- Nothing but the response and store bytes. -/
  | none {i : Instr} {t : State} (hregs : t.regs = s.regs) (heng : t.eng = s.eng) : RegisterEffect s i t
  /-- A command is refused with an error, or starts (R145, R172). -/
  | command {i : Instr} {t : State} (hi : IsCommand i) (hlen : t.regs.len = s.regs.len)
      (hkeylen : t.regs.keylen = s.regs.keylen) : RegisterEffect s i t
  /-- The lockout refuses a mapped access (R188). -/
  | lockedOut {i : Instr} (hbusy : s.busy = true) (hwf : i.wellFormed s.cfg = true) (hrec : ¬RecordsNoError i) :
      RegisterEffect s i (flagError .accessBusy s).okay
  | statusWrite (w : Word) : RegisterEffect s (.wrStatus w) (clearErr w (clearDone w s)).okay
  | lenWrite (w : Word) : RegisterEffect s (.wrLen w) (s.setLen w).okay
  | keylenWrite (w : Word) : RegisterEffect s (.wrKeylen w) (s.setKeylen w).okay
  /-- A multiplier takes effect in ROUND on the engine (log entry 7). -/
  | multiplied {i : Instr} {t : State} (hi : i = .gfmul4 ∨ i = .gfmul8) (hregs : t.regs = s.regs) :
      RegisterEffect s i t

theorem registerEffect_of_writeCommand {v : Option Command} {s t : State} {i : Instr} (hi : IsCommand i)
    (h : writeCommand v s = .next t) : RegisterEffect s i t := by
  rcases writeCommand_next h with ⟨e, rfl⟩ | ⟨cmd, -, -, -, -, rfl⟩
  · exact .command hi (by simp) (by simp)
  · exact .command hi rfl rfl

theorem registerEffect_of_inRound {m : BlockMode} {mul : Byte → Byte → Byte} {s t : State} {i : Instr}
    (hi : i = .gfmul4 ∨ i = .gfmul8) (h : inRound m s mul = .next t) : RegisterEffect s i t := by
  rcases inRound_next h with ⟨-, -, k, -, rfl⟩ | ⟨-, rfl⟩
  · exact .multiplied hi rfl
  · exact .none rfl rfl

/-- A window transaction that changes no register while idle changes one only by the lockout. -/
theorem registerEffect_of_windowAccess {sp : Space} {n : Index} {s t : State} {idle : Outcome} {i : Instr}
    (hwf : n.toNat < s.cfg.capacity sp → i.wellFormed s.cfg = true) (hrec : ¬RecordsNoError i)
    (hidle : idle = .next t → t.regs = s.regs ∧ t.eng = s.eng) (h : windowAccess sp n s idle = .next t) :
    RegisterEffect s i t := by
  rcases windowAccess_next h with ⟨-, rfl⟩ | ⟨hn, hbusy, rfl⟩ | ⟨-, -, h⟩
  · exact .none rfl rfl
  · exact .lockedOut hbusy (hwf hn) hrec
  · obtain ⟨hregs, heng⟩ := hidle h
    exact .none hregs heng

theorem registerEffect_of_windowRead {sp : Space} {n : Index} {s t : State} {i : Instr}
    (hwf : n.toNat < s.cfg.capacity sp → i.wellFormed s.cfg = true) (hrec : ¬RecordsNoError i)
    (h : windowRead sp n s = .next t) : RegisterEffect s i t := by
  refine registerEffect_of_windowAccess hwf hrec (fun hidle => ?_) h
  split at hidle
  · injection hidle with hidle
    exact hidle ▸ ⟨rfl, rfl⟩
  · cases hidle

theorem registerEffect_of_windowWrite {sp : Space} {n : Index} {d : Word} {s t : State} {i : Instr}
    (hwf : n.toNat < s.cfg.capacity sp → i.wellFormed s.cfg = true) (hrec : ¬RecordsNoError i)
    (h : windowWrite sp n d s = .next t) : RegisterEffect s i t := by
  refine registerEffect_of_windowAccess hwf hrec (fun hidle => ?_) h
  split at hidle
  · rename_i u hu
    injection hidle with hidle
    obtain ⟨-, rfl⟩ := memWrite_ok.1 hu
    exact hidle ▸ ⟨rfl, rfl⟩
  · cases hidle

/-- Every instruction has one of the effects. -/
theorem registerEffect_of_exec {i : Instr} {s t : State} (h : exec i s = .next t) : RegisterEffect s i t := by
  have answer : ∀ {j : Instr} {r : Resp} {w : Word}, Host.Outcome.next (s.respond r w) = (.next t : Outcome) →
      RegisterEffect s j t := by
    intro j r w h
    injection h with h
    exact h ▸ .none rfl rfl
  cases i with
  | encrypt m => exact registerEffect_of_writeCommand (v := some { dir := .enc, mode := m }) (.inl ⟨m, .inl rfl⟩) h
  | decrypt m => exact registerEffect_of_writeCommand (v := some { dir := .dec, mode := m }) (.inl ⟨m, .inr rfl⟩) h
  | gfmul4 => exact registerEffect_of_inRound (.inl rfl) h
  | gfmul8 => exact registerEffect_of_inRound (.inr rfl) h
  | wrCmd w => exact registerEffect_of_writeCommand (.inr ⟨w, rfl⟩) h
  | rdCmd => exact answer h
  | wrStatus w =>
    injection h with h
    exact h ▸ .statusWrite w
  | rdStatus => exact answer h
  | wrLen w =>
    rcases lockout_next h with ⟨hbusy, rfl⟩ | ⟨-, h⟩
    · exact .lockedOut hbusy rfl (by simp)
    · injection h with h
      exact h ▸ .lenWrite w
  | rdLen => exact answer h
  | wrKeylen w =>
    rcases lockout_next h with ⟨hbusy, rfl⟩ | ⟨-, h⟩
    · exact .lockedOut hbusy rfl (by simp)
    · injection h with h
      exact h ▸ .keylenWrite w
  | rdKeylen => exact answer h
  | wrOutlen w => exact answer h
  | rdOutlen => exact answer h
  | wrbKey n w => exact registerEffect_of_windowWrite decide_eq_true (by simp) h
  | rdbKey n => exact registerEffect_of_windowRead decide_eq_true (by simp) h
  | wrbIbuf n w => exact registerEffect_of_windowWrite decide_eq_true (by simp) h
  | rdbIbuf n => exact registerEffect_of_windowRead decide_eq_true (by simp) h
  | wrbObuf n w =>
    refine registerEffect_of_windowAccess decide_eq_true (by simp) (fun hidle => ?_) h
    injection hidle with hidle
    exact hidle ▸ ⟨rfl, rfl⟩
  | rdbObuf n => exact registerEffect_of_windowRead decide_eq_true (by simp) h

/-- A command records errors, and its form is well-formed under every parameter. -/
theorem IsCommand.records_and_wellFormed {i : Instr} (h : IsCommand i) (c : Config) :
    ¬RecordsNoError i ∧ i.wellFormed c = true := by
  rcases h with ⟨m, rfl | rfl⟩ | ⟨w, rfl⟩ <;> exact ⟨by simp, rfl⟩

/-- Settles O35: the frame, read off the effect of the instruction. -/
theorem instructionsKeepRegisters : Obligations.InstructionsKeepRegisters := by
  intro i s t h
  cases registerEffect_of_exec h with
  | none hregs heng => simp [hregs, heng]
  | command hi hlen hkeylen =>
    obtain ⟨hrec, hwf⟩ := hi.records_and_wellFormed s.cfg
    exact ⟨fun _ => hlen, fun _ => hkeylen, fun hc => absurd hi hc, fun hc => absurd hi hc, fun hc => absurd hi hc,
      fun hq => absurd hq hrec, fun hf => absurd (hwf.symm.trans hf) (by decide), fun hc => absurd hi hc⟩
  | lockedOut hbusy hwf hrec =>
    exact ⟨fun _ => by simp, fun _ => by simp, fun _ => by simp, fun _ _ => by simp,
      fun _ _ hidle => absurd (hbusy.symm.trans hidle) (by decide), fun hq => absurd hq hrec,
      fun hf => absurd (hwf.symm.trans hf) (by decide), fun _ _ _ => by simp⟩
  | statusWrite w => simp [Instr.wellFormed]
  | lenWrite w => simp [Instr.wellFormed]
  | keylenWrite w => simp [Instr.wellFormed]
  | multiplied hi hregs => rcases hi with rfl | rfl <;> simp [hregs]

/-! ### ERR and ERRCODE over a step -/

/-- A step keeps ERR and ERRCODE, clears both by reset or a STATUS write with bit 2, or records the first error in a
host transaction (R28, R29). -/
theorem step_err {s t : State} (h : step s = .next t) :
    (t.regs.err = s.regs.err ∧ t.regs.errcode = s.regs.errcode) ∨
    (t.regs.err = false ∧ t.regs.errcode = 0#4 ∧ (s.inputs.head? = some .reset ∨
      ∃ w, s.inputs.head? = some (.bus 0x18004#17 w) ∧ w.getLsbD 2 = true)) ∨
    (s.regs.err = false ∧ t.regs.err = true ∧ (∃ d w, s.inputs.head? = some (.bus d w)) ∧
      ∃ e, t.regs.errcode = errorCode e) := by
  rcases step_next h with ⟨-, rest, h⟩ | ⟨hin, rest, rfl⟩ | ⟨d, w, rest, hin, h⟩
  · have hkept := engineTurn_err h
    exact .inl hkept
  · exact .inr (.inl ⟨rfl, rfl, .inl hin⟩)
  · rcases hostTurn_err h with hkept | ⟨hclear, herr, hcode⟩ | ⟨rfl, hbit, herr, hcode⟩
    · exact .inl hkept
    · exact .inr (.inr ⟨hclear, herr, ⟨d, w, hin⟩, hcode⟩)
    · exact .inr (.inl ⟨herr, hcode, .inr ⟨w, hin, hbit⟩⟩)

/-- Settles O49: each way a step can treat ERR and ERRCODE. -/
theorem firstErrorIsKeptUntilCleared : Obligations.FirstErrorIsKeptUntilCleared := by
  intro s t h
  rcases step_err h with ⟨herr, hcode⟩ | ⟨herr, hcode, hby⟩ | ⟨hbefore, herr, hhost, e, hcode⟩
  · exact ⟨fun _ _ => hcode, fun hset hclear => absurd (hset.symm.trans (herr.symm.trans hclear)) (by decide),
      fun hclear hset => absurd (hclear.symm.trans (herr.symm.trans hset)) (by decide)⟩
  · exact ⟨fun _ h1 => by simp [herr] at h1, fun _ _ => ⟨hcode, hby⟩, fun _ h1 => by simp [herr] at h1⟩
  · exact ⟨fun h1 => by simp [hbefore] at h1, fun h1 => by simp [hbefore] at h1,
      fun _ _ => ⟨hhost, hcode ▸ errorCode_bounds e⟩⟩

/-! ### DONE and OUTLEN over a step -/

/-- The step is FINISH's (R149). -/
abbrev Finishes (s : State) : Prop := s.eng.fsm = .finish ∧ EngineMoves s

/-- The step accepts a command: a write to CMD takes the engine out of IDLE (R172). -/
abbrev AcceptsCommand (s t : State) : Prop :=
  (∃ data, s.inputs.head? = some (.bus 0x18000#17 data)) ∧ s.busy = false ∧ t.busy = true

/-- The step is a STATUS write with bit 1 (R174). -/
abbrev ClearsDone (s : State) : Prop :=
  ∃ data, s.inputs.head? = some (.bus 0x18004#17 data) ∧ data.getLsbD 1 = true

section
variable {s t : State} (h : step s = .next t)
include h

/-- FINISH publishes in a step of the engine. -/
theorem regs_of_finishes (hf : Finishes s) : t.regs.done = true ∧
    t.regs.outlen = BitVec.ofNat 32 (s.eng.nb.toNat * blockSize s.eng.mode) := by
  obtain ⟨hfsm, hmoves⟩ := hf
  obtain ⟨rest, hs⟩ := step_of_engineMoves hmoves
  have hregs := engineTurn_regs (hs.symm.trans h)
  simp only [State.setInputs_eng, hfsm, if_true] at hregs
  exact hregs ▸ ⟨rfl, rfl⟩

/-- The start clears DONE and OUTLEN (R145). -/
theorem regs_of_acceptsCommand (ha : AcceptsCommand s t) : t.regs.done = false ∧ t.regs.outlen = 0#32 := by
  obtain ⟨⟨w, hin⟩, hidle, hbusy⟩ := ha
  obtain ⟨rest, hs⟩ := step_of_bus hin
  rcases hostTurn_starts_or_keeps (hs.symm.trans h) with ⟨-, cmd, -, rfl⟩ | ⟨heng, -⟩
  · exact ⟨rfl, rfl⟩
  · rw [State.busy_congr (s := s) heng, hidle] at hbusy
    cases hbusy

theorem done_of_clearsDone (hc : ClearsDone s) : t.regs.done = false := by
  obtain ⟨w, hin, hbit⟩ := hc
  obtain ⟨rest, hs⟩ := step_of_bus hin
  have hnext := (hostTurn_wrStatus w (s.setInputs rest)).symm.trans (hs.symm.trans h)
  injection hnext with hnext
  simp [← hnext, clearDone_done, hbit]

theorem regs_of_reset (hr : s.inputs.head? = some .reset) : t.regs = Regs.reset := by
  obtain ⟨rest, hs⟩ := step_of_reset hr
  have hnext := hs.symm.trans h
  injection hnext with hnext
  exact hnext ▸ rfl

/-- Any other step keeps OUTLEN, and DONE too unless it clears it. -/
theorem regs_kept (hf : ¬Finishes s) (ha : ¬AcceptsCommand s t) (hr : s.inputs.head? ≠ some .reset) :
    t.regs.outlen = s.regs.outlen ∧ (¬ClearsDone s → t.regs.done = s.regs.done) := by
  rcases step_next h with ⟨hmoves, rest, h⟩ | ⟨hin, -⟩ | ⟨d, w, rest, hin, h⟩
  · have hfsm : s.eng.fsm ≠ .finish := fun hfsm => hf ⟨hfsm, hmoves⟩
    have hregs : t.regs = s.regs := (engineTurn_regs h).trans (if_neg hfsm)
    exact hregs ▸ ⟨rfl, fun _ => rfl⟩
  · exact absurd hin hr
  · rcases hostTurn_starts_or_keeps h with ⟨rfl, cmd, ⟨hidle, -⟩, rfl⟩ | ⟨-, houtlen, hdone⟩
    · exact absurd ⟨⟨w, hin⟩, hidle, startOp_busy cmd _⟩ ha
    · exact ⟨houtlen, fun hc => hdone.trans (if_neg fun ⟨hd, hbit⟩ => hc ⟨w, hd ▸ hin, hbit⟩)⟩

end

/-- Settles O48: the four events one by one, and the rest. -/
theorem doneChangesOnlyByItsFourEvents : Obligations.DoneChangesOnlyByItsFourEvents := by
  intro s t h
  refine ⟨fun hf => (regs_of_finishes h hf).1, ?_, fun hf ha hc hr => (regs_kept h hf ha hr).2 hc⟩
  rintro (ha | hc | hr)
  · exact (regs_of_acceptsCommand h ha).1
  · exact done_of_clearsDone h hc
  · exact regs_of_reset h hr ▸ rfl

/-- An output length fits OUTLEN: E.nb has 13 bits and a block at most two bytes (R32). -/
theorem outputLength_lt (e : Engine) : e.nb.toNat * blockSize e.mode < 2 ^ 32 := by
  have hnb := e.nb.isLt
  cases e.mode <;> simp only [blockSize] <;> omega

/-- Settles O50: FINISH, the start and reset write OUTLEN, and any other step keeps it. -/
theorem outlenChangesOnlyByCommandFinishReset : Obligations.OutlenChangesOnlyByCommandFinishReset := by
  intro s t h
  refine ⟨fun hf => ?_, ?_, fun hf ha hr => (regs_kept h hf ha hr).1⟩
  · rw [(regs_of_finishes h hf).2, BitVec.toNat_ofNat, Nat.mod_eq_of_lt (outputLength_lt s.eng)]
  · rintro (ha | hr)
    · exact (regs_of_acceptsCommand h ha).2
    · exact regs_of_reset h hr ▸ rfl

end Sys2Proof.Machine
end

section
/-! PROOFS. Who writes a store byte (O52), and that no step but reset makes a defined byte undefined (O51). -/

namespace Sys2Proof.Machine

/-- A host transaction leaves a byte, or is the idle write of exactly that byte (R182, R184). -/
theorem hostTurn_byteAt {d : Descriptor} {w : Word} {s t : State} (h : hostTurn d w s = .next t) (sp : Space)
    (i : Nat) :
    t.byteAt sp i = s.byteAt sp i ∨
    (s.busy = false ∧ t.byteAt sp i = some (dataByte w) ∧ ∃ n, n.toNat = i ∧
      ((sp = .key ∧ decodeBus s.cfg d w = .ok (.wrbKey n w)) ∨
        (sp = .ibuf ∧ decodeBus s.cfg d w = .ok (.wrbIbuf n w)))) := by
  rcases hostTurn_mem h with hmem | ⟨sq, n, hidle, -, hmem, hdec⟩
  · exact .inl (byteAt_congr hmem sp i)
  · have hbyte := (byteAt_congr hmem sp i).trans (byteAt_putByte s sq sp n.toNat i (dataByte w))
    by_cases hat : sp = sq ∧ i = n.toNat
    · obtain ⟨rfl, rfl⟩ := hat
      exact .inr ⟨hidle, hbyte.trans (if_pos ⟨rfl, rfl⟩), n, rfl, hdec⟩
    · exact .inl (hbyte.trans (if_neg hat))

/-- Settles O51: a byte that a turn writes is defined after it. -/
theorem definedBytesStayDefined : Obligations.DefinedBytesStayDefined := by
  intro s t h hreset sp i hdef
  rcases step_next h with ⟨-, rest, h⟩ | ⟨hin, -⟩ | ⟨d, w, rest, -, h⟩
  · rcases engineTurn_byteAt h sp i with hkept | ⟨-, -, -, -, hwritten⟩
    · exact hkept ▸ hdef
    · exact hwritten
  · exact absurd hin hreset
  · rcases hostTurn_byteAt h sp i with hkept | ⟨-, hwritten, -⟩
    · exact hkept ▸ hdef
    · simp [hwritten]

/-- Settles O52: the writer of a byte is the turn's. -/
theorem storeBytesChangeOnlyByTheirWriter : Obligations.StoreBytesChangeOnlyByTheirWriter := by
  intro s t sp i h hne
  rcases step_next h with ⟨hmoves, rest, h⟩ | ⟨hin, -⟩ | ⟨d, w, rest, hin, h⟩
  · rcases engineTurn_byteAt h sp i with hkept | ⟨hsp, hfsm, hlow, hhigh, -⟩
    · exact absurd hkept hne
    · exact .inr (.inl ⟨hsp, hmoves, hfsm, hlow, hhigh⟩)
  · exact .inl hin
  · rcases hostTurn_byteAt h sp i with hkept | ⟨hidle, hwritten, n, hn, hdec⟩
    · exact absurd hkept hne
    · exact .inr (.inr ⟨hidle, d, w, n, w, hin, hn, hwritten, hdec⟩)

end Sys2Proof.Machine
end

section
/-! PROOFS. What an engine turn writes (O45): FINISH the registers, STORE the output buffer, and nothing else outside
the engine. -/

namespace Sys2Proof.Machine

/-- Only STORE writes a store, and it writes OBUF (R62, R148). -/
theorem engineTurn_mem {s t : State} (h : engineTurn s = .next t) :
    t.mem.key = s.mem.key ∧ t.mem.ibuf = s.mem.ibuf ∧ (s.eng.fsm ≠ .store → t.mem = s.mem) := by
  rcases engineTurn_next h with ⟨-, rfl⟩ | ⟨-, b, -, rfl⟩ | ⟨-, k, -, rfl⟩ | ⟨hf, u, hu, rfl⟩ | ⟨-, rfl⟩
  · exact ⟨rfl, rfl, fun _ => rfl⟩
  · exact ⟨rfl, rfl, fun _ => rfl⟩
  · exact ⟨rfl, rfl, fun _ => rfl⟩
  · obtain ⟨-, -, -, -, -, hkey, hibuf, -⟩ := storeBytes_ok hu
    exact ⟨hkey, hibuf, fun hne => absurd hf hne⟩
  · exact ⟨rfl, rfl, fun _ => rfl⟩

/-- An engine turn takes no entry of the interleaving and answers no transaction. -/
theorem engineTurn_inputs_resp {s t : State} (h : engineTurn s = .next t) :
    t.inputs = s.inputs ∧ t.resp = s.resp := by
  rcases engineTurn_next h with ⟨-, rfl⟩ | ⟨-, b, -, rfl⟩ | ⟨-, k, -, rfl⟩ | ⟨-, u, hu, rfl⟩ | ⟨-, rfl⟩
  · exact ⟨rfl, rfl⟩
  · exact ⟨rfl, rfl⟩
  · exact ⟨rfl, rfl⟩
  · obtain ⟨-, -, -, hinputs, hresp, -⟩ := storeBytes_ok hu
    exact ⟨hinputs, hresp⟩
  · exact ⟨rfl, rfl⟩

/-- An engine turn leaves LEN and KEYLEN (R30, R31). -/
theorem engineTurn_lengths {s t : State} (h : engineTurn s = .next t) :
    t.regs.len = s.regs.len ∧ t.regs.keylen = s.regs.keylen := by
  rw [engineTurn_regs h]
  split <;> exact ⟨rfl, rfl⟩

/-- Settles O45: the frame of an engine turn, field by field. -/
theorem engineWritesOnlyItsResults : Obligations.EngineWritesOnlyItsResults := by
  intro s t h
  obtain ⟨hkey, hibuf, hmem⟩ := engineTurn_mem h
  obtain ⟨hinputs, hresp⟩ := engineTurn_inputs_resp h
  obtain ⟨hlen, hkeylen⟩ := engineTurn_lengths h
  obtain ⟨herr, hcode⟩ := engineTurn_err h
  obtain ⟨hcfg, -⟩ := engineTurn_latched h
  exact ⟨hkey, hibuf, hlen, hkeylen, herr, hcode, hcfg, hinputs, hresp,
    fun hne => (engineTurn_regs h).trans (if_neg hne), hmem⟩

end Sys2Proof.Machine
end

section
/-! PROOFS. Blocks are transformed one by one (O22). A buffer is a whole block and a rest, or shorter than a block;
the buffer transform takes the block off the front, and so respects a cut at a block boundary. -/

namespace Sys2Proof.Machine

/-! ### Blocks and their bytes -/

@[simp] theorem blockMode_join (m : BlockMode) (h : Halves) : blockMode (join m h) = m := by
  cases m <;> rfl

/-- The block transform keeps the mode (R134). -/
@[simp] theorem blockMode_xblock (d : Dir) (keys : List Byte) (b : Block) :
    blockMode (xblock d keys b) = blockMode b :=
  blockMode_join _ _

/-- A block has as many bytes as its mode says (R12). -/
@[simp] theorem length_blockBytes (b : Block) : (blockBytes b).length = blockSize (blockMode b) := by
  cases b <;> rfl

theorem blockSize_pos (m : BlockMode) : 0 < blockSize m := by cases m <;> decide

/-- A buffer is a whole block and the buffer after it, or fills no block: the shape of R135's recursion. -/
theorem blockwise_induction {m : BlockMode} {P : List Byte → Prop}
    (short : ∀ buf, buf.length < blockSize m → P buf)
    (block : ∀ b rest, blockMode b = m → P rest → P (blockBytes b ++ rest)) (buf : List Byte) : P buf := by
  induction m, buf using partitionBlocks.induct with
  | case1 x rest ih => exact block (.nibble x) rest rfl (ih short block)
  | case2 x0 x1 rest ih => exact block (.byte x0 x1) rest rfl (ih short block)
  | case3 buf m hnibble hbyte =>
    refine short buf ?_
    match m, buf with
    | .nibble, [] | .byte, [] | .byte, [_] => simp [blockSize]
    | .nibble, x :: rest => exact (hnibble x rest rfl rfl).elim
    | .byte, x0 :: x1 :: rest => exact (hbyte x0 x1 rest rfl rfl).elim

/-! ### The buffer transform, block by block -/

/-- A buffer that fills no block has no output (R135). -/
theorem xbuf_short (d : Dir) {m : BlockMode} (keys : List Byte) {buf : List Byte} (h : buf.length < blockSize m) :
    xbuf d m keys buf = [] := by
  match m, buf with
  | .nibble, [] | .byte, [] | .byte, [_] => rfl
  | .nibble, _ :: _ | .byte, _ :: _ :: _ => simp [blockSize] at h

theorem xbuf_nil (d : Dir) (m : BlockMode) (keys : List Byte) : xbuf d m keys [] = [] :=
  xbuf_short d keys (buf := []) (blockSize_pos m)

/-- The first block of a buffer is transformed alone, and the rest as a buffer (R135). -/
theorem xbuf_blockBytes_append (d : Dir) {m : BlockMode} (keys : List Byte) {b : Block} (hb : blockMode b = m)
    (rest : List Byte) :
    xbuf d m keys (blockBytes b ++ rest) = blockBytes (xblock d keys b) ++ xbuf d m keys rest := by
  subst hb
  cases b <;> rfl

/-- A buffer's output is its whole blocks' bytes long (R139). -/
theorem length_xbuf (d : Dir) (m : BlockMode) (keys buf : List Byte) :
    (xbuf d m keys buf).length = buf.length / blockSize m * blockSize m := by
  induction buf using blockwise_induction (m := m) with
  | short buf hlen => simp [xbuf_short d keys hlen, Nat.div_eq_of_lt hlen]
  | block b rest hb ih =>
    rw [xbuf_blockBytes_append d keys hb]
    simp only [List.length_append, length_blockBytes, blockMode_xblock, hb, ih]
    rw [Nat.add_div_left _ (blockSize_pos m), Nat.succ_mul, Nat.add_comm]

/-- A buffer cut at a block boundary is transformed part by part (R77). -/
theorem xbuf_append (d : Dir) {m : BlockMode} (keys : List Byte) {xs : List Byte}
    (h : xs.length % blockSize m = 0) (ys : List Byte) :
    xbuf d m keys (xs ++ ys) = xbuf d m keys xs ++ xbuf d m keys ys := by
  induction xs using blockwise_induction (m := m) with
  | short xs hlen =>
    have hnil : xs = [] := List.eq_nil_of_length_eq_zero ((Nat.mod_eq_of_lt hlen).symm.trans h)
    simp [hnil, xbuf_nil]
  | block b rest hb ih =>
    have hrest : rest.length % blockSize m = 0 := by simpa [hb] using h
    rw [List.append_assoc, xbuf_blockBytes_append d keys hb, xbuf_blockBytes_append d keys hb, ih hrest,
      List.append_assoc]

/-- A cut after `b` blocks of the input is a cut after `b` blocks of the output. -/
theorem xbuf_take_and_drop (d : Dir) {m : BlockMode} (keys : List Byte) {buf : List Byte} {b : Nat}
    (h : b * blockSize m ≤ buf.length) :
    (xbuf d m keys buf).take (b * blockSize m) = xbuf d m keys (buf.take (b * blockSize m)) ∧
      (xbuf d m keys buf).drop (b * blockSize m) = xbuf d m keys (buf.drop (b * blockSize m)) := by
  have hin : (buf.take (b * blockSize m)).length = b * blockSize m := List.length_take_of_le h
  have hout : (xbuf d m keys (buf.take (b * blockSize m))).length = b * blockSize m := by
    rw [length_xbuf, hin, Nat.mul_div_cancel _ (blockSize_pos m)]
  have hcut : xbuf d m keys buf =
      xbuf d m keys (buf.take (b * blockSize m)) ++ xbuf d m keys (buf.drop (b * blockSize m)) := by
    rw [← xbuf_append d keys (by rw [hin, Nat.mul_mod_left]), List.take_append_drop]
  rw [hcut]
  exact ⟨List.take_left' hout, List.drop_left' hout⟩

/-- Output block `b` is the transform of input block `b` (R77): the output is cut before it and after it. -/
theorem xbuf_block (d : Dir) {m : BlockMode} (keys : List Byte) {buf : List Byte} {b : Nat}
    (h : b < buf.length / blockSize m) :
    ((xbuf d m keys buf).drop (b * blockSize m)).take (blockSize m) =
      xbuf d m keys ((buf.drop (b * blockSize m)).take (blockSize m)) := by
  have hfits : b * blockSize m + blockSize m ≤ buf.length := by
    rw [← Nat.succ_mul]
    exact (Nat.mul_le_mul_right _ h).trans (Nat.div_mul_le_self _ _)
  obtain ⟨-, hdrop⟩ := xbuf_take_and_drop d keys (buf := buf) (b := b) (m := m) (by omega)
  obtain ⟨htake, -⟩ := xbuf_take_and_drop d keys (buf := buf.drop (b * blockSize m)) (b := 1) (m := m)
    (by rw [List.length_drop]; omega)
  rw [Nat.one_mul] at htake
  rw [hdrop, htake]

/-- Settles O22: the cut, and each block by two cuts. -/
theorem blocksAreIndependent : Obligations.BlocksAreIndependent :=
  fun d _ keys => ⟨fun _ ys h => xbuf_append d keys h ys, fun _ _ h => xbuf_block d keys h⟩

end Sys2Proof.Machine
end

section
/-! PROOFS. What repeating a transaction does (O37). Each transaction but a command leaves every field its own checks
and reads look at as they were, or as it writes them again; a repeated command meets the engine it started. -/

namespace Sys2Proof.Machine

/-! ### The named updates, done twice -/

/-- `flag_error` with an error recorded changes nothing (R201). -/
theorem flagError_of_err {e : IfaceError} {s : State} (h : s.regs.err = true) : flagError e s = s := if_pos h

/-- A refused transaction, refused again, is the state after one refusal. -/
theorem flagError_okay_twice (e : IfaceError) (s : State) :
    (flagError e (flagError e s).okay).okay = (flagError e s).okay := by
  rw [flagError_of_err (s := (flagError e s).okay) (flagError_err e s)]
  rfl

/-- `flag_error` said by fields (R201). -/
theorem flagError_eq_withError (e : IfaceError) (s : State) : flagError e s = withError (errorCode e) s := by
  cases h : s.regs.err with
  | true =>
    simp only [flagError, withError, h, if_true]
    rw [← h]
  | false =>
    simp [flagError, withError, h, State.setErr]

/-- Clearing what is clear changes nothing: STATUS is write-1-to-clear (R174). -/
theorem clear_twice (w : Word) (s : State) :
    (clearErr w (clearDone w (clearErr w (clearDone w s)).okay)).okay = (clearErr w (clearDone w s)).okay := by
  unfold clearErr clearDone
  cases w.getLsbD 1 <;> cases w.getLsbD 2 <;> rfl

theorem putByte_twice (s : State) (sp : Space) (i : Nat) (v : Byte) :
    (s.putByte sp i v).okay.putByte sp i v = (s.putByte sp i v).okay := by
  cases sp <;> simp [State.putByte, State.okay, State.respond, Memory.put, Memory.at, writeByte_twice]

/-! ### A transaction by its checks -/

section
variable {s : State}

theorem lockout_busy {idle : Outcome} (h : s.busy = true) :
    lockout s idle = .next (flagError .accessBusy s).okay := if_pos h

theorem lockout_idle {idle : Outcome} (h : s.busy = false) : lockout s idle = idle :=
  if_neg (Bool.eq_false_iff.1 h)

variable {sp : Space} {i : Index}

theorem windowAccess_unmapped {idle : Outcome} (h : s.cfg.capacity sp ≤ i.toNat) :
    windowAccess sp i s idle = .next (busError s) := if_neg (Nat.not_lt.2 h)

theorem windowAccess_mapped {idle : Outcome} (h : i.toNat < s.cfg.capacity sp) :
    windowAccess sp i s idle = lockout s idle := if_pos h

/-- An idle read of a mapped, defined byte answers it (R183, R185, R187). -/
theorem windowRead_defined {v : Byte} (hi : i.toNat < s.cfg.capacity sp) (hidle : s.busy = false)
    (hv : s.byteAt sp i.toNat = some v) : windowRead sp i s = .next (s.respond .okay (zext32 v)) := by
  rw [windowRead, windowAccess_mapped hi, lockout_idle hidle, memRead_ok.2 ⟨hi, hv⟩]

/-- An idle write of a mapped byte stores it (R182, R184). -/
theorem windowWrite_idle (d : Word) (hi : i.toNat < s.cfg.capacity sp) (hidle : s.busy = false) :
    windowWrite sp i d s = .next (s.putByte sp i.toNat (dataByte d)).okay := by
  rw [windowWrite, windowAccess_mapped hi, lockout_idle hidle, memWrite_ok.2 ⟨hi, rfl⟩]

theorem writeCommand_busy (v : Option Command) (h : s.busy = true) :
    writeCommand v s = .next (flagError .cmdBusy s).okay := if_pos h

/-- An accepted command starts (R172). -/
theorem writeCommand_accepts (cmd : Command) (h : Accepts s) :
    writeCommand (some cmd) s = .next (startOp cmd s).okay := by
  obtain ⟨hidle, hlen, hkeylen⟩ := h
  simp [writeCommand, hidle, Nat.not_lt.2 hlen, Nat.not_lt.2 hkeylen]

end

/-- A command as an instruction is its word written to CMD (R136, R137). -/
theorem exec_commandInstr (cmd : Command) (s : State) : exec cmd.instr s = writeCommand (some cmd) s := by
  obtain ⟨_ | _, m⟩ := cmd <;> rfl

/-! ### Repetition -/

/-- A locked-out transaction is locked out again; `idle` is what it does while idle. -/
theorem lockout_again {idle : Outcome} {s : State} (h : s.busy = true) :
    lockout (flagError .accessBusy s).okay idle = .next (flagError .accessBusy s).okay := by
  have hbusy : (flagError .accessBusy s).okay.busy = true := by
    rwa [State.busy_congr (s := s) (by simp)]
  rw [lockout_busy hbusy, flagError_okay_twice]

/-- A window transaction stopped by its checks is stopped again. -/
theorem windowAccess_again_unmapped {sp : Space} {i : Index} {s : State} {idle : Outcome}
    (h : s.cfg.capacity sp ≤ i.toNat) : windowAccess sp i (busError s) idle = .next (busError s) :=
  windowAccess_unmapped (s := busError s) h

theorem windowAccess_again_busy {sp : Space} {i : Index} {s : State} {idle : Outcome}
    (hi : i.toNat < s.cfg.capacity sp) (h : s.busy = true) :
    windowAccess sp i (flagError .accessBusy s).okay idle = .next (flagError .accessBusy s).okay := by
  rw [windowAccess_mapped (by simpa using hi), lockout_again h]

theorem windowRead_repeats {sp : Space} {i : Index} {s t : State} (h : windowRead sp i s = .next t) :
    windowRead sp i t = .next t := by
  rcases windowRead_next h with ⟨hi, rfl⟩ | ⟨hi, hbusy, rfl⟩ | ⟨hi, hidle, v, hv, rfl⟩
  · exact windowAccess_again_unmapped hi
  · exact windowAccess_again_busy hi hbusy
  · exact windowRead_defined (s := s.respond .okay (zext32 v)) hi hidle hv

theorem windowWrite_repeats {sp : Space} {i : Index} {d : Word} {s t : State} (h : windowWrite sp i d s = .next t) :
    windowWrite sp i d t = .next t := by
  rcases windowWrite_next h with ⟨hi, rfl⟩ | ⟨hi, hbusy, rfl⟩ | ⟨hi, hidle, rfl⟩
  · exact windowAccess_again_unmapped hi
  · exact windowAccess_again_busy hi hbusy
  · rw [windowWrite_idle (s := (s.putByte sp i.toNat (dataByte d)).okay) d hi hidle, putByte_twice]
    rfl

/-- A register write under the lockout that stores the same value again repeats: `store` is the idle write. -/
theorem lockedWrite_repeats {store : State → State} (hstore : ∀ u, store (store u).okay = (store u).okay)
    (heng : ∀ u, (store u).eng = u.eng) {s t : State} (h : lockout s (.next (store s).okay) = .next t) :
    lockout t (.next (store t).okay) = .next t := by
  rcases lockout_next h with ⟨hbusy, rfl⟩ | ⟨hidle, h⟩
  · exact lockout_again hbusy
  · injection h with h
    subst h
    rw [lockout_idle ((State.busy_congr (t := (store s).okay) (heng s)).trans hidle), hstore]
    rfl

/-- A command repeated at once finds the engine it started (R172). -/
theorem command_repeats {cmd : Command} {s t : State} (ha : Accepts s) (h : exec cmd.instr s = .next t) :
    exec cmd.instr t = .next (answered .okay 0#32 (withError 2#4 t)) := by
  rw [exec_commandInstr, writeCommand_accepts cmd ha] at h
  injection h with h
  have hbusy : t.busy = true := h ▸ startOp_busy cmd s
  rw [exec_commandInstr, writeCommand_busy _ hbusy, flagError_eq_withError]
  rfl

/-- Settles O37: each form of transaction, done to the state it left. -/
theorem repeatedTransactions : Obligations.RepeatedTransactions := by
  intro i s t h
  refine ⟨?_, ?_, ?_, ?_⟩
  · rintro - ⟨d, n, rfl | rfl | rfl | rfl⟩
    · exact lockedWrite_repeats (store := fun u => u.setLen d) (fun _ => rfl) (fun _ => rfl) h
    · exact lockedWrite_repeats (store := fun u => u.setKeylen d) (fun _ => rfl) (fun _ => rfl) h
    · exact windowWrite_repeats h
    · exact windowWrite_repeats h
  · rintro ⟨d, rfl⟩
    injection h with h
    subst h
    exact congrArg Host.Outcome.next (clear_twice d s)
  · rintro (hi | ⟨n, rfl | rfl | rfl⟩)
    · simp only [List.mem_cons, List.not_mem_nil, or_false] at hi
      rcases hi with rfl | rfl | rfl | rfl | rfl <;> cases h <;> rfl
    · exact windowRead_repeats h
    · exact windowRead_repeats h
    · exact windowRead_repeats h
  · rintro cmd rfl - ha
    exact command_repeats ha h

end Sys2Proof.Machine
end

section
/-! PROOFS. A host program beside the core is a run of the machine (O60). No turn reads or writes the rest of the
interleaving, so a turn of the hosted core is the same turn of the core with any list still to come; the run's list is
then collected turn by turn. -/

namespace Sys2Proof.Machine

/-! ### The rest of the interleaving is no turn's concern -/

/-- An outcome with the rest of the interleaving replaced in its next state. -/
def withInputs (l : List Input) : Outcome → Outcome
  | .next t => .next (t.setInputs l)
  | .fault f => .fault f
  | .refused r => .refused r

section
variable (l : List Input) (s : State)

theorem flagError_setInputs (e : IfaceError) : flagError e (s.setInputs l) = (flagError e s).setInputs l := by
  unfold flagError
  rw [State.setInputs_regs]
  split <;> rfl

theorem clearDone_setInputs (w : Word) : clearDone w (s.setInputs l) = (clearDone w s).setInputs l := by
  unfold clearDone
  split <;> rfl

theorem clearErr_setInputs (w : Word) : clearErr w (s.setInputs l) = (clearErr w s).setInputs l := by
  unfold clearErr
  split <;> rfl

theorem memRead_setInputs : memRead (s.setInputs l) = memRead s := rfl

theorem memWrite_setInputs (sp : Space) (i : Nat) (v : Byte) :
    memWrite (s.setInputs l) sp i v = (memWrite s sp i v).map (·.setInputs l) := by
  unfold memWrite
  rw [State.setInputs_cfg]
  split <;> rfl

/-- The answer of a refused transaction. -/
theorem refusal_setInputs (e : IfaceError) :
    (.next (flagError e (s.setInputs l)).okay : Outcome) = withInputs l (.next (flagError e s).okay) := by
  rw [flagError_setInputs]
  rfl

theorem lockout_setInputs (idle : Outcome) :
    lockout (s.setInputs l) (withInputs l idle) = withInputs l (lockout s idle) := by
  unfold lockout
  rw [refusal_setInputs, State.busy_congr (s := s) (by simp)]
  split <;> rfl

theorem windowAccess_setInputs (sp : Space) (i : Index) (idle : Outcome) :
    windowAccess sp i (s.setInputs l) (withInputs l idle) = withInputs l (windowAccess sp i s idle) := by
  unfold windowAccess
  rw [lockout_setInputs, State.setInputs_cfg]
  split <;> rfl

theorem windowRead_setInputs (sp : Space) (i : Index) :
    windowRead sp i (s.setInputs l) = withInputs l (windowRead sp i s) := by
  unfold windowRead
  rw [← windowAccess_setInputs, memRead_setInputs]
  cases memRead s sp i.toNat <;> rfl

theorem windowWrite_setInputs (sp : Space) (i : Index) (d : Word) :
    windowWrite sp i d (s.setInputs l) = withInputs l (windowWrite sp i d s) := by
  unfold windowWrite
  rw [← windowAccess_setInputs, memWrite_setInputs]
  cases memWrite s sp i.toNat (dataByte d) <;> rfl

theorem writeCommand_setInputs (v : Option Command) :
    writeCommand v (s.setInputs l) = withInputs l (writeCommand v s) := by
  unfold writeCommand
  simp only [refusal_setInputs, State.busy_congr (State.setInputs_eng s l), State.setInputs_cfg,
    State.setInputs_regs]
  split
  · rfl
  · split
    · rfl
    · split_ifs <;> rfl

theorem microRound_setInputs (mul : Byte → Byte → Byte) :
    microRound mul (s.setInputs l) = withInputs l (microRound mul s) := by
  unfold microRound
  rw [memRead_setInputs, State.setInputs_eng]
  split <;> rfl

theorem inRound_setInputs (m : BlockMode) (mul : Byte → Byte → Byte) :
    inRound m (s.setInputs l) mul = withInputs l (inRound m s mul) := by
  unfold inRound
  rw [microRound_setInputs, State.setInputs_eng]
  split <;> rfl

theorem exec_setInputs (i : Instr) : exec i (s.setInputs l) = withInputs l (exec i s) := by
  cases i with
  | encrypt m => exact writeCommand_setInputs l s (some { dir := .enc, mode := m })
  | decrypt m => exact writeCommand_setInputs l s (some { dir := .dec, mode := m })
  | gfmul4 => exact inRound_setInputs l s _ _
  | gfmul8 => exact inRound_setInputs l s _ _
  | wrCmd d => exact writeCommand_setInputs l s _
  | rdCmd => rfl
  | wrStatus d =>
    show (.next (clearErr d (clearDone d (s.setInputs l))).okay : Outcome) = _
    rw [clearDone_setInputs, clearErr_setInputs]
    rfl
  | rdStatus => rfl
  | wrLen d => exact lockout_setInputs l s (.next (s.setLen d).okay)
  | rdLen => rfl
  | wrKeylen d => exact lockout_setInputs l s (.next (s.setKeylen d).okay)
  | rdKeylen => rfl
  | wrOutlen d => rfl
  | rdOutlen => rfl
  | wrbKey n d => exact windowWrite_setInputs l s _ _ _
  | rdbKey n => exact windowRead_setInputs l s _ _
  | wrbIbuf n d => exact windowWrite_setInputs l s _ _ _
  | rdbIbuf n => exact windowRead_setInputs l s _ _
  | wrbObuf n d => exact windowAccess_setInputs l s .obuf n (.next s.okay)
  | rdbObuf n => exact windowRead_setInputs l s _ _

/-! ### The turns -/

theorem hostTurn_setInputs (d : Descriptor) (w : Word) :
    hostTurn d w (s.setInputs l) = withInputs l (hostTurn d w s) := by
  unfold hostTurn
  rw [State.setInputs_cfg]
  split
  · exact exec_setInputs l s _
  · rfl

theorem fetchBlock_setInputs : fetchBlock (s.setInputs l) = fetchBlock s := rfl

theorem microFetch_setInputs : microFetch (s.setInputs l) = withInputs l (microFetch s) := by
  unfold microFetch
  rw [fetchBlock_setInputs]
  split <;> rfl

theorem storeBytes_setInputs (vs : List Byte) (i : Nat) :
    storeBytes (s.setInputs l) i vs = (storeBytes s i vs).map (·.setInputs l) := by
  induction vs generalizing s i with
  | nil => rfl
  | cons v vs ih =>
    simp only [storeBytes, memWrite_setInputs]
    cases memWrite s .obuf i v with
    | ok u => exact ih u (i + 1)
    | error f => rfl

theorem microStore_setInputs : microStore (s.setInputs l) = withInputs l (microStore s) := by
  unfold microStore
  rw [storeBytes_setInputs, State.setInputs_eng]
  cases storeBytes s (storeIndex s.eng) (blockBytes (storeBlock s.eng)) <;> rfl

theorem engineTurn_setInputs : engineTurn (s.setInputs l) = withInputs l (engineTurn s) := by
  unfold engineTurn
  rw [microFetch_setInputs, exec_setInputs, microStore_setInputs, State.setInputs_eng]
  split <;> rfl

theorem turn_setInputs (inp : Input) : turn inp (s.setInputs l) = withInputs l (turn inp s) := by
  cases inp with
  | bus d w => exact hostTurn_setInputs l s d w
  | engine => exact engineTurn_setInputs l s
  | reset => rfl

end

/-- A turn leaves the rest of the interleaving as it was. -/
theorem turn_inputs {inp : Input} {s t : State} (h : turn inp s = .next t) : t.inputs = s.inputs := by
  have hsame := turn_setInputs s.inputs s inp
  rw [show s.setInputs s.inputs = s from rfl, h] at hsame
  injection hsame with hsame
  rw [hsame]
  rfl

/-- A run whose oldest entry is `inp` is the run of the rest from the state after `inp`'s turn. -/
theorem runSteps_setInputs_cons {inp : Input} {s t : State} (h : turn inp s = .next t) (n : Nat) (l : List Input) :
    runSteps (n + 1) (s.setInputs (inp :: l)) = runSteps n (t.setInputs l) := by
  refine runSteps_succ ?_
  rw [step_cons (State.setInputs_inputs s _), show (s.setInputs (inp :: l)).setInputs l = s.setInputs l from rfl,
    turn_setInputs, h]
  rfl

/-! ### The turns of a hosted core -/

/-- An entry of the interleaving that a host with this program, the engine or the environment brings about (R6). -/
def BroughtAbout (program : List HostOp) (inp : Input) : Prop :=
  inp = .engine ∨ inp = .reset ∨ ∃ op ∈ program, inp = opInput op

theorem BroughtAbout.of_subset {p q : List HostOp} {inp : Input} (h : BroughtAbout p inp) (hsub : p ⊆ q) :
    BroughtAbout q inp :=
  h.imp_right (Or.imp_right fun ⟨op, hop, he⟩ => ⟨op, hsub hop, he⟩)

/-- The host never gains a line (R91). -/
theorem afterOp_subset (op : HostOp) (rest : List HostOp) (t : State) : afterOp op rest t ⊆ op :: rest := by
  unfold afterOp
  split
  · exact List.subset_cons_self _ _
  · split
    · exact List.Subset.refl _
    · exact List.subset_cons_self _ _

/-- A step of host and core is nothing at all, or a turn of the core that one of the agents brings about. -/
theorem agentStep_turn {a : Agent} {b b' : HostedCore} (h : agentStep a b = .next b') :
    b' = b ∨ ∃ inp, BroughtAbout b.program inp ∧ turn inp b.core = .next b'.core ∧ b'.program ⊆ b.program := by
  rcases agentStep_next h with ⟨-, -, hb⟩ | ⟨op, rest, t, -, hp, ht, rfl⟩ | ⟨t, -, ht, rfl⟩
  · exact .inl hb
  · exact .inr ⟨opInput op, .inr (.inr ⟨op, by simp [hp], rfl⟩), ht, hp ▸ afterOp_subset op rest t⟩
  · refine .inr ⟨_, ?_, ht, List.Subset.refl _⟩
    split
    · exact .inl rfl
    · exact .inr (.inl rfl)

/-- A run of the agents is a run of the machine on a list of the entries they bring about, at most one for each. -/
theorem runAgents_isRun {agents : List Agent} {b b' : HostedCore} (hin : b.core.inputs = [])
    (h : runAgents agents b = .next b') :
    ∃ ins : List Input, ins.length ≤ agents.length ∧
      runSteps ins.length (b.core.setInputs ins) = .next b'.core ∧ ∀ inp ∈ ins, BroughtAbout b.program inp := by
  induction agents generalizing b with
  | nil =>
    injection h with h
    subst h
    refine ⟨[], Nat.le_refl _, ?_, by simp⟩
    exact congrArg Host.Outcome.next (congrArg b.core.setInputs hin.symm)
  | cons a more ih =>
    cases hs : agentStep a b with
    | fault f => simp [runAgents, hs] at h
    | refused r => simp [runAgents, hs] at h
    | next c =>
      rw [runAgents_cons hs] at h
      rcases agentStep_turn hs with rfl | ⟨inp, hby, hturn, hsub⟩
      · obtain ⟨ins, hlen, hrun, hall⟩ := ih hin h
        exact ⟨ins, Nat.le_succ_of_le hlen, hrun, hall⟩
      · obtain ⟨ins, hlen, hrun, hall⟩ := ih ((turn_inputs hturn).trans hin) h
        refine ⟨inp :: ins, Nat.succ_le_succ hlen, (runSteps_setInputs_cons hturn _ ins).trans hrun, ?_⟩
        exact List.forall_mem_cons.2 ⟨hby, fun i hi => (hall i hi).of_subset hsub⟩

/-- Settles O60: the run's list, and the reset step by definition. -/
theorem hostProgramsAreMachineRuns : Obligations.HostProgramsAreMachineRuns :=
  ⟨fun _ _ _ hin h => runAgents_isRun hin h, fun _ => rfl⟩

end Sys2Proof.Machine
end

section
/-! PROOFS. The encodings (O1 to O4). Each decoder is stated once as an equivalence: a word decodes to a command exactly
when it is that command's word, and a descriptor's fields select a target exactly when they are that target's and the
target is mapped. Decoding an encoded instruction and encoding a decoded one are its two directions. -/

namespace Sys2Proof.Machine

/-! ### Command words -/

/-- OP, bits 1..0 of a direction's command words (R82). -/
def opCode : Dir → BitVec 2
  | .enc => 0b01#2
  | .dec => 0b10#2

/-- A command word is its three fields in order (R81). -/
theorem commandWord_fields (w : Word) :
    w = w.extractLsb' 3 29 ++ BitVec.ofBool (w.getLsbD 2) ++ w.extractLsb' 0 2 := by
  apply BitVec.eq_of_getLsbD_eq
  intro i hi
  simp only [BitVec.getLsbD_append, BitVec.getLsbD_extractLsb', BitVec.getLsbD_ofBool]
  interval_cases i <;> simp

/-- The command decoder accepts a word exactly as the command whose word it is (R84, R85). -/
theorem decodeCmd_ok {w : Word} {cmd : Command} :
    decodeCmd w = .ok cmd ↔ w = commandWord (opCode cmd.dir) cmd.mode := by
  constructor
  · intro h
    rw [commandWord_fields w]
    simp only [decodeCmd] at h
    split_ifs at h with hres henc hmode hdec hmode <;> cases h <;> rw [not_not.1 hres]
    · rw [henc, hmode]
      rfl
    · rw [henc, eq_false_of_ne_true hmode]
      rfl
    · rw [hdec, hmode]
      rfl
    · rw [hdec, eq_false_of_ne_true hmode]
      rfl
  · rintro rfl
    obtain ⟨_ | _, _ | _⟩ := cmd <;> rfl

/-- Settles O3: the four commands, each with its word. -/
theorem exactlyFourCommandWords : Obligations.ExactlyFourCommandWords := by
  intro w cmd
  rw [decodeCmd_ok]
  obtain ⟨_ | _, _ | _⟩ := cmd <;> simp [opCode, commandWord, modeBit]

/-! ### Descriptors -/

/-- `OFF[13:12]` of a window (R94). -/
def windowRegion : Space → BitVec 2
  | .key => 0b01#2
  | .ibuf => 0b10#2
  | .obuf => 0b11#2

/-- The width code of a target's transactions: 4 bytes for a register, 1 for a window (R67, R92). -/
def targetWidthCode : Target → BitVec 2
  | .reg _ => 0b10#2
  | .win _ _ => 0b00#2

/-- The offset of a target (R23, R61). -/
def targetOffset : Target → BitVec 14
  | .reg r => registerOffset r
  | .win sp i => windowRegion sp ++ i

/-- A target exists under the parameters `c` (R61). -/
def targetMapped (c : Config) : Target → Prop
  | .reg _ => True
  | .win sp i => Index.mapped c sp i

/-- The descriptor of a transaction (R92). -/
def targetDescriptor (k : Bool) (tg : Target) : Descriptor :=
  BitVec.ofBool k ++ targetWidthCode tg ++ targetOffset tg

theorem windowRegion_windowOf : ∀ {region : BitVec 2}, region ≠ 0b00#2 → windowRegion (windowOf region) = region := by
  decide

theorem windowOf_windowRegion (sp : Space) : windowOf (windowRegion sp) = sp := by cases sp <;> rfl

theorem windowRegion_ne_zero (sp : Space) : windowRegion sp ≠ 0b00#2 := by cases sp <;> decide

theorem widthCode_of_widthOf_one : ∀ {wc : BitVec 2}, widthOf wc = some 1 → wc = 0b00#2 := by decide

/-- A descriptor that selects a window byte has the width code of 1 byte and that byte's offset, and its index is
mapped (R61, R67, R94). -/
theorem fields_of_busTarget_win {c : Config} {wc : BitVec 2} {off : BitVec 14} {sp : Space} {i : Index}
    (h : busTarget c wc off = .ok (.win sp i)) :
    wc = 0b00#2 ∧ off = windowRegion sp ++ i ∧ Index.mapped c sp i := by
  unfold busTarget at h
  split at h
  · cases h
  · rename_i width hw
    split at h
    · split at h
      · cases h
      · split at h <;> cases h
    · rename_i hregion
      split at h
      · cases h
      · rename_i hone
        split at h
        · rename_i hmapped
          cases h
          refine ⟨widthCode_of_widthOf_one (hw.trans (congrArg some (not_not.1 hone))), ?_, hmapped⟩
          rw [windowRegion_windowOf hregion]
          exact (BitVec.extractLsb'_append_extractLsb' (w := 2) (len := 12)).symm
        · cases h

/-- A mapped window byte is selected by its own fields (R94). -/
theorem busTarget_win {c : Config} {sp : Space} {i : Index} (h : Index.mapped c sp i) :
    busTarget c 0b00#2 (windowRegion sp ++ i) = .ok (.win sp i) := by
  have hregion : (windowRegion sp ++ i).extractLsb' 12 2 = windowRegion sp := BitVec.extractLsb'_append_eq_left
  have hindex : (windowRegion sp ++ i).extractLsb' 0 12 = i := BitVec.extractLsb'_append_eq_right
  have hwidth : widthOf 0b00#2 = some 1 := rfl
  simp only [busTarget, hwidth, hregion, hindex, windowOf_windowRegion, windowRegion_ne_zero, h, if_true, if_false,
    ne_eq, not_true_eq_false]

/-- A width code and an offset select a target exactly when they are that target's and it is mapped (R94). -/
theorem busTarget_ok {c : Config} {wc : BitVec 2} {off : BitVec 14} {tg : Target} :
    busTarget c wc off = .ok tg ↔ wc = targetWidthCode tg ∧ off = targetOffset tg ∧ targetMapped c tg := by
  cases tg with
  | reg r =>
    constructor
    · intro h
      obtain ⟨hwc, hoff⟩ := fields_of_busTarget_reg h
      exact ⟨hwc, hoff, trivial⟩
    · rintro ⟨rfl, rfl, -⟩
      cases r <;> rfl
  | win sp i =>
    constructor
    · exact fields_of_busTarget_win
    · rintro ⟨rfl, rfl, h⟩
      exact busTarget_win h

theorem targetDescriptor_fields (k : Bool) (tg : Target) :
    Descriptor.k (targetDescriptor k tg) = k ∧ Descriptor.wc (targetDescriptor k tg) = targetWidthCode tg ∧
      Descriptor.off (targetDescriptor k tg) = targetOffset tg := by
  refine ⟨?_, ?_, ?_⟩
  · simp only [Descriptor.k, targetDescriptor, BitVec.getLsbD_append]
    exact BitVec.getLsbD_ofBool ..
  · exact (BitVec.extractLsb'_append_eq_of_le (by decide)).trans BitVec.extractLsb'_append_eq_right
  · exact BitVec.extractLsb'_append_eq_right

/-- A descriptor decodes exactly to the transaction of the mapped target whose descriptor it is (R92, R94). -/
theorem decodeBus_ok_iff_targetDescriptor {c : Config} {d : Descriptor} {w : Word} {i : Instr} :
    decodeBus c d w = .ok i ↔
      ∃ k tg, d = targetDescriptor k tg ∧ targetMapped c tg ∧ targetInstr k w tg = i := by
  simp only [decodeBus_ok, busTarget_ok]
  constructor
  · rintro ⟨tg, ⟨hwc, hoff, hmapped⟩, hi⟩
    refine ⟨Descriptor.k d, tg, ?_, hmapped, hi⟩
    rw [targetDescriptor, ← hwc, ← hoff]
    exact descriptor_eq_append d
  · rintro ⟨k, tg, rfl, hmapped, hi⟩
    obtain ⟨hk, hwc, hoff⟩ := targetDescriptor_fields k tg
    exact ⟨tg, ⟨hwc, hoff, hmapped⟩, by rwa [hk]⟩

/-! ### The encoder -/

/-- An operation is encoded as its command word (R84). -/
theorem encode_commandInstr (cmd : Command) :
    encode cmd.instr = .cmd32 (commandWord (opCode cmd.dir) cmd.mode) := by
  obtain ⟨_ | _, m⟩ := cmd <;> rfl

/-- A window descriptor is its five fixed bits and the index (R182 to R187). -/
theorem targetDescriptor_win (k : Bool) (sp : Space) (i : Index) :
    targetDescriptor k (.win sp i) = windowDesc (BitVec.ofBool k ++ 0b00#2 ++ windowRegion sp) i :=
  (BitVec.append_assoc (w₁ := 3) (w₂ := 2) (w₃ := 12)).symm

/-- A transaction is encoded as its target's descriptor and, for a write, its operand (R92). -/
theorem encode_targetInstr (k : Bool) (w : Word) (tg : Target) :
    encode (targetInstr k w tg) = .bus17 (targetDescriptor k tg) (if k then w else 0#32) := by
  cases tg with
  | reg r => cases r <;> cases k <;> rfl
  | win sp i =>
    rw [targetDescriptor_win]
    cases sp <;> cases k <;> rfl

/-- A transaction is well-formed exactly when its target is mapped (R61). -/
theorem wellFormed_targetInstr (c : Config) (k : Bool) (w : Word) (tg : Target) :
    (targetInstr k w tg).wellFormed c = true ↔ targetMapped c tg := by
  rcases tg with (_ | _ | _ | _ | _) | ⟨_ | _ | _, i⟩ <;> cases k <;>
    simp [targetInstr, Instr.wellFormed, targetMapped]

/-- A read has no operand: any data word, 0 among them, stands for the same read (R92). -/
theorem targetInstr_data (k : Bool) (w : Word) (tg : Target) :
    targetInstr k (if k then w else 0#32) tg = targetInstr k w tg := by
  cases k with
  | true => rfl
  | false => rcases tg with (_ | _ | _ | _ | _) | ⟨_ | _ | _, i⟩ <;> rfl

/-- Every instruction is an operation, a multiplier or a host transaction: the three formats (R80). -/
theorem instr_cases (i : Instr) :
    (∃ cmd : Command, i = cmd.instr) ∨ (∃ sel, i = decodeMulsel sel ∧ encode i = .mulsel sel) ∨
      ∃ k w tg, i = targetInstr k w tg := by
  cases i with
  | encrypt m => exact .inl ⟨⟨.enc, m⟩, rfl⟩
  | decrypt m => exact .inl ⟨⟨.dec, m⟩, rfl⟩
  | gfmul4 => exact .inr (.inl ⟨0#1, rfl, rfl⟩)
  | gfmul8 => exact .inr (.inl ⟨1#1, rfl, rfl⟩)
  | wrCmd d => exact .inr (.inr ⟨true, d, .reg .cmd, rfl⟩)
  | rdCmd => exact .inr (.inr ⟨false, 0#32, .reg .cmd, rfl⟩)
  | wrStatus d => exact .inr (.inr ⟨true, d, .reg .status, rfl⟩)
  | rdStatus => exact .inr (.inr ⟨false, 0#32, .reg .status, rfl⟩)
  | wrLen d => exact .inr (.inr ⟨true, d, .reg .len, rfl⟩)
  | rdLen => exact .inr (.inr ⟨false, 0#32, .reg .len, rfl⟩)
  | wrKeylen d => exact .inr (.inr ⟨true, d, .reg .keylen, rfl⟩)
  | rdKeylen => exact .inr (.inr ⟨false, 0#32, .reg .keylen, rfl⟩)
  | wrOutlen d => exact .inr (.inr ⟨true, d, .reg .outlen, rfl⟩)
  | rdOutlen => exact .inr (.inr ⟨false, 0#32, .reg .outlen, rfl⟩)
  | wrbKey n d => exact .inr (.inr ⟨true, d, .win .key n, rfl⟩)
  | rdbKey n => exact .inr (.inr ⟨false, 0#32, .win .key n, rfl⟩)
  | wrbIbuf n d => exact .inr (.inr ⟨true, d, .win .ibuf n, rfl⟩)
  | rdbIbuf n => exact .inr (.inr ⟨false, 0#32, .win .ibuf n, rfl⟩)
  | wrbObuf n d => exact .inr (.inr ⟨true, d, .win .obuf n, rfl⟩)
  | rdbObuf n => exact .inr (.inr ⟨false, 0#32, .win .obuf n, rfl⟩)

/-! ### Decoding and encoding -/

/-- Settles O1: each format's decoder reads back what the encoder writes in that format. -/
theorem decodeEncodeAgree : Obligations.DecodeEncodeAgree := by
  intro c i hwf
  rcases instr_cases i with ⟨cmd, rfl⟩ | ⟨sel, hi, henc⟩ | ⟨k, w, tg, rfl⟩
  · rw [encode_commandInstr, decode, decodeCmd_ok.2 rfl]
    rfl
  · rw [henc, hi]
    rfl
  · rw [encode_targetInstr, decode, decodeBus_ok_iff_targetDescriptor]
    exact ⟨k, tg, rfl, (wellFormed_targetInstr c k w tg).1 hwf, targetInstr_data k w tg⟩

/-- K is the top bit of a descriptor (R92). -/
theorem k_of_targetDescriptor_toNat {k : Bool} {tg : Target} (h : (targetDescriptor k tg).toNat / 2 ^ 16 = 1) :
    k = true := by
  rw [← (targetDescriptor_fields k tg).1]
  rw [Descriptor.k, BitVec.getLsbD, Nat.testBit_eq_decide_div_mod_eq, h]
  rfl

/-- Settles O4: the instruction is its target's transaction, and is encoded as such. -/
theorem decodedDescriptorIsTheInstructions : Obligations.DecodedDescriptorIsTheInstructions := by
  intro c desc data i h
  obtain ⟨k, tg, rfl, hmapped, rfl⟩ := decodeBus_ok_iff_targetDescriptor.1 h
  refine ⟨(wellFormed_targetInstr c k data tg).2 hmapped, _, encode_targetInstr k data tg, fun hk => ?_⟩
  rw [k_of_targetDescriptor_toNat hk, if_pos rfl]

/-- Settles O2: the words are literals, and each decoder runs on them. -/
theorem specWordsDecode : Obligations.SpecWordsDecode :=
  ⟨by decide, by decide, by decide, by decide⟩

end Sys2Proof.Machine
end

section
/-! PROOFS. The pseudo-instructions (O59): a load is one window write for each byte and then the length, and `wait` is
decided by bit 0 of the STATUS word, which is BUSY. -/

namespace Sys2Proof.Machine

/-! ### Loads -/

@[simp] theorem length_loadBytes (mk : Index → Word → Instr) (i : Nat) (bs : List Byte) :
    (loadBytes mk i bs).length = bs.length := by
  induction bs generalizing i with
  | nil => rfl
  | cons b bs ih => simp [loadBytes, ih]

/-- Line `j` of the window writes is the write of byte `j`, at index `j` from the first (R91). -/
theorem getElem?_loadBytes (mk : Index → Word → Instr) (i : Nat) (bs : List Byte) (j : Nat) :
    (loadBytes mk i bs)[j]? = bs[j]?.map fun b => HostOp.issue (mk (BitVec.ofNat 12 (i + j)) (BitVec.ofNat 32 b.toNat)) := by
  induction bs generalizing i j with
  | nil => rfl
  | cons b bs ih =>
    cases j with
    | zero => simp [loadBytes]
    | succ j => simp [loadBytes, ih, Nat.add_right_comm, Nat.add_assoc]

/-- The lines of a load: byte `i` at index `i` for each byte, and then one more line (R91). -/
theorem load_lines (mk : Index → Word → Instr) (bs : List Byte) (last : HostOp) :
    (loadBytes mk 0 bs ++ [last]).length = bs.length + 1 ∧
      (∀ i b, bs[i]? = some b →
        (loadBytes mk 0 bs ++ [last])[i]? = some (HostOp.issue (mk (BitVec.ofNat 12 i) (BitVec.ofNat 32 b.toNat)))) ∧
      (loadBytes mk 0 bs ++ [last])[bs.length]? = some last := by
  refine ⟨by simp, fun i b hb => ?_, by simp⟩
  obtain ⟨hlt, -⟩ := List.getElem?_eq_some_iff.1 hb
  rw [List.getElem?_append_left (by simpa using hlt), getElem?_loadBytes, hb, Nat.zero_add]
  rfl

/-! ### The read loop of `wait` -/

/-- Bit 0 of the STATUS word is BUSY (R25). -/
theorem statusWord_bit_zero (s : State) : (statusWord s).getLsbD 0 = s.busy := by
  simp only [statusWord, BitVec.getLsbD_setWidth, BitVec.getLsbD_append, BitVec.getLsbD_ofBool]
  simp

/-- A host turn on `wait` reads STATUS, and keeps the line exactly while BUSY (R91). -/
theorem agentStep_wait (s : State) (rest : List HostOp) :
    agentStep .host { program := .wait :: rest, core := s } =
      .next { program := if s.busy then .wait :: rest else rest, core := answered .okay (statusWord s) s } := by
  have hread : turn (opInput .wait) s = .next (answered .okay (statusWord s) s) := rfl
  have hbusy : readBusy (answered .okay (statusWord s) s) = s.busy := statusWord_bit_zero s
  simp only [agentStep, hread, withProgram, afterOp, hbusy]

/-- An engine turn leaves the host's lines. -/
theorem program_of_agentStep_engine {b b' : HostedCore} (h : agentStep .engine b = .next b') :
    b'.program = b.program := by
  rcases agentStep_next h with ⟨ha, -⟩ | ⟨-, -, -, ha, -⟩ | ⟨t, -, -, rfl⟩
  · cases ha
  · cases ha
  · rfl

/-- Settles O59: the fixed expansions by definition, the loads line by line, and one turn of `wait`. -/
theorem pseudoInstructionsExpand : Obligations.PseudoInstructionsExpand := by
  refine ⟨⟨rfl, rfl, rfl, rfl, rfl, rfl⟩, fun ks hks => ?_, fun bs hbs => ?_, fun s rest => ⟨?_, fun b hb => ?_⟩⟩
  · exact ⟨_, if_pos hks, load_lines .wrbKey ks _⟩
  · exact ⟨_, if_pos hbs, load_lines .wrbIbuf bs _⟩
  · exact ⟨statusWord s, rfl, statusWord_bit_zero s, agentStep_wait s rest⟩
  · exact program_of_agentStep_engine hb

end Sys2Proof.Machine
end

section
/-! PROOFS. The two multipliers (O10 to O15, O40). The polynomial of a byte, read modulo `X^w + poly pl`, turns XOR into
addition and one iteration's shift of `bb` into multiplication by X, so that the loop computes the product (R107); a
value below `2^w` is fixed by its residue. The laws R108 to R111 are then laws of the quotient ring, and R114 holds
because both reduction polynomials are irreducible. -/

namespace Sys2Proof.Machine

open Polynomial

/-! ### The values of a field -/

/-- The values of a field of width `w`: the bytes up to the mask `2^w - 1` (R102). -/
def Fits (w : Nat) (a : Byte) : Prop := a.toNat < 2 ^ w

/-- The mask `M` of R102. -/
abbrev valueMask (w : Nat) : Byte := BitVec.ofNat 8 (2 ^ w - 1)

theorem Fits.getLsbD {w i : Nat} {a : Byte} (h : Fits w a) (hi : w ≤ i) : a.getLsbD i = false :=
  Nat.testBit_lt_two_pow (h.trans_le (Nat.pow_le_pow_right (by decide) hi))

theorem fits_of_getLsbD {w : Nat} {a : Byte} (h : ∀ i, w ≤ i → a.getLsbD i = false) : Fits w a :=
  Nat.lt_pow_two_of_testBit _ h

theorem fits_zero (w : Nat) : Fits w 0x00#8 := Nat.two_pow_pos w

theorem fits_eight (a : Byte) : Fits 8 a := a.isLt

theorem Fits.xor {w : Nat} {a b : Byte} (ha : Fits w a) (hb : Fits w b) : Fits w (a ^^^ b) := by
  unfold Fits
  rw [BitVec.toNat_xor]
  exact Nat.xor_lt_two_pow ha hb

theorem getLsbD_mask {w i : Nat} (hw : w ≤ 8) : (valueMask w).getLsbD i = decide (i < w) := by
  rw [BitVec.getLsbD_ofNat, Nat.testBit_two_pow_sub_one]
  by_cases hi : i < w
  · simp [hi, hi.trans_le hw]
  · simp [hi]

theorem fits_and_mask {w : Nat} (hw : w ≤ 8) (a : Byte) : Fits w (a &&& valueMask w) :=
  fits_of_getLsbD fun i hi => by simp [getLsbD_mask hw, hi]

theorem Fits.and_mask {w : Nat} (hw : w ≤ 8) {a : Byte} (h : Fits w a) : a &&& valueMask w = a := by
  refine BitVec.eq_of_getLsbD_eq fun i _ => ?_
  rw [BitVec.getLsbD_and, getLsbD_mask hw]
  by_cases hi : i < w
  · simp [hi]
  · simp [hi, h.getLsbD (not_lt.1 hi)]

/-! ### The polynomial of a byte -/

/-- The polynomial over GF(2) whose coefficient vector is the byte (R107). -/
noncomputable def poly (a : Byte) : (ZMod 2)[X] := ∑ i ∈ Finset.range 8, if a.getLsbD i = true then X ^ i else 0

theorem coeff_poly (a : Byte) (i : Nat) : (poly a).coeff i = if a.getLsbD i = true then 1 else 0 := by
  have hterm (j : Nat) : (if a.getLsbD j = true then X ^ j else 0 : (ZMod 2)[X]).coeff i =
      if i = j then (if a.getLsbD i = true then 1 else 0) else 0 := by
    by_cases hij : i = j
    · subst hij
      split <;> simp
    · split <;> simp [coeff_X_pow, hij]
  rw [poly, finsetSum_coeff, Finset.sum_congr rfl fun j _ => hterm j, Finset.sum_ite_eq]
  by_cases hi : i < 8
  · rw [if_pos (Finset.mem_range.2 hi)]
  · rw [if_neg (hi ∘ Finset.mem_range.1), BitVec.getLsbD_of_ge a i (not_lt.1 hi)]
    rfl

theorem poly_injective : Function.Injective poly := fun a b h => by
  refine BitVec.eq_of_getLsbD_eq fun i _ => ?_
  have hi := congrArg (coeff · i) h
  simp only [coeff_poly] at hi
  cases ha : a.getLsbD i <;> cases hb : b.getLsbD i <;> simp [ha, hb] at hi ⊢

@[simp] theorem poly_zero : poly 0x00#8 = 0 := by
  ext i
  simp [coeff_poly]

@[simp] theorem poly_one : poly 0x01#8 = 1 := by
  ext i
  rw [coeff_poly, coeff_one]
  cases i <;> simp

theorem poly_xor (a b : Byte) : poly (a ^^^ b) = poly a + poly b := by
  ext i
  rw [coeff_add, coeff_poly, coeff_poly, coeff_poly, BitVec.getLsbD_xor]
  cases a.getLsbD i <;> cases b.getLsbD i <;> decide

theorem degree_poly_lt {w : Nat} {a : Byte} (h : Fits w a) : (poly a).degree < w :=
  (degree_lt_iff_coeff_zero _ _).2 fun i hi => by rw [coeff_poly, h.getLsbD hi]; rfl

/-- The byte whose bits are the polynomial's lowest eight coefficients. -/
noncomputable def byteOfPoly (q : (ZMod 2)[X]) : Byte := BitVec.ofFnLE fun i => q.coeff i = 1

theorem getLsbD_byteOfPoly {w i : Nat} (hw : w ≤ 8) {q : (ZMod 2)[X]} (hq : q.degree < w) :
    (byteOfPoly q).getLsbD i = decide (q.coeff i = 1) := by
  rw [byteOfPoly, BitVec.getLsbD_ofFnLE]
  split
  · rfl
  · rw [(degree_lt_iff_coeff_zero q w).1 hq i (by omega)]
    rfl

/-- Every polynomial of degree below `w ≤ 8` is that of a value. -/
theorem exists_poly_eq {w : Nat} (hw : w ≤ 8) {q : (ZMod 2)[X]} (hq : q.degree < w) : ∃ a, Fits w a ∧ poly a = q := by
  refine ⟨byteOfPoly q, fits_of_getLsbD fun i hi => ?_, ?_⟩
  · rw [getLsbD_byteOfPoly hw hq, (degree_lt_iff_coeff_zero q w).1 hq i hi]
    rfl
  · have hcoeff : ∀ c : ZMod 2, (if decide (c = 1) = true then 1 else 0) = c := by decide
    ext i
    rw [coeff_poly, getLsbD_byteOfPoly hw hq, hcoeff]

/-- The low bit of `aa` is the constant coefficient, and the shift of `aa` divides the rest by X. -/
theorem poly_eq_low_add_shift (a : Byte) :
    poly a = (if a.getLsbD 0 = true then (1 : (ZMod 2)[X]) else 0) + X * poly (a >>> 1) := by
  ext i
  cases i with
  | zero =>
    rw [coeff_add, coeff_X_mul_zero, coeff_poly]
    split <;> simp
  | succ i =>
    rw [coeff_add, coeff_X_mul, coeff_poly, coeff_poly, BitVec.getLsbD_ushiftRight, add_comm 1 i, right_eq_add]
    split <;> simp [coeff_one]

/-- The shift of `bb`: multiplication by X, with the bit shifted out as the coefficient of `X^w`. -/
theorem X_mul_poly {w : Nat} (hpos : 0 < w) (hw : w ≤ 8) {a : Byte} (h : Fits w a) :
    X * poly a = poly ((a <<< 1) &&& valueMask w) + if a.getLsbD (w - 1) = true then X ^ w else 0 := by
  ext i
  have hbit : ((a <<< 1) &&& valueMask w).getLsbD i =
      (decide (0 < i) && decide (i < w) && a.getLsbD (i - 1)) := by
    rw [BitVec.getLsbD_and, getLsbD_mask hw, BitVec.getLsbD_shiftLeft]
    grind
  have hcoeff : (X * poly a).coeff i = if (decide (0 < i) && a.getLsbD (i - 1)) = true then 1 else 0 := by
    cases i with
    | zero => simp
    | succ i => simp [coeff_X_mul, coeff_poly]
  have htop : (if a.getLsbD (w - 1) = true then X ^ w else 0 : (ZMod 2)[X]).coeff i =
      if (decide (i = w) && a.getLsbD (i - 1)) = true then 1 else 0 := by
    by_cases hi : i = w
    · subst hi
      split <;> simp_all
    · split <;> simp [coeff_X_pow, hi]
  rw [coeff_add, coeff_poly, hbit, hcoeff, htop]
  rcases lt_trichotomy i w with hi | rfl | hi
  · simp [hi, hi.ne]
  · simp [hpos]
  · simp [hi.not_gt, hi.ne', h.getLsbD (Nat.le_sub_one_of_lt hi)]

/-! ### Residues -/

/-- The parameters of a multiplier (R100): a width of at most 8 bits, and a low part below the top of its polynomial. -/
structure FieldParams (w : Nat) (pl : Byte) : Prop where
  pos : 0 < w
  le : w ≤ 8
  low : Fits w pl

/-- The reduction polynomial `P(x) = x^W + Pl(x)` (R107). -/
noncomputable def reducer (w : Nat) (pl : Byte) : (ZMod 2)[X] := X ^ w + poly pl

/-- A byte's polynomial modulo the reduction polynomial. -/
noncomputable def residue (w : Nat) (pl a : Byte) : AdjoinRoot (reducer w pl) := AdjoinRoot.mk _ (poly a)

section
variable {w : Nat} {pl a b : Byte}

theorem FieldParams.fits_one (hp : FieldParams w pl) : Fits w 0x01#8 := Nat.one_lt_two_pow hp.pos.ne'

theorem FieldParams.monic_reducer (hp : FieldParams w pl) : (reducer w pl).Monic :=
  monic_X_pow_add (degree_poly_lt hp.low)

theorem FieldParams.degree_reducer (hp : FieldParams w pl) : (reducer w pl).degree = w :=
  (degree_add_eq_left_of_degree_lt (by rw [degree_X_pow]; exact degree_poly_lt hp.low)).trans (degree_X_pow w)

theorem FieldParams.natDegree_reducer (hp : FieldParams w pl) : (reducer w pl).natDegree = w :=
  natDegree_eq_of_degree_eq_some hp.degree_reducer

@[simp] theorem residue_zero : residue w pl 0x00#8 = 0 := by simp [residue]

@[simp] theorem residue_one : residue w pl 0x01#8 = 1 := by simp [residue]

theorem residue_xor : residue w pl (a ^^^ b) = residue w pl a + residue w pl b := by
  simp only [residue, poly_xor, map_add]

/-- Modulo `x^W + Pl(x)` the top power is the low part, since over GF(2) the sum of two equal terms is 0. -/
theorem mk_X_pow_eq_residue : AdjoinRoot.mk (reducer w pl) (X ^ w) = residue w pl pl := by
  have hself : AdjoinRoot.mk (reducer w pl) (X ^ w) + residue w pl pl = 0 := by
    rw [residue, ← map_add]
    exact AdjoinRoot.mk_self
  have htwice : residue w pl pl + residue w pl pl = 0 := by
    rw [← residue_xor, BitVec.xor_self, residue_zero]
  exact add_right_cancel (hself.trans htwice.symm)

theorem residue_eq_low_add_shift (a : Byte) : residue w pl a =
    (if a.getLsbD 0 = true then (1 : AdjoinRoot (reducer w pl)) else 0) +
      AdjoinRoot.mk _ X * residue w pl (a >>> 1) := by
  rw [residue, poly_eq_low_add_shift, map_add, map_mul, apply_ite (AdjoinRoot.mk _), map_one, map_zero]
  rfl

/-- A value is fixed by its residue, having a lower degree than the reduction polynomial. -/
theorem FieldParams.eq_of_residue_eq (hp : FieldParams w pl) (ha : Fits w a) (hb : Fits w b)
    (h : residue w pl a = residue w pl b) : a = b := by
  refine poly_injective (sub_eq_zero.1 (eq_zero_of_dvd_of_degree_lt (AdjoinRoot.mk_eq_mk.1 h) ?_))
  rw [hp.degree_reducer]
  exact (degree_sub_le _ _).trans_lt (max_lt (degree_poly_lt ha) (degree_poly_lt hb))

/-- Every residue is that of a value. -/
theorem FieldParams.exists_residue_eq (hp : FieldParams w pl) (r : AdjoinRoot (reducer w pl)) :
    ∃ a, Fits w a ∧ residue w pl a = r := by
  obtain ⟨q, rfl⟩ := AdjoinRoot.mk_surjective r
  have hdeg : (q %ₘ reducer w pl).degree < w := hp.degree_reducer ▸ degree_modByMonic_lt q hp.monic_reducer
  obtain ⟨a, ha, hq⟩ := exists_poly_eq hp.le hdeg
  exact ⟨a, ha, AdjoinRoot.mk_eq_mk.2 (hq ▸ dvd_modByMonic_sub q _)⟩

/-! ### The loop -/

/-- One iteration's new `bb` stays a value and is multiplied by X (R102, R103). -/
theorem FieldParams.residue_gfShift (hp : FieldParams w pl) (ha : Fits w a) :
    Fits w (gfShift w pl (valueMask w) a) ∧
      residue w pl (gfShift w pl (valueMask w) a) = AdjoinRoot.mk _ X * residue w pl a := by
  have hmask := fits_and_mask hp.le (a <<< 1)
  have hX : AdjoinRoot.mk (reducer w pl) X * residue w pl a = residue w pl (a <<< 1 &&& valueMask w) +
      if a.getLsbD (w - 1) = true then residue w pl pl else 0 := by
    rw [residue, ← map_mul, X_mul_poly hp.pos hp.le ha, map_add, apply_ite (AdjoinRoot.mk _), map_zero,
      mk_X_pow_eq_residue]
    rfl
  rw [hX, gfShift]
  split
  · exact ⟨hmask.xor hp.low, residue_xor⟩
  · exact ⟨hmask, (add_zero _).symm⟩

/-- R107's induction: `n` iterations add the product of `aa`, below `2^n`, and `bb` to `acc`. -/
theorem FieldParams.residue_gfLoop (hp : FieldParams w pl) (n : Nat) {aa bb acc : Byte} (haa : Fits n aa)
    (hbb : Fits w bb) (hacc : Fits w acc) :
    Fits w (gfLoop w pl (valueMask w) n aa bb acc) ∧
      residue w pl (gfLoop w pl (valueMask w) n aa bb acc) =
        residue w pl acc + residue w pl aa * residue w pl bb := by
  induction n generalizing aa bb acc with
  | zero =>
    have hzero : aa = 0x00#8 := BitVec.eq_of_toNat_eq (Nat.lt_one_iff.1 haa)
    subst hzero
    exact ⟨hacc, by simp [gfLoop]⟩
  | succ n ih =>
    have hshift : Fits n (aa >>> 1) := by
      unfold Fits at haa ⊢
      rw [BitVec.toNat_ushiftRight, Nat.shiftRight_one]
      omega
    obtain ⟨hb, hmul⟩ := hp.residue_gfShift hbb
    have hacc' : Fits w (if aa.getLsbD 0 = true then acc ^^^ bb else acc) := by
      split
      · exact hacc.xor hbb
      · exact hacc
    obtain ⟨hfits, hloop⟩ := ih hshift hb hacc'
    refine ⟨hfits, ?_⟩
    rw [gfLoop, hloop, hmul, residue_eq_low_add_shift aa]
    split
    · rw [residue_xor]; ring
    · ring

theorem fits_gfmul (hw : w ≤ 8) : Fits w (gfmul w pl a b) := fits_and_mask hw _

/-- The product of two values is the product of their residues (R107). -/
theorem FieldParams.residue_gfmul (hp : FieldParams w pl) (ha : Fits w a) (hb : Fits w b) :
    residue w pl (gfmul w pl a b) = residue w pl a * residue w pl b := by
  obtain ⟨hfits, hloop⟩ := hp.residue_gfLoop w ha hb (fits_zero w)
  rw [gfmul, ha.and_mask hp.le, hb.and_mask hp.le, hfits.and_mask hp.le, hloop, residue_zero, zero_add]

/-! ### The laws -/

/-- R113: only the masked operands count. -/
theorem gfmul_and_mask (hw : w ≤ 8) (a b : Byte) :
    gfmul w pl a b = gfmul w pl (a &&& valueMask w) (b &&& valueMask w) := by
  unfold gfmul
  simp only [(fits_and_mask hw _).and_mask hw]

/-- R107 for any operands: the residue of the product is the product of the masked operands' residues. -/
theorem FieldParams.residue_gfmul_mask (hp : FieldParams w pl) (a b : Byte) :
    residue w pl (gfmul w pl a b) = residue w pl (a &&& valueMask w) * residue w pl (b &&& valueMask w) := by
  rw [gfmul_and_mask hp.le, hp.residue_gfmul (fits_and_mask hp.le a) (fits_and_mask hp.le b)]

/-- R108. -/
theorem FieldParams.gfmul_comm (hp : FieldParams w pl) (a b : Byte) : gfmul w pl a b = gfmul w pl b a := by
  refine hp.eq_of_residue_eq (fits_gfmul hp.le) (fits_gfmul hp.le) ?_
  rw [hp.residue_gfmul_mask, hp.residue_gfmul_mask, mul_comm]

/-- R110. -/
theorem FieldParams.gfmul_xor (hp : FieldParams w pl) (a b c : Byte) :
    gfmul w pl a (b ^^^ c) = gfmul w pl a b ^^^ gfmul w pl a c := by
  refine hp.eq_of_residue_eq (fits_gfmul hp.le) ((fits_gfmul hp.le).xor (fits_gfmul hp.le)) ?_
  have hmask : (b ^^^ c) &&& valueMask w = (b &&& valueMask w) ^^^ (c &&& valueMask w) :=
    BitVec.eq_of_getLsbD_eq fun i _ => by simp only [BitVec.getLsbD_and, BitVec.getLsbD_xor, Bool.and_xor_distrib_right]
  rw [residue_xor, hp.residue_gfmul_mask, hp.residue_gfmul_mask, hp.residue_gfmul_mask, hmask, residue_xor, mul_add]

/-- R109: a right operand masked to 0 gives 0. -/
theorem FieldParams.gfmul_eq_zero (hp : FieldParams w pl) (a : Byte) (h : b &&& valueMask w = 0x00#8) :
    gfmul w pl a b = 0x00#8 := by
  refine hp.eq_of_residue_eq (fits_gfmul hp.le) (fits_zero w) ?_
  rw [hp.residue_gfmul_mask, h, residue_zero, mul_zero]

/-- R111. -/
theorem FieldParams.gfmul_one (hp : FieldParams w pl) (a : Byte) : gfmul w pl a 0x01#8 = a &&& valueMask w := by
  refine hp.eq_of_residue_eq (fits_gfmul hp.le) (fits_and_mask hp.le a) ?_
  rw [hp.residue_gfmul_mask, hp.fits_one.and_mask hp.le, residue_one, mul_one]

/-- R107 as divisibility. -/
theorem FieldParams.reducer_dvd (hp : FieldParams w pl) (a b : Byte) : reducer w pl ∣
    poly (a &&& valueMask w) * poly (b &&& valueMask w) - poly (gfmul w pl a b) := by
  rw [← AdjoinRoot.mk_eq_mk, map_mul]
  exact (hp.residue_gfmul_mask a b).symm

/-! ### Inverses -/

/-- No two factors: a divisor of at most half the degree is the polynomial of a small value, and a value with an inverse
is coprime to the reduction polynomial. -/
theorem FieldParams.irreducible_reducer (hp : FieldParams w pl)
    (hinv : ∀ a : Byte, 2 ≤ a.toNat → a.toNat < 2 ^ (w / 2 + 1) → ∃ b, gfmul w pl a b = 0x01#8) :
    Irreducible (reducer w pl) := by
  have hw := hp.le
  have hpos := hp.pos
  have hne : reducer w pl ≠ 1 := fun h => hpos.ne' (by rw [← hp.natDegree_reducer, h, natDegree_one])
  refine (hp.monic_reducer.irreducible_iff_lt_natDegree_lt hne).2 fun q hq hdeg hdvd => ?_
  rw [hp.natDegree_reducer, Finset.mem_Ioc] at hdeg
  obtain ⟨hdeg0, hdegle⟩ := hdeg
  have hlt : q.degree < (w / 2 + 1 : Nat) := (natDegree_lt_iff_degree_lt hq.ne_zero).1 (by omega)
  obtain ⟨a, ha, rfl⟩ := exists_poly_eq (by omega) hlt
  have htwo : 2 ≤ a.toNat := not_lt.1 fun h =>
    hdeg0.ne' (Nat.lt_one_iff.1 ((natDegree_lt_iff_degree_lt hq.ne_zero).2 (degree_poly_lt (show Fits 1 a from h))))
  obtain ⟨b, hmul⟩ := hinv a htwo ha
  have haw : Fits w a := ha.trans_le (Nat.pow_le_pow_right (by decide) (by omega))
  have hcong := hp.reducer_dvd a b
  rw [hmul, poly_one, haw.and_mask hw] at hcong
  have hunit : poly a ∣ 1 := (dvd_sub_right (dvd_mul_right _ _)).1 (hdvd.trans hcong)
  exact hdeg0.ne' (natDegree_eq_zero_of_isUnit (isUnit_of_dvd_one hunit))

/-- R114 for an irreducible reduction polynomial. -/
theorem FieldParams.exists_unique_inverse (hp : FieldParams w pl) (hirr : Irreducible (reducer w pl)) (ha : Fits w a)
    (hne : a ≠ 0x00#8) :
    ∃ b, Fits w b ∧ gfmul w pl a b = 0x01#8 ∧ ∀ c, Fits w c → gfmul w pl a c = 0x01#8 → c = b := by
  have hfact := Fact.mk hirr
  have hres : residue w pl a ≠ 0 := fun h =>
    hne (hp.eq_of_residue_eq ha (fits_zero w) (h.trans residue_zero.symm))
  obtain ⟨b, hb, hinv⟩ := hp.exists_residue_eq (residue w pl a)⁻¹
  refine ⟨b, hb, hp.eq_of_residue_eq (fits_gfmul hp.le) hp.fits_one ?_, fun c hc h => hp.eq_of_residue_eq hc hb ?_⟩
  · rw [hp.residue_gfmul ha hb, hinv, mul_inv_cancel₀ hres, residue_one]
  · have hmul : residue w pl a * residue w pl c = 1 := by rw [← hp.residue_gfmul ha hc, h, residue_one]
    rw [hinv, eq_inv_of_mul_eq_one_right hmul]

end

/-! ### The two fields -/

/-- GFMUL8's parameters (R105). -/
theorem fieldParams_eight : FieldParams 8 0x1B#8 := ⟨by decide, le_rfl, fits_eight _⟩

/-- GFMUL4's parameters (R106). -/
theorem fieldParams_four : FieldParams 4 0x03#8 := ⟨by decide, by decide, by unfold Fits; decide⟩

/-- P8 (R107). -/
theorem reducer_eight : reducer 8 0x1B#8 = X ^ 8 + X ^ 4 + X ^ 3 + X + 1 := by
  have hlow : poly 0x1B#8 = 1 + X + X ^ 3 + X ^ 4 := by simp [poly, Finset.sum_range_succ]
  rw [reducer, hlow]
  ring

/-- P4 (R107). -/
theorem reducer_four : reducer 4 0x03#8 = X ^ 4 + X + 1 := by
  have hlow : poly 0x03#8 = 1 + X := by simp [poly, Finset.sum_range_succ]
  rw [reducer, hlow]
  ring

/-- The inverse under GFMUL8 of a byte from 2 to 31. -/
def smallInverse8 (a : Byte) : Byte :=
  [0x8D#8, 0xF6#8, 0xCB#8, 0x52#8, 0x7B#8, 0xD1#8, 0xE8#8, 0x4F#8, 0x29#8, 0xC0#8, 0xB0#8, 0xE1#8, 0xE5#8, 0xC7#8,
    0x74#8, 0xB4#8, 0xAA#8, 0x4B#8, 0x99#8, 0x2B#8, 0x60#8, 0x5F#8, 0x58#8, 0x3F#8, 0xFD#8, 0xCC#8, 0xFF#8, 0x40#8,
    0xEE#8, 0xB2#8].getD (a.toNat - 2) 0x00#8

/-- The inverse under GFMUL4 of a nibble from 2 to 7. -/
def smallInverse4 (a : Byte) : Byte :=
  [0x09#8, 0x0E#8, 0x0D#8, 0x0B#8, 0x07#8, 0x06#8].getD (a.toNat - 2) 0x00#8

/-- P8 is irreducible: no polynomial of degree 1 to 4 divides it. -/
theorem irreducible_reducer_eight : Irreducible (reducer 8 0x1B#8) := by
  have htable : ∀ a : Byte, 2 ≤ a.toNat → a.toNat < 32 → gfmul 8 0x1B#8 a (smallInverse8 a) = 0x01#8 := by decide
  exact fieldParams_eight.irreducible_reducer fun a htwo hlt => ⟨_, htable a htwo hlt⟩

/-- P4 is irreducible: no polynomial of degree 1 or 2 divides it. -/
theorem irreducible_reducer_four : Irreducible (reducer 4 0x03#8) := by
  have htable : ∀ a : Byte, 2 ≤ a.toNat → a.toNat < 8 → gfmul 4 0x03#8 a (smallInverse4 a) = 0x01#8 := by decide
  exact fieldParams_four.irreducible_reducer fun a htwo hlt => ⟨_, htable a htwo hlt⟩

/-! ### The statements -/

/-- Settles O10: the quotient rings are commutative. -/
theorem multipliersCommute : Obligations.MultipliersCommute := fun a b =>
  ⟨fieldParams_eight.gfmul_comm a b, fieldParams_four.gfmul_comm a b⟩

/-- Settles O11: XOR is the addition of the quotient rings. -/
theorem multipliersDistributeOverXor : Obligations.MultipliersDistributeOverXor := fun a b c =>
  ⟨fieldParams_eight.gfmul_xor a b c, fieldParams_four.gfmul_xor a b c⟩

/-- Settles O12: zero and one are the zero and the one of the quotient rings. -/
theorem multipliersZeroAndOne : Obligations.MultipliersZeroAndOne := by
  refine fun a b => ⟨⟨?_, ?_⟩, fun h => ⟨?_, ?_⟩, ?_, fieldParams_four.gfmul_one a⟩
  · exact fieldParams_eight.gfmul_eq_zero a rfl
  · exact (fieldParams_eight.gfmul_comm _ b).trans (fieldParams_eight.gfmul_eq_zero b rfl)
  · exact fieldParams_four.gfmul_eq_zero a h
  · exact (fieldParams_four.gfmul_comm b a).trans (fieldParams_four.gfmul_eq_zero a h)
  · exact (fieldParams_eight.gfmul_one a).trans ((fits_eight a).and_mask le_rfl)

/-- Settles O13: both ends of the loop mask. -/
theorem gfmul4UsesAndGivesNibbles : Obligations.Gfmul4UsesAndGivesNibbles := fun a b =>
  ⟨gfmul_and_mask fieldParams_four.le a b, Nat.le_of_lt_succ (fits_gfmul fieldParams_four.le)⟩

/-- Settles O14: R107's induction on the loop. -/
theorem productsAreReducedPolynomialProducts : Obligations.ProductsAreReducedPolynomialProducts := by
  refine ⟨fun a b => ?_, fun a b => ⟨?_, Nat.le_of_lt_succ (fits_gfmul fieldParams_four.le)⟩⟩
  · have hdvd := fieldParams_eight.reducer_dvd a b
    rwa [reducer_eight, (fits_eight a).and_mask le_rfl, (fits_eight b).and_mask le_rfl] at hdvd
  · exact reducer_four ▸ fieldParams_four.reducer_dvd a b

/-- Settles O15: modulo an irreducible polynomial the quotient ring is a field. -/
theorem nonzeroValuesHaveOneInverse : Obligations.NonzeroValuesHaveOneInverse := by
  refine ⟨fun x hne => ?_, fun x hpos hle => ?_⟩
  · obtain ⟨y, -, hy, honly⟩ :=
      fieldParams_eight.exists_unique_inverse irreducible_reducer_eight (fits_eight x) hne
    exact ⟨y, hy, fun z => honly z (fits_eight z)⟩
  · obtain ⟨y, hfits, hy, honly⟩ :=
      fieldParams_four.exists_unique_inverse irreducible_reducer_four (Nat.lt_succ_of_le hle)
        (by rintro rfl; exact absurd hpos (by decide))
    exact ⟨y, Nat.le_of_lt_succ hfits, hy, fun z hz => honly z (Nat.lt_succ_of_le hz)⟩

/-- A multiplier outside ROUND with its mode changes nothing (log entry 7). -/
theorem inRound_unused {m : BlockMode} {s : State} (mul : Byte → Byte → Byte)
    (h : ¬(s.eng.fsm = .round ∧ s.eng.mode = m)) : inRound m s mul = .next s := if_neg h

/-- Settles O40: the two units' meanings are the ROUND micro-step of their mode. -/
theorem unusedMultiplierChangesNothing : Obligations.UnusedMultiplierChangesNothing := fun _ =>
  ⟨inRound_unused gfmul4, inRound_unused gfmul8⟩

end Sys2Proof.Machine
end

section
/-! PROOFS. The round function (O16, O17). In each mode F is the product of the mode's field, and so the laws of the
products are laws of F in both modes (R120); the cipher of a mode uses only the masked round keys (R124). -/

namespace Sys2Proof.Machine

/-! ### F as the product of the mode's field -/

/-- The low part of the mode's reduction polynomial (R105, R106). -/
def lowPart : BlockMode → Byte
  | .nibble => 0x03#8
  | .byte => 0x1B#8

theorem fieldParams_halfWidth : (m : BlockMode) → FieldParams (halfWidth m) (lowPart m)
  | .nibble => fieldParams_four
  | .byte => fieldParams_eight

theorem valueMask_halfWidth : (m : BlockMode) → valueMask (halfWidth m) = halfMask m
  | .nibble => rfl
  | .byte => rfl

theorem roundFn_eq_gfmul (h k : Byte) : (m : BlockMode) → roundFn h k m = gfmul (halfWidth m) (lowPart m) h k
  | .nibble => rfl
  | .byte => rfl

theorem fits_roundFn (h k : Byte) (m : BlockMode) : Fits (halfWidth m) (roundFn h k m) :=
  roundFn_eq_gfmul h k m ▸ fits_gfmul (fieldParams_halfWidth m).le

/-- The values of a mode's field are the bytes up to the mode's mask (R7). -/
theorem fits_halfWidth_iff {a : Byte} : (m : BlockMode) → (Fits (halfWidth m) a ↔ a.toNat ≤ (halfMask m).toNat)
  | .nibble => Nat.lt_succ_iff
  | .byte => Nat.lt_succ_iff

theorem and_halfMask_of_fits {m : BlockMode} {a : Byte} (h : Fits (halfWidth m) a) : a &&& halfMask m = a :=
  valueMask_halfWidth m ▸ h.and_mask (fieldParams_halfWidth m).le

/-! ### The laws of F -/

/-- R113 for F: only the masked operands count. -/
theorem roundFn_and_halfMask (h k : Byte) (m : BlockMode) :
    roundFn (h &&& halfMask m) (k &&& halfMask m) m = roundFn h k m := by
  rw [roundFn_eq_gfmul, roundFn_eq_gfmul, ← valueMask_halfWidth, ← gfmul_and_mask (fieldParams_halfWidth m).le]

/-- R108 for F. -/
theorem roundFn_comm (h k : Byte) (m : BlockMode) : roundFn h k m = roundFn k h m := by
  rw [roundFn_eq_gfmul, roundFn_eq_gfmul, (fieldParams_halfWidth m).gfmul_comm]

/-- R123(a) and (b): a key masked to 0. -/
theorem roundFn_eq_zero (h : Byte) {k : Byte} {m : BlockMode} (hk : k &&& halfMask m = 0x00#8) :
    roundFn h k m = 0x00#8 := by
  rw [roundFn_eq_gfmul]
  exact (fieldParams_halfWidth m).gfmul_eq_zero h (valueMask_halfWidth m ▸ hk)

/-- R111 for F. -/
theorem roundFn_one (h : Byte) (m : BlockMode) : roundFn h 0x01#8 m = h &&& halfMask m := by
  rw [roundFn_eq_gfmul, (fieldParams_halfWidth m).gfmul_one, valueMask_halfWidth]

/-- R123(d): a key masked to 1 gives back a half within the mask. -/
theorem roundFn_eq_self {h k : Byte} {m : BlockMode} (hk : k &&& halfMask m = 0x01#8) (hh : Fits (halfWidth m) h) :
    roundFn h k m = h := by
  rw [← roundFn_and_halfMask, hk, roundFn_one, and_halfMask_of_fits hh, and_halfMask_of_fits hh]

/-! ### The cipher under masked round keys -/

/-- Reordering the keys commutes with changing each of them (R133). -/
theorem roundKeys_map (f : Byte → Byte) (d : Dir) (keys : List Byte) :
    roundKeys d (keys.map f) = (roundKeys d keys).map f := by
  simp only [roundKeys, List.length_map, List.map_filterMap, List.getElem?_map]

theorem feistelRound_and_halfMask (m : BlockMode) (k : Byte) (h : Halves) :
    feistelRound m (k &&& halfMask m) h = feistelRound m k h := by
  have hmask : roundFn h.r (k &&& halfMask m) m = roundFn h.r k m := by
    rw [← roundFn_and_halfMask, BitVec.and_assoc, BitVec.and_self, roundFn_and_halfMask]
  rw [feistelRound, hmask, feistelRound]

theorem rounds_map_and_halfMask (m : BlockMode) (ks : List Byte) (h : Halves) :
    rounds m (ks.map (· &&& halfMask m)) h = rounds m ks h := by
  induction ks generalizing h with
  | nil => rfl
  | cons k ks ih => rw [List.map_cons, rounds, rounds, ih, feistelRound_and_halfMask]

theorem xblock_map_and_halfMask (d : Dir) (keys : List Byte) (b : Block) :
    xblock d (keys.map (· &&& halfMask (blockMode b))) b = xblock d keys b := by
  rw [xblock, roundKeys_map, rounds_map_and_halfMask, xblock]

/-- R124 for a whole buffer: a mode uses only the masked round keys. -/
theorem xbuf_map_and_halfMask (d : Dir) (m : BlockMode) (keys buf : List Byte) :
    xbuf d m (keys.map (· &&& halfMask m)) buf = xbuf d m keys buf := by
  induction buf using blockwise_induction (m := m) with
  | short buf hlen => rw [xbuf_short d _ hlen, xbuf_short d _ hlen]
  | block b rest hb ih =>
    subst hb
    rw [xbuf_blockBytes_append d _ rfl, xbuf_blockBytes_append d _ rfl, xblock_map_and_halfMask, ih]

/-! ### The statements -/

/-- Settles O16: the zero and the one of the mode's field. -/
theorem roundFunctionCorners : Obligations.RoundFunctionCorners := by
  refine fun h k => ⟨fun m => ?zeroKey, ?zeroNibble, fun m => ?zeroHalf, ?oneByte, fun hk hh => ?oneNibble⟩
  case zeroKey => exact roundFn_eq_zero h BitVec.zero_and
  case zeroNibble => exact fun hk => roundFn_eq_zero h hk
  case zeroHalf => exact (roundFn_comm _ k m).trans (roundFn_eq_zero k BitVec.zero_and)
  case oneByte => exact roundFn_eq_self rfl (fits_eight h)
  case oneNibble => exact roundFn_eq_self hk ((fits_halfWidth_iff .nibble).2 hh)

/-- Settles O17: F is a value of the mode's field, the cipher uses only the masked keys, and the half 1 gives back the
key in ByteMode. -/
theorem roundFunctionRangeAndKeyUse : Obligations.RoundFunctionRangeAndKeyUse := by
  refine ⟨fun h k m => ⟨(fits_halfWidth_iff m).1 (fits_roundFn h k m), and_halfMask_of_fits (fits_roundFn h k m)⟩,
    fun d keys keys' buf hkeys => ?_, fun k k' hF => ?_⟩
  · calc xbuf d .nibble keys buf
        = xbuf d .nibble (keys.map (· &&& 0x0F#8)) buf := (xbuf_map_and_halfMask d .nibble keys buf).symm
      _ = xbuf d .nibble (keys'.map (· &&& 0x0F#8)) buf := by rw [hkeys]
      _ = xbuf d .nibble keys' buf := xbuf_map_and_halfMask d .nibble keys' buf
  · have hone (key : Byte) : roundFn 0x01#8 key .byte = key :=
      (roundFn_comm _ key _).trans (roundFn_eq_self rfl (fits_eight key))
    rw [← hone k, hF, hone]

end Sys2Proof.Machine
end

section
/-! PROOFS. The cipher as a whole (O18 to O21, O23). The opposite direction takes the round keys in reverse, and a round
undoes itself on swapped halves; so the transforms of the two
directions are inverse to each other. -/

namespace Sys2Proof.Machine

/-! ### The round keys -/

/-- Encryption takes the keys as they stand (R133). -/
theorem roundKeys_enc (keys : List Byte) : roundKeys .enc keys = keys := by
  induction keys using List.reverseRecOn with
  | nil => rfl
  | append_singleton ks k ih =>
    have hbefore : (List.range ks.length).filterMap (fun r => (ks ++ [k])[r]?) = ks :=
      (List.filterMap_congr fun r hr => List.getElem?_append_left (List.mem_range.1 hr)).trans ih
    simp [roundKeys, keyIndex, List.range_succ, hbefore]

/-- Decryption takes the keys in reverse (R133). -/
theorem roundKeys_dec (keys : List Byte) : roundKeys .dec keys = keys.reverse := by
  induction keys using List.reverseRecOn with
  | nil => rfl
  | append_singleton ks k ih =>
    have hafter : (List.range ks.length).filterMap (fun r => (ks ++ [k])[ks.length - (r + 1)]?) = ks.reverse := by
      refine (List.filterMap_congr fun r hr => ?_).trans ih
      have hlt := List.mem_range.1 hr
      rw [List.getElem?_append_left (by omega), keyIndex, Nat.sub_sub, Nat.add_comm]
    simp only [roundKeys, keyIndex, List.length_append, List.length_singleton, List.range_succ_eq_map,
      List.filterMap_cons, List.filterMap_map, Function.comp_def, Nat.add_sub_cancel, Nat.succ_eq_add_one, hafter]
    simp

@[simp] theorem length_roundKeys (d : Dir) (keys : List Byte) : (roundKeys d keys).length = keys.length := by
  cases d <;> simp [roundKeys_enc, roundKeys_dec]

/-- Round `r` uses the key that the key indexer names (R133, R134). -/
theorem getElem?_roundKeys (d : Dir) {keys : List Byte} {r : Nat} (h : r < keys.length) :
    (roundKeys d keys)[r]? = keys[keyIndex d keys.length r]? := by
  cases d with
  | enc => rw [roundKeys_enc, keyIndex]
  | dec => rw [roundKeys_dec, keyIndex, List.getElem?_reverse h]

/-- The direction of the inverse operation (R138). -/
def opposite : Dir → Dir
  | .enc => .dec
  | .dec => .enc

@[simp] theorem opposite_opposite (d : Dir) : opposite (opposite d) = d := by cases d <;> rfl

theorem roundKeys_opposite (d : Dir) (keys : List Byte) : roundKeys (opposite d) keys = (roundKeys d keys).reverse := by
  cases d <;> simp [opposite, roundKeys_enc, roundKeys_dec]

/-! ### Rounds and halves -/

/-- Rounds in two parts (R134). -/
theorem rounds_append (m : BlockMode) (ks ks' : List Byte) (h : Halves) :
    rounds m (ks ++ ks') h = rounds m ks' (rounds m ks h) := by
  induction ks generalizing h with
  | nil => rfl
  | cons k ks ih => exact ih _

/-- The halves exchanged. -/
def swap (h : Halves) : Halves := { l := h.r, r := h.l }

@[simp] theorem swap_swap (h : Halves) : swap (swap h) = h := rfl

/-- A round with the same key on its swapped result gives the swapped halves back: the XOR cancels (R131, R138). -/
theorem feistelRound_swap_feistelRound (m : BlockMode) (k : Byte) (h : Halves) :
    feistelRound m k (swap (feistelRound m k h)) = swap h := by
  simp [feistelRound, xorSwap, swap]

/-- Rounds are undone by the same keys in reverse on the swapped halves (R138). -/
theorem rounds_reverse_swap_rounds (m : BlockMode) (ks : List Byte) (h : Halves) :
    rounds m ks.reverse (swap (rounds m ks h)) = swap h := by
  induction ks generalizing h with
  | nil => rfl
  | cons k ks ih =>
    rw [List.reverse_cons, rounds_append, rounds.eq_def m (k :: ks), ih]
    exact feistelRound_swap_feistelRound m k h

/-- Both halves are values of the mode's field (R12). -/
abbrev HalvesFit (m : BlockMode) (h : Halves) : Prop := Fits (halfWidth m) h.l ∧ Fits (halfWidth m) h.r

theorem halvesFit_split : (b : Block) → HalvesFit (blockMode b) (split b)
  | .nibble x => (split_nibble_le x).imp Nat.lt_succ_of_le Nat.lt_succ_of_le
  | .byte x0 x1 => ⟨fits_eight x0, fits_eight x1⟩

theorem HalvesFit.rounds {m : BlockMode} {h : Halves} (hh : HalvesFit m h) (ks : List Byte) :
    HalvesFit m (rounds m ks h) := by
  induction ks generalizing h with
  | nil => exact hh
  | cons k ks ih =>
    refine ih ⟨hh.2, hh.1.xor ?_⟩
    rw [and_halfMask_of_fits (fits_roundFn _ _ _)]
    exact fits_roundFn _ _ _

/-- The two nibbles of a byte are its quotient and remainder by 16 (R130). -/
theorem split_nibble_toNat (x : Byte) :
    (split (.nibble x)).l.toNat = x.toNat / 16 ∧ (split (.nibble x)).r.toNat = x.toNat % 16 := by
  simp only [split, BitVec.toNat_setWidth, BitVec.extractLsb'_toNat, Nat.shiftRight_eq_div_pow]
  omega

/-- The byte of two nibbles, the first one high (R132). -/
theorem nibbles_toNat (a b : Byte) :
    (a.extractLsb' 0 4 ++ b.extractLsb' 0 4).toNat = a.toNat % 16 * 16 + b.toNat % 16 := by
  have hlow : b.toNat % 2 ^ 4 < 2 ^ 4 := Nat.mod_lt _ (by decide)
  rw [BitVec.toNat_append, BitVec.extractLsb'_toNat, BitVec.extractLsb'_toNat, Nat.shiftRight_zero, Nat.shiftRight_zero,
    ← Nat.shiftLeft_add_eq_or_of_lt hlow, Nat.shiftLeft_eq]
  rfl

/-- Splitting the output swaps the halves, where they have the mode's width (R130, R132). -/
theorem split_join {m : BlockMode} {h : Halves} (hh : HalvesFit m h) : split (join m h) = swap h := by
  cases m with
  | byte => rfl
  | nibble =>
    obtain ⟨hl, hr⟩ : h.l.toNat < 16 ∧ h.r.toNat < 16 := hh
    obtain ⟨hhigh, hlow⟩ := split_nibble_toNat (h.r.extractLsb' 0 4 ++ h.l.extractLsb' 0 4)
    rw [nibbles_toNat] at hhigh hlow
    have hhigh' : (split (join .nibble h)).l = h.r := BitVec.eq_of_toNat_eq (hhigh.trans (by omega))
    have hlow' : (split (join .nibble h)).r = h.l := BitVec.eq_of_toNat_eq (hlow.trans (by omega))
    rw [swap, ← hhigh', ← hlow']

/-- Joining the swapped halves of a block gives it back (R130, R132). -/
theorem join_swap_split (b : Block) : join (blockMode b) (swap (split b)) = b := by
  cases b with
  | byte x0 x1 => rfl
  | nibble x =>
    obtain ⟨hl, hr⟩ := split_nibble_toNat x
    refine congrArg Block.nibble (BitVec.eq_of_toNat_eq ((nibbles_toNat _ _).trans ?_))
    simp only [swap, hl, hr]
    omega

/-! ### The inverse -/

/-- Each direction's block transform undoes the other's (R138). -/
theorem xblock_opposite_xblock (d : Dir) (keys : List Byte) (b : Block) :
    xblock (opposite d) keys (xblock d keys b) = b := by
  have hfit := (halvesFit_split b).rounds (roundKeys d keys)
  rw [xblock, blockMode_xblock, xblock, split_join hfit, roundKeys_opposite, rounds_reverse_swap_rounds,
    join_swap_split]

/-- Each direction's buffer transform undoes the other's on the whole blocks (R138). -/
theorem xbuf_opposite_xbuf (d : Dir) (m : BlockMode) (keys buf : List Byte) :
    xbuf (opposite d) m keys (xbuf d m keys buf) = buf.take (buf.length / blockSize m * blockSize m) := by
  induction buf using blockwise_induction (m := m) with
  | short buf hlen => simp [xbuf_short d keys hlen, xbuf_nil, Nat.div_eq_of_lt hlen]
  | block b rest hb ih =>
    have hlen : (blockBytes b ++ rest).length / blockSize m * blockSize m =
        (blockBytes b).length + rest.length / blockSize m * blockSize m := by
      rw [List.length_append, length_blockBytes, hb, Nat.add_div_left _ (blockSize_pos m), Nat.succ_mul, Nat.add_comm]
    rw [xbuf_blockBytes_append d keys hb, xbuf_blockBytes_append _ keys ((blockMode_xblock d keys b).trans hb),
      xblock_opposite_xblock, ih, hlen, List.take_length_add_append]

/-- Settles O18: each direction is the other's opposite. -/
theorem operationsAreInverse : Obligations.OperationsAreInverse := fun m keys buf =>
  ⟨xbuf_opposite_xbuf .enc m keys buf, xbuf_opposite_xbuf .dec m keys buf⟩

/-- Settles O19: the output is cut after its last whole block, which is its end. -/
theorem outputIsTruncatedToWholeBlocks : Obligations.OutputIsTruncatedToWholeBlocks := by
  intro d m keys buf
  have hlen := length_xbuf d m keys buf
  refine ⟨hlen, ?_⟩
  obtain ⟨htake, -⟩ := xbuf_take_and_drop d keys (Nat.div_mul_le_self buf.length (blockSize m))
  rw [← htake, List.take_of_length_le hlen.le]

/-- Settles O21: the opposite direction's transform is the inverse on both sides. -/
theorem blockTransformIsBijective : Obligations.BlockTransformIsBijective := fun d keys =>
  ⟨Function.bijective_iff_has_inverse.2 ⟨xblock (opposite d) keys, xblock_opposite_xblock d keys,
    fun b => by simpa using xblock_opposite_xblock (opposite d) keys b⟩, blockMode_xblock d keys⟩

/-- Settles O23: the round keys of a decryption are the keys in reverse. -/
theorem decryptionReversesTheKeyOrder : Obligations.DecryptionReversesTheKeyOrder := by
  intro m keys buf
  have hreverse : xbuf .dec m keys buf = xbuf .enc m keys.reverse buf := by
    simp only [xbuf, xblock, roundKeys_enc, roundKeys_dec]
  refine ⟨hreverse, fun hlen => hreverse.trans ?_⟩
  match keys, hlen with
  | [], _ | [_], _ => rfl

/-! ### Blocks that one round or none leaves -/

/-- A round with F zero only swaps the halves (R141). -/
theorem feistelRound_of_zero {m : BlockMode} {k : Byte} {h : Halves} (hF : roundFn h.r k m = 0x00#8) :
    feistelRound m k h = swap h := by
  simp [feistelRound, xorSwap, swap, hF]

/-- A block's one round with F zero is undone by the swap on output (R141). -/
theorem xblock_singleton_of_zero (d : Dir) {k : Byte} {b : Block} (hF : roundFn (split b).r k (blockMode b) = 0x00#8) :
    xblock d [k] b = b := by
  have hkeys : roundKeys d [k] = [k] := by cases d <;> rfl
  rw [xblock, hkeys, rounds, feistelRound_of_zero hF, rounds, join_swap_split]

/-- Settles O20: with no round the output only swaps. -/
theorem zeroRoundAndKeyZeroBlocks : Obligations.ZeroRoundAndKeyZeroBlocks := by
  refine fun d => ⟨fun x0 x1 => rfl, fun x => ⟨_, rfl, ?nibble⟩, ⟨fun m r => roundFn_eq_zero r BitVec.zero_and,
    fun k r hk => roundFn_eq_zero r hk⟩, fun m k h hF => feistelRound_of_zero (hF h.r), fun k b hzero => ?oneRound⟩
  case nibble =>
    obtain ⟨hl, hr⟩ := split_nibble_toNat x
    refine (nibbles_toNat _ _).trans ?_
    simp only [roundKeys, List.length_nil, List.range_zero, List.filterMap_nil, rounds, blockMode, hl, hr]
    omega
  case oneRound =>
    refine xblock_singleton_of_zero d (hzero.elim (fun hF => hF _) fun hr => ?_)
    rw [hr, roundFn_comm]
    exact roundFn_eq_zero k BitVec.zero_and

end Sys2Proof.Machine
end

section
/-! PROOFS. The start and the micro-steps, each with its next state (O7, O24, O38, O39, O41 to O43): what a turn does in
each state of the sequencer, from the bytes it reads. -/

namespace Sys2Proof.Machine

variable {s : State}

/-! ### The turn of each state of the sequencer (R36) -/

theorem engineTurn_idle (h : s.eng.fsm = .idle) : engineTurn s = .next s := by simp [engineTurn, h]

theorem engineTurn_fetch (h : s.eng.fsm = .fetch) : engineTurn s = microFetch s := by simp [engineTurn, h]

theorem engineTurn_store (h : s.eng.fsm = .store) : engineTurn s = microStore s := by simp [engineTurn, h]

theorem engineTurn_finish (h : s.eng.fsm = .finish) : engineTurn s = microFinish s := by simp [engineTurn, h]

/-- In ROUND the engine runs the multiplier that the mode selects (R89). -/
theorem engineTurn_eq_exec (h : s.eng.fsm = .round) :
    engineTurn s = exec (decodeMulsel (mulselOf s.eng.mode)) s := by simp [engineTurn, h]

/-- Where it is the engine's move, the step is its turn on the state without the entry. -/
theorem step_eq_engineTurn (h : EngineMoves s) : step s = engineTurn (s.setInputs s.inputs.tail) := by
  rcases h with h | h
  · rw [step_nil h, h, List.tail_nil, ← h]
    rfl
  · obtain ⟨rest, hin⟩ := List.head?_eq_some_iff.1 h
    rw [step_cons hin, hin]
    rfl

/-- Settles O7: the turn is on the same engine. -/
theorem stepRunsTheEngineTurn : Obligations.StepRunsTheEngineTurn := by
  intro s hmoves
  have hstep := step_eq_engineTurn hmoves
  have hround (hf : s.eng.fsm = .round) := hstep.trans (engineTurn_eq_exec (s := s.setInputs s.inputs.tail) hf)
  refine ⟨fun hf => hstep.trans (engineTurn_idle hf), fun hf => hstep.trans (engineTurn_fetch hf), fun hf hm => ?nibble,
    fun hf hm => ?byte, fun hf => hstep.trans (engineTurn_store hf), fun hf => hstep.trans (engineTurn_finish hf)⟩
  case nibble | byte =>
    simp only [hround hf, State.setInputs_eng, hm]
    rfl

/-! ### The start -/

/-- Settles O24: both forms of the command are the accepted write to CMD. -/
theorem acceptedCommandStarts : Obligations.AcceptedCommandStarts := by
  intro s cmd i hc ha hi
  have hexec : exec i s = .next (startOp cmd s).okay := by
    rcases hi with rfl | ⟨w, hw, rfl⟩
    · rw [exec_commandInstr, writeCommand_accepts cmd ha]
    · rw [← writeCommand_accepts cmd ha]
      exact congrArg (writeCommand · s) (congrArg Except.toOption hw)
  obtain ⟨hnk, hnb⟩ := startOp_counts cmd hc ha
  exact ⟨_, hexec, rfl, rfl, hnk, hnb, rfl, rfl, rfl, rfl, rfl, rfl, rfl, rfl, rfl, rfl⟩

/-! ### FETCH -/

/-- The state after a FETCH that read the block `b` (R146). -/
def afterFetch (b : Block) (s : State) : State :=
  s.setEngine
    { s.eng with
      l := (split b).l, r := (split b).r, rc := 0#13
      fsm := if s.eng.nk.toNat = 0 then .store else .round }

theorem microFetch_of_block {b : Block} (h : fetchBlock s = .ok b) : microFetch s = .next (afterFetch b s) := by
  have hnk : s.eng.nk.toNat = 0 ↔ s.eng.nk = 0#13 := by bv_omega
  simp only [microFetch, h, afterFetch, hnk]

theorem microFetch_of_error {f : Fault} (h : fetchBlock s = .error f) : microFetch s = .fault f := by
  simp only [microFetch, h]

/-- Settles O38: the bytes read are those of block E.bi. -/
theorem fetchSplitsTheBlock : Obligations.FetchSplitsTheBlock := by
  intro s hf
  have hturn {b : Block} (h : fetchBlock s = .ok b) : engineTurn s = .next (afterFetch b s) :=
    (engineTurn_fetch hf).trans (microFetch_of_block h)
  refine ⟨fun x0 x1 hm hmapped h0 h1 => ?byte, fun x hm hmapped hx => ?nibble⟩
  case byte =>
    refine hturn (fetchBlock_ok.2 (.inr ⟨hm, x0, x1, memRead_ok.2 ⟨?_, h0⟩, memRead_ok.2 ⟨hmapped, h1⟩, rfl⟩))
    exact Nat.lt_of_succ_lt hmapped
  case nibble =>
    obtain ⟨hl, hr⟩ := split_nibble_toNat x
    exact ⟨_, _, hl, hr, hturn (fetchBlock_ok.2 (.inl ⟨hm, x, memRead_ok.2 ⟨hmapped, hx⟩, rfl⟩))⟩

/-! ### ROUND -/

/-- The counter's next value is a bound above it exactly when the numbers say so. -/
theorem count_succ_eq_iff {a b : Count} (h : a.toNat < b.toNat) : a + 1#13 = b ↔ a.toNat + 1 = b.toNat := by bv_omega

theorem count_succ_toNat {a b : Count} (h : a.toNat < b.toNat) : (a + 1#13).toNat = a.toNat + 1 := by bv_omega

/-- During ROUND the key store's address is the key indexer's (R133, R151). -/
theorem keyAddr_toNat {e : Engine} (h : e.rc.toNat < e.nk.toNat) :
    (keyAddr e).toNat = keyIndex e.dir e.nk.toNat e.rc.toNat := by
  unfold keyAddr keyIndex
  cases e.dir with
  | enc => rfl
  | dec => bv_omega

theorem keyIndex_lt (d : Dir) {n r : Nat} (h : r < n) : keyIndex d n r < n := by
  cases d with
  | enc => exact h
  | dec => simp only [keyIndex]; omega

theorem microRound_of_key {mul : Byte → Byte → Byte} {k : Byte} (h : memRead s .key (keyAddr s.eng).toNat = .ok k) :
    microRound mul s = .next (afterRound (mul s.eng.r k &&& halfMask s.eng.mode) s) := by
  simp only [microRound, h]

theorem microRound_of_error {mul : Byte → Byte → Byte} {f : Fault}
    (h : memRead s .key (keyAddr s.eng).toNat = .error f) : microRound mul s = .fault f := by
  simp only [microRound, h]

/-- A ROUND on a defined key byte of the operation, as the engine's turn (R147, R151). -/
theorem engineTurn_round_of_key {k : Byte} (hf : s.eng.fsm = .round) (hrc : s.eng.rc.toNat < s.eng.nk.toNat)
    (hnk : s.eng.nk.toNat ≤ s.cfg.keyMax)
    (hk : s.byteAt .key (keyIndex s.eng.dir s.eng.nk.toNat s.eng.rc.toNat) = some k) :
    engineTurn s = .next (afterRound (roundFn s.eng.r k s.eng.mode) s) := by
  have hread : memRead s .key (keyAddr s.eng).toNat = .ok k := by
    rw [keyAddr_toNat hrc]
    exact memRead_ok.2 ⟨(keyIndex_lt _ hrc).trans_le hnk, hk⟩
  rw [engineTurn_round hf, microRound_of_key hread, and_halfMask_of_fits (fits_roundFn _ _ _)]

/-- Settles O39: the engine's turn in ROUND is the multiplier's instruction. -/
theorem roundMultipliesAndSwaps : Obligations.RoundMultipliesAndSwaps := by
  intro s k hf hrc hnk hk
  have hturn := engineTurn_round_of_key hf hrc hnk hk
  have hboth {i : Instr} {f : Byte} (hi : decodeMulsel (mulselOf s.eng.mode) = i)
      (hF : roundFn s.eng.r k s.eng.mode = f) :
      exec i s = .next (afterRound f s) ∧ engineTurn s = .next (afterRound f s) := by
    subst hi hF
    exact ⟨(engineTurn_eq_exec hf).symm.trans hturn, hturn⟩
  simp only [afterRound, xorSwap, State.setEngine, count_succ_eq_iff hrc] at hboth
  exact ⟨fun hm => hboth (by rw [hm]; rfl) (by rw [hm]; rfl), fun hm => hboth (by rw [hm]; rfl) (by rw [hm]; rfl)⟩

/-! ### STORE and FINISH -/

/-- The byte STORE writes in NibbleMode, and the two in ByteMode (R132, R148). -/
theorem blockBytes_storeBlock_nibble {e : Engine} (h : e.mode = .nibble) :
    blockBytes (storeBlock e) = [e.r.extractLsb' 0 4 ++ e.l.extractLsb' 0 4] := by
  simp [storeBlock, join, h, blockBytes]

theorem blockBytes_storeBlock_byte {e : Engine} (h : e.mode = .byte) : blockBytes (storeBlock e) = [e.r, e.l] := by
  simp [storeBlock, join, h, blockBytes]

/-- The bytes of the stored block after a STORE, each at its place (R148). -/
theorem byteAt_of_engineTurn_store {t : State} (hf : s.eng.fsm = .store) (h : engineTurn s = .next t) {j : Nat}
    (hj : j < blockSize s.eng.mode) :
    t.byteAt .obuf (storeIndex s.eng + j) = (blockBytes (storeBlock s.eng))[j]? := by
  obtain ⟨u, hu, rfl⟩ := microStore_next ((engineTurn_store hf).symm.trans h)
  obtain ⟨-, -, -, -, -, -, -, hobuf⟩ := storeBytes_ok hu
  refine (hobuf _).trans ?_
  rw [length_storeBlock, if_pos (by omega), Nat.add_sub_cancel_left]

/-- A STORE below the capacity completes (R148). -/
theorem engineTurn_store_isNext (hf : s.eng.fsm = .store)
    (hfit : storeIndex s.eng + blockSize s.eng.mode ≤ s.cfg.bufMax) : ∃ t, engineTurn s = .next t := by
  obtain ⟨u, hu⟩ := storeBytes_isOk (s := s) (vs := blockBytes (storeBlock s.eng)) (i := storeIndex s.eng)
    (by rwa [length_storeBlock])
  exact ⟨_, by rw [engineTurn_store hf, microStore, hu]⟩

/-- Settles O41: the block's bytes by their places, and the frame of an engine turn. -/
theorem storeWritesTheSwappedHalves : Obligations.StoreWritesTheSwappedHalves := by
  intro s hf hfit
  obtain ⟨t, ht⟩ := engineTurn_store_isNext hf hfit
  have hbyte {j : Nat} := byteAt_of_engineTurn_store hf ht (j := j)
  obtain ⟨hinputs, hresp⟩ := engineTurn_inputs_resp ht
  obtain ⟨hcfg, -⟩ := engineTurn_latched ht
  have hregs : t.regs = s.regs := (engineTurn_regs ht).trans (by simp [hf])
  have heng : t.eng = { s.eng with
      bi := s.eng.bi + 1#13, fsm := if s.eng.bi + 1#13 = s.eng.nb then .finish else .fetch } := by
    obtain ⟨u, -, rfl⟩ := microStore_next ((engineTurn_store hf).symm.trans ht)
    rfl
  refine ⟨t, ht, fun hm => ?byte, fun hm => ?nibble, fun sp j hout => ?frame, heng, hregs, hcfg, hinputs, hresp⟩
  case byte =>
    simp only [blockBytes_storeBlock_byte hm, storeIndex, hm, blockSize] at hbyte
    exact ⟨hbyte (j := 0) (by decide), hbyte (j := 1) (by decide)⟩
  case nibble =>
    simp only [blockBytes_storeBlock_nibble hm, storeIndex, hm, blockSize, Nat.one_mul] at hbyte
    exact ⟨_, hbyte (j := 0) (by decide), nibbles_toNat _ _⟩
  case frame =>
    exact (engineTurn_byteAt ht sp j).resolve_right fun ⟨hsp, _, hlow, hhigh, _⟩ => hout ⟨hsp, hlow, hhigh⟩

/-- Settles O42: the output's length fits OUTLEN. -/
theorem finishPublishesTheLength : Obligations.FinishPublishesTheLength := fun s hf =>
  ⟨BitVec.ofNat 32 (s.eng.nb.toNat * blockSize s.eng.mode),
    by rw [BitVec.toNat_ofNat, Nat.mod_eq_of_lt (outputLength_lt s.eng)], engineTurn_finish hf⟩

/-! ### Undefined bytes -/

/-- FETCH in ByteMode stops at the first of its two bytes that is undefined (R155). -/
theorem fetchBlock_byte_undefined (hm : s.eng.mode = .byte) (hmapped : 2 * s.eng.bi.toNat + 1 < s.cfg.bufMax)
    (hnone : s.byteAt .ibuf (2 * s.eng.bi.toNat) = none ∨ s.byteAt .ibuf (2 * s.eng.bi.toNat + 1) = none) :
    ∃ i, (i = 2 * s.eng.bi.toNat ∨ i = 2 * s.eng.bi.toNat + 1) ∧ s.byteAt .ibuf i = none ∧
      fetchBlock s = .error (.undefinedByte .ibuf i) := by
  have hmapped0 : 2 * s.eng.bi.toNat < s.cfg.capacity .ibuf := Nat.lt_of_succ_lt hmapped
  cases h0 : s.byteAt .ibuf (2 * s.eng.bi.toNat) with
  | none =>
    refine ⟨_, .inl rfl, h0, ?_⟩
    simp [fetchBlock, hm, memRead_error.2 (.inl ⟨hmapped0, h0, rfl⟩)]
  | some x0 =>
    have h1 := hnone.resolve_left (by simp [h0])
    refine ⟨_, .inr rfl, h1, ?_⟩
    simp [fetchBlock, hm, memRead_ok.2 ⟨hmapped0, h0⟩, memRead_error.2 (.inl ⟨hmapped, h1, rfl⟩)]

/-- Settles O43: the micro-step's first read of an undefined byte stops it. -/
theorem engineStopsOnUndefinedByte : Obligations.EngineStopsOnUndefinedByte := by
  refine fun s => ⟨fun hf hm hmapped hnone => ?nibble, fun hf hm hmapped hnone => ?byte, fun hf hmapped hnone => ?round,
    fun f n hstop => ?sticky⟩
  case nibble =>
    rw [engineTurn_fetch hf]
    refine microFetch_of_error ?_
    simp [fetchBlock, hm, memRead_error.2 (.inl ⟨hmapped, hnone, rfl⟩)]
  case byte =>
    obtain ⟨i, hi, hbyte, hfetch⟩ := fetchBlock_byte_undefined hm hmapped hnone
    exact ⟨i, hi, hbyte, (engineTurn_fetch hf).trans (microFetch_of_error hfetch)⟩
  case round =>
    rw [engineTurn_round hf]
    exact microRound_of_error (memRead_error.2 (.inl ⟨hmapped, hnone, rfl⟩))
  case sticky => simp [runSteps, hstop]

end Sys2Proof.Machine
end

section
/-! PROOFS. The sequencer (O44) and what can stop the machine (O53): each turn of the engine makes the transition of
R152's table, in numbers, and stops only on an undefined byte of the block or key it reads. -/

namespace Sys2Proof.Machine

/-! ### Transitions -/

/-- The transitions of R152's table that an engine turn makes, from the engine `e` to `e'`; the counters do not wrap. -/
def EngineTransition (e e' : Engine) : Prop :=
  (e.fsm = .idle ∧ e' = e) ∨
  (e.fsm = .fetch ∧ e'.bi = e.bi ∧ e'.rc.toNat = 0 ∧ e'.fsm = if e.nk.toNat = 0 then .store else .round) ∨
  (e.fsm = .round ∧ e'.bi = e.bi ∧ e'.rc.toNat = e.rc.toNat + 1 ∧
    ((e.rc.toNat + 1 < e.nk.toNat ∧ e'.fsm = .round) ∨ (e.rc.toNat + 1 = e.nk.toNat ∧ e'.fsm = .store))) ∨
  (e.fsm = .store ∧ e'.bi.toNat = e.bi.toNat + 1 ∧
    ((e.bi.toNat + 1 < e.nb.toNat ∧ e'.fsm = .fetch) ∨ (e.bi.toNat + 1 = e.nb.toNat ∧ e'.fsm = .finish))) ∨
  (e.fsm = .finish ∧ e'.bi = e.bi ∧ e'.fsm = .idle)

/-- A counter below a bound is one below it, or goes on below it. -/
theorem fsm_at_bound {a b : Count} (h : a.toNat < b.toNat) (go done : Fsm) :
    (a.toNat + 1 < b.toNat ∧ (if a + 1#13 = b then done else go) = go) ∨
      (a.toNat + 1 = b.toNat ∧ (if a + 1#13 = b then done else go) = done) := by
  by_cases hend : a.toNat + 1 = b.toNat
  · exact .inr ⟨hend, if_pos ((count_succ_eq_iff h).2 hend)⟩
  · exact .inl ⟨by omega, if_neg (mt (count_succ_eq_iff h).1 hend)⟩

/-- Where the counters are below their bounds (R37(b), R37(c)), an engine turn makes a transition of the table. -/
theorem engineTransition_of_engineTurn {s t : State} (hblock : s.eng.fsm = .store → s.eng.bi.toNat < s.eng.nb.toNat)
    (hround : s.eng.fsm = .round → s.eng.rc.toNat < s.eng.nk.toNat) (h : engineTurn s = .next t) :
    EngineTransition s.eng t.eng := by
  rcases engineTurn_next h with ⟨hf, rfl⟩ | ⟨hf, b, hb, -⟩ | ⟨hf, k, -, rfl⟩ | ⟨hf, u, -, rfl⟩ | ⟨hf, rfl⟩
  · exact .inl ⟨hf, rfl⟩
  · obtain rfl : afterFetch b s = t := by
      simpa [engineTurn_fetch hf, microFetch_of_block hb] using h
    exact .inr (.inl ⟨hf, rfl, rfl, rfl⟩)
  · exact .inr (.inr (.inl ⟨hf, rfl, count_succ_toNat (hround hf), fsm_at_bound (hround hf) .round .store⟩))
  · exact .inr (.inr (.inr (.inl ⟨hf, count_succ_toNat (hblock hf), fsm_at_bound (hblock hf) .fetch .finish⟩)))
  · exact .inr (.inr (.inr (.inr ⟨hf, rfl, rfl⟩)))

/-- A host transaction leaves the engine alone, or starts the accepted command that it writes to CMD (R152, R172). -/
theorem hostTurn_keeps_engine_or_starts {d : Descriptor} {w : Word} {s t : State} (h : hostTurn d w s = .next t) :
    t.eng = s.eng ∨ (d = 0x18000#17 ∧ ∃ cmd, decodeCmd w = .ok cmd ∧ Accepts s ∧ t = (startOp cmd s).okay) := by
  rcases hostTurn_next h with ⟨r, v, rfl⟩ | ⟨e, rfl⟩ | ⟨-, rfl⟩ | ⟨-, rfl⟩ | ⟨-, rfl⟩ | ⟨sp, n, -, -, rfl, -⟩ |
    ⟨cmd, hdec, hcmd, ha, rfl⟩
  · exact .inl rfl
  · exact .inl (by simp)
  · exact .inl (by simp)
  · exact .inl rfl
  · exact .inl rfl
  · exact .inl rfl
  · exact .inr ⟨desc_of_decodeBus_wrCmd hdec, cmd, hcmd, ha, rfl⟩

/-- Settles O44: the table, the start, and reset. -/
theorem sequencerTransitions : Obligations.SequencerTransitions := by
  intro s t hs
  refine ⟨fun h => ?engine, fun d w h => ?host, fun h => ?reset⟩
  case engine =>
    rcases engineTransition_of_engineTurn (fun hf => hs.block (.inr (.inr hf))) hs.round h with
      ⟨hf, heng⟩ | ⟨hf, hbi, hrc, hnext⟩ | ⟨hf, hbi, hrc, hnext⟩ | ⟨hf, hbi, hnext⟩ | ⟨hf, hbi, hnext⟩
    · simp [hf, heng]
    · simp [hf, hbi, hrc, hnext]
    · simp [hf, hbi, hrc, hnext]
    · simp [hf, hbi, hnext]
    · simp [hf, hbi, hnext]
  case host =>
    refine (hostTurn_keeps_engine_or_starts h).imp_right fun ⟨hd, cmd, hcmd, ha, ht⟩ => ?_
    exact ⟨(State.busy_eq_false s).1 ha.1, cmd, hd, hcmd, ha, ht ▸ rfl⟩
  case reset =>
    injection h with h
    exact h ▸ rfl

/-! ### Stops -/

/-- The turn stops on the byte `sp[i]`, which is mapped and undefined. -/
def StopsUndefined (s : State) (sp : Space) (i : Nat) (o : Outcome) : Prop :=
  o = .fault (.undefinedByte sp i) ∧ i < s.cfg.capacity sp ∧ s.byteAt sp i = none

theorem memRead_mapped {s : State} {sp : Space} {i : Nat} (h : i < s.cfg.capacity sp) :
    (∃ v, memRead s sp i = .ok v) ∨ (memRead s sp i = .error (.undefinedByte sp i) ∧ s.byteAt sp i = none) := by
  cases hb : s.byteAt sp i with
  | some v => exact .inl ⟨v, memRead_ok.2 ⟨h, hb⟩⟩
  | none => exact .inr ⟨memRead_error.2 (.inl ⟨h, hb, rfl⟩), rfl⟩

/-- A host transaction's outcome: it completes, or is the idle read of a mapped, undefined byte (R183, R185, R187). -/
def CompletesOrStops (s : State) (o : Outcome) : Prop :=
  (∃ t, o = .next t) ∨ (s.busy = false ∧ ∃ sp i, StopsUndefined s sp i o)

section
variable {s : State}

theorem completesOrStops_next (t : State) : CompletesOrStops s (.next t) := .inl ⟨t, rfl⟩

theorem lockout_completesOrStops {idle : Outcome} (h : s.busy = false → CompletesOrStops s idle) :
    CompletesOrStops s (lockout s idle) := by
  cases hb : s.busy with
  | true => exact lockout_busy hb ▸ completesOrStops_next _
  | false => exact lockout_idle hb ▸ h hb

theorem windowAccess_completesOrStops {sp : Space} {i : Index} {idle : Outcome}
    (h : s.busy = false → i.toNat < s.cfg.capacity sp → CompletesOrStops s idle) :
    CompletesOrStops s (windowAccess sp i s idle) := by
  by_cases hi : i.toNat < s.cfg.capacity sp
  · exact windowAccess_mapped hi ▸ lockout_completesOrStops fun hb => h hb hi
  · exact windowAccess_unmapped (Nat.not_lt.1 hi) ▸ completesOrStops_next _

theorem windowRead_completesOrStops (sp : Space) (i : Index) : CompletesOrStops s (windowRead sp i s) := by
  refine windowAccess_completesOrStops fun hb hi => ?_
  rcases memRead_mapped hi with ⟨v, hv⟩ | ⟨hstop, hnone⟩
  · exact hv ▸ completesOrStops_next _
  · exact hstop ▸ .inr ⟨hb, sp, _, rfl, hi, hnone⟩

theorem windowWrite_completesOrStops (sp : Space) (i : Index) (d : Word) :
    CompletesOrStops s (windowWrite sp i d s) :=
  windowAccess_completesOrStops fun _ hi =>
    (memWrite_ok (v := dataByte d)).2 ⟨hi, rfl⟩ ▸ completesOrStops_next _

end

theorem hostTurn_completesOrStops (d : Descriptor) (w : Word) (s : State) : CompletesOrStops s (hostTurn d w s) := by
  cases hdec : decodeBus s.cfg d w with
  | error r =>
    rw [hostTurn, hdec]
    exact completesOrStops_next _
  | ok instr =>
    rw [hostTurn, hdec]
    obtain ⟨tg, -, rfl⟩ := decodeBus_ok.1 hdec
    cases tg with
    | reg r =>
      cases Descriptor.k d <;> cases r
      case true.cmd => exact .inl (writeCommand_total _ s)
      case true.len | true.keylen => exact lockout_completesOrStops fun _ => completesOrStops_next _
      all_goals exact completesOrStops_next _
    | win sp i =>
      cases Descriptor.k d <;> cases sp
      case false.key | false.ibuf | false.obuf => exact windowRead_completesOrStops _ i
      case true.key | true.ibuf => exact windowWrite_completesOrStops _ i w
      case true.obuf => exact windowAccess_completesOrStops fun _ _ => completesOrStops_next _

/-- The blocks of an operation lie within the buffers (R37(e), R154). -/
theorem block_mapped {s : State} (hfit : OperandsFit s) (hblock : s.eng.bi.toNat < s.eng.nb.toNat) :
    storeIndex s.eng + blockSize s.eng.mode ≤ s.cfg.bufMax := by
  obtain ⟨-, hnb⟩ := hfit
  refine le_trans ?_ hnb
  rw [storeIndex, ← Nat.mul_succ, Nat.mul_comm]
  exact Nat.mul_le_mul_right _ hblock

/-- FETCH of a mapped block reads it or stops on a byte of it. -/
theorem fetchBlock_mapped {s : State} (hmapped : storeIndex s.eng + blockSize s.eng.mode ≤ s.cfg.bufMax) :
    (∃ b, fetchBlock s = .ok b) ∨ ∃ i, storeIndex s.eng ≤ i ∧ i < storeIndex s.eng + blockSize s.eng.mode ∧
      fetchBlock s = .error (.undefinedByte .ibuf i) ∧ s.byteAt .ibuf i = none := by
  cases hfetch : fetchBlock s with
  | ok b => exact .inl ⟨b, rfl⟩
  | error f =>
    obtain ⟨i, hread, hi⟩ := fetchBlock_error hfetch
    have hplace : storeIndex s.eng ≤ i ∧ i < storeIndex s.eng + blockSize s.eng.mode := by
      rcases hi with rfl | ⟨hm, rfl⟩
      · exact ⟨le_rfl, Nat.lt_add_of_pos_right (blockSize_pos _)⟩
      · exact ⟨Nat.le_succ _, by simp [storeIndex, hm, blockSize]⟩
    obtain ⟨hlow, hhigh⟩ := hplace
    rcases memRead_error.1 hread with ⟨-, hnone, rfl⟩ | ⟨hout, -⟩
    · exact .inr ⟨i, hlow, hhigh, rfl, hnone⟩
    · exact absurd (hhigh.trans_le hmapped) (Nat.not_lt.2 hout)

/-- The bytes an engine turn reads: the block's in FETCH, the round's key byte in ROUND (R146, R147). -/
def EngineReads (e : Engine) (sp : Space) (i : Nat) : Prop :=
  (e.fsm = .fetch ∧ sp = .ibuf ∧ storeIndex e ≤ i ∧ i < storeIndex e + blockSize e.mode) ∨
  (e.fsm = .round ∧ sp = .key ∧ i = keyIndex e.dir e.nk.toNat e.rc.toNat)

/-- Under R37(b), (c) and (e) an engine turn completes, or stops on an undefined byte that it reads (R154, R155). -/
theorem engineTurn_completes_or_stops {s : State} (hfit : s.busy = true → OperandsFit s)
    (hblock : s.eng.fsm = .fetch ∨ s.eng.fsm = .round ∨ s.eng.fsm = .store → s.eng.bi.toNat < s.eng.nb.toNat)
    (hround : s.eng.fsm = .round → s.eng.rc.toNat < s.eng.nk.toNat) :
    (∃ t, engineTurn s = .next t) ∨ ∃ sp i, EngineReads s.eng sp i ∧ StopsUndefined s sp i (engineTurn s) := by
  have hbusy (hne : s.eng.fsm ≠ .idle) := hfit ((State.busy_eq_true s).2 hne)
  cases hf : s.eng.fsm with
  | idle => exact .inl ⟨_, engineTurn_idle hf⟩
  | fetch =>
    have hmapped := block_mapped (hbusy (by simp [hf])) (hblock (.inl hf))
    rw [engineTurn_fetch hf]
    refine (fetchBlock_mapped hmapped).imp (fun ⟨b, hb⟩ => ⟨_, microFetch_of_block hb⟩) ?_
    rintro ⟨i, hlow, hhigh, hstop, hnone⟩
    exact ⟨.ibuf, i, .inl ⟨hf, rfl, hlow, hhigh⟩, microFetch_of_error hstop, hhigh.trans_le hmapped, hnone⟩
  | round =>
    have hrc := hround hf
    obtain ⟨hnk, -⟩ := hbusy (by simp [hf])
    have hmapped : (keyAddr s.eng).toNat < s.cfg.capacity .key := by
      rw [keyAddr_toNat hrc]
      exact (keyIndex_lt _ hrc).trans_le hnk
    rw [engineTurn_round hf]
    refine (memRead_mapped hmapped).imp (fun ⟨k, hk⟩ => ⟨_, microRound_of_key hk⟩) ?_
    rintro ⟨hstop, hnone⟩
    exact ⟨.key, _, .inr ⟨hf, rfl, keyAddr_toNat hrc⟩, microRound_of_error hstop, hmapped, hnone⟩
  | store => exact .inl (engineTurn_store_isNext hf (block_mapped (hbusy (by simp [hf])) (hblock (.inr (.inr hf)))))
  | finish => exact .inl ⟨_, engineTurn_finish hf⟩

/-- Settles O53: each turn of a step. -/
theorem onlyUndefinedBytesStopTheMachine : Obligations.OnlyUndefinedBytesStopTheMachine := by
  intro s hs
  have hengine (rest : List Input) :=
    engineTurn_completes_or_stops (s := s.setInputs rest) hs.operands hs.block hs.round
  rcases step_cases s with ⟨-, hstep⟩ | ⟨rest, -, hstep⟩ | ⟨rest, -, hstep⟩ | ⟨d, w, rest, -, hstep⟩ <;> rw [hstep]
  · exact (hengine s.inputs).imp_right fun ⟨sp, i, _, hstop⟩ => ⟨sp, i, hstop⟩
  · exact (hengine rest).imp_right fun ⟨sp, i, _, hstop⟩ => ⟨sp, i, hstop⟩
  · exact .inl ⟨_, rfl⟩
  · exact (hostTurn_completesOrStops d w (s.setInputs rest)).imp_right fun ⟨_, sp, i, hstop⟩ => ⟨sp, i, hstop⟩

end Sys2Proof.Machine
end

section
/-! PROOFS. The progress of an operation from acceptance to IDLE (O58). While the core is BUSY a step is an engine turn
or leaves the engine, the stores, LEN and KEYLEN; each micro-step keeps the progress, and FINISH publishes it. -/

namespace Sys2Proof.Machine

/-! ### A step while BUSY -/

/-- What an operation reads, kept from `s` to `t`: the parameters, the input stores, LEN and KEYLEN. -/
structure SameInput (s t : State) : Prop where
  cfg : t.cfg = s.cfg
  key : t.mem.key = s.mem.key
  ibuf : t.mem.ibuf = s.mem.ibuf
  len : t.regs.len = s.regs.len
  keylen : t.regs.keylen = s.regs.keylen

theorem SameInput.trans {s t u : State} (h : SameInput s t) (h' : SameInput t u) : SameInput s u :=
  ⟨h'.cfg.trans h.cfg, h'.key.trans h.key, h'.ibuf.trans h.ibuf, h'.len.trans h.len, h'.keylen.trans h.keylen⟩

/-- The entries still to come are no part of what an operation reads. -/
theorem SameInput.of_setInputs {s t : State} {l : List Input} (h : SameInput (s.setInputs l) t) : SameInput s t :=
  ⟨h.cfg, h.key, h.ibuf, h.len, h.keylen⟩

theorem sameInput_of_engineTurn {s t : State} (h : engineTurn s = .next t) : SameInput s t := by
  obtain ⟨hkey, hibuf, -⟩ := engineTurn_mem h
  obtain ⟨hlen, hkeylen⟩ := engineTurn_lengths h
  obtain ⟨hcfg, -⟩ := engineTurn_latched h
  exact ⟨hcfg, hkey, hibuf, hlen, hkeylen⟩

/-- The operands stay loaded where what the operation reads is kept. -/
theorem Loaded.of_sameInput {s t : State} {m : BlockMode} {keys buf : List Byte} (h : Loaded s m keys buf)
    (hsame : SameInput s t) : Loaded t m keys buf := by
  obtain ⟨hkeys, hkey, hbuf, hibuf⟩ := h
  have hbyteKey (i : Nat) : t.byteAt .key i = s.byteAt .key i := congrArg (readByte · i) hsame.key
  have hbyteIbuf (i : Nat) : t.byteAt .ibuf i = s.byteAt .ibuf i := congrArg (readByte · i) hsame.ibuf
  exact ⟨hsame.keylen ▸ hkeys, fun i hi hb => (hbyteKey i).trans (hkey i hi hb), hsame.len ▸ hbuf,
    fun i hi => (hbyteIbuf i).trans (hibuf i hi)⟩

/-- A host transaction while BUSY leaves the running operation alone (R188, R189). -/
theorem hostTurn_busy {d : Descriptor} {w : Word} {s t : State} (hbusy : s.busy = true) (h : hostTurn d w s = .next t) :
    t.eng = s.eng ∧ t.mem = s.mem ∧ SameInput s t := by
  rcases hostTurn_next h with ⟨r, v, rfl⟩ | ⟨e, rfl⟩ | ⟨-, rfl⟩ | ⟨hidle, -⟩ | ⟨hidle, -⟩ | ⟨sp, n, hidle, -⟩ |
    ⟨cmd, -, -, ⟨hidle, -⟩, -⟩
  · exact ⟨rfl, rfl, rfl, rfl, rfl, rfl, rfl⟩
  · exact ⟨by simp, by simp, by constructor <;> simp⟩
  · exact ⟨by simp, by simp, by constructor <;> simp⟩
  all_goals exact absurd (hbusy.symm.trans hidle) (by decide)

/-- A step other than reset while BUSY: the engine's turn, or one that leaves the operation alone. -/
theorem step_busy {s t : State} (hbusy : s.busy = true) (hreset : s.inputs.head? ≠ some .reset) (h : step s = .next t) :
    (EngineMoves s ∧ engineTurn (s.setInputs s.inputs.tail) = .next t) ∨
      (¬EngineMoves s ∧ t.eng = s.eng ∧ t.mem = s.mem ∧ SameInput s t) := by
  by_cases hmoves : EngineMoves s
  · exact .inl ⟨hmoves, (step_eq_engineTurn hmoves).symm.trans h⟩
  · rcases step_next h with ⟨hm, -⟩ | ⟨hin, -⟩ | ⟨d, w, rest, -, hturn⟩
    · exact absurd hm hmoves
    · exact absurd hin hreset
    · obtain ⟨heng, hmem, hsame⟩ := hostTurn_busy (s := s.setInputs rest) hbusy hturn
      exact .inr ⟨hmoves, heng, hmem, hsame.of_setInputs⟩

/-- A step other than reset while BUSY keeps what the operation reads. -/
theorem sameInput_of_step {s t : State} (hbusy : s.busy = true) (hreset : s.inputs.head? ≠ some .reset)
    (h : step s = .next t) : SameInput s t := by
  rcases step_busy hbusy hreset h with ⟨-, hturn⟩ | ⟨-, -, -, hsame⟩
  · exact (sameInput_of_engineTurn hturn).of_setInputs
  · exact hsame

/-! ### The blocks of a buffer by index -/

theorem blockBytes_injective {b b' : Block} (h : blockBytes b = blockBytes b') : b = b' := by
  cases b <;> cases b' <;> simp_all [blockBytes]

theorem partitionBlocks_short {m : BlockMode} {buf : List Byte} (h : buf.length < blockSize m) :
    partitionBlocks m buf = [] := by
  match m, buf with
  | .nibble, [] | .byte, [] | .byte, [_] => rfl
  | .nibble, _ :: _ | .byte, _ :: _ :: _ => simp [blockSize] at h

theorem partitionBlocks_blockBytes_append (b : Block) (rest : List Byte) :
    partitionBlocks (blockMode b) (blockBytes b ++ rest) = b :: partitionBlocks (blockMode b) rest := by
  cases b <;> rfl

/-- The bytes at block `j`'s place are those of block `j` (R130, R135). -/
theorem getElem?_partitionBlocks {m : BlockMode} {buf : List Byte} {b : Block} (hm : blockMode b = m) {j : Nat}
    (h : ∀ i < blockSize m, buf[blockSize m * j + i]? = (blockBytes b)[i]?) : (partitionBlocks m buf)[j]? = some b := by
  induction buf using blockwise_induction (m := m) generalizing j with
  | short buf hlen =>
    have hpos := blockSize_pos m
    have hlast := h (blockSize m - 1) (by omega)
    rw [List.getElem?_eq_none (by omega), eq_comm, List.getElem?_eq_none_iff, length_blockBytes, hm] at hlast
    omega
  | block b' rest hb' ih =>
    subst hb'
    rw [partitionBlocks_blockBytes_append]
    cases j with
    | zero =>
      refine congrArg some (blockBytes_injective (List.ext_getElem? fun i => ?_))
      by_cases hi : i < blockSize (blockMode b')
      · rw [← h i hi, Nat.mul_zero, Nat.zero_add, List.getElem?_append_left (by simpa using hi)]
      · rw [List.getElem?_eq_none (by simpa using hi), List.getElem?_eq_none (by simpa [hm] using hi)]
    | succ j =>
      refine ih fun i hi => ?_
      rw [← h i hi, Nat.mul_succ, Nat.add_right_comm, List.getElem?_append_right (by simp), length_blockBytes,
        Nat.add_sub_cancel]

/-- The output's bytes at block `j`'s place are those of the transform of block `j` (R135). -/
theorem getElem?_xbuf (d : Dir) {m : BlockMode} (keys : List Byte) {buf : List Byte} {b : Block} {j : Nat}
    (h : (partitionBlocks m buf)[j]? = some b) {i : Nat} (hi : i < blockSize m) :
    (xbuf d m keys buf)[blockSize m * j + i]? = (blockBytes (xblock d keys b))[i]? := by
  induction buf using blockwise_induction (m := m) generalizing j with
  | short buf hlen => simp [partitionBlocks_short hlen] at h
  | block b' rest hb' ih =>
    subst hb'
    rw [partitionBlocks_blockBytes_append] at h
    rw [xbuf_blockBytes_append d keys rfl]
    cases j with
    | zero =>
      obtain rfl : b' = b := by simpa using h
      rw [Nat.mul_zero, Nat.zero_add, List.getElem?_append_left (by simpa using hi)]
    | succ j =>
      rw [← ih (by simpa using h), Nat.mul_succ, Nat.add_right_comm, List.getElem?_append_right (by simp),
        length_blockBytes, blockMode_xblock, Nat.add_sub_cancel]

theorem blockMode_of_getElem?_partitionBlocks {m : BlockMode} {buf : List Byte} {b : Block} {j : Nat}
    (h : (partitionBlocks m buf)[j]? = some b) : blockMode b = m := by
  induction buf using blockwise_induction (m := m) generalizing j with
  | short buf hlen => simp [partitionBlocks_short hlen] at h
  | block b' rest hb' ih =>
    subst hb'
    rw [partitionBlocks_blockBytes_append] at h
    cases j with
    | zero => simp_all
    | succ j => exact ih (by simpa using h)

/-- One more round (R134). -/
theorem rounds_take_succ (m : BlockMode) {ks : List Byte} {r : Nat} {k : Byte} (hk : ks[r]? = some k) (h : Halves) :
    rounds m (ks.take (r + 1)) h = feistelRound m k (rounds m (ks.take r) h) := by
  rw [List.take_add_one, hk, rounds_append]
  rfl

/-! ### The counters -/

/-- Where the counters stand in each state of the sequencer (R37(b), R37(c), R152). -/
structure OnSchedule (e : Engine) : Prop where
  block : e.fsm = .fetch ∨ e.fsm = .round ∨ e.fsm = .store → e.bi.toNat < e.nb.toNat
  round : e.fsm = .round → e.rc.toNat < e.nk.toNat
  store : e.fsm = .store → e.rc.toNat = e.nk.toNat
  finish : e.fsm = .finish → e.bi.toNat = e.nb.toNat

section
variable {e e' : Engine}

theorem onSchedule_idle (hf : e.fsm = .idle) : OnSchedule e := by constructor <;> simp [hf]

theorem onSchedule_fetch (hf : e.fsm = .fetch) (hbi : e.bi.toNat < e.nb.toNat) : OnSchedule e := by
  constructor <;> simp [hf, hbi]

theorem onSchedule_round (hf : e.fsm = .round) (hbi : e.bi.toNat < e.nb.toNat) (hrc : e.rc.toNat < e.nk.toNat) :
    OnSchedule e := by
  constructor <;> simp [hf, hbi, hrc]

theorem onSchedule_store (hf : e.fsm = .store) (hbi : e.bi.toNat < e.nb.toNat) (hrc : e.rc.toNat = e.nk.toNat) :
    OnSchedule e := by
  constructor <;> simp [hf, hbi, hrc]

theorem onSchedule_finish (hf : e.fsm = .finish) (hbi : e.bi.toNat = e.nb.toNat) : OnSchedule e := by
  constructor <;> simp [hf, hbi]

/-- Every transition keeps the schedule. -/
theorem OnSchedule.of_transition (h : OnSchedule e) (ht : EngineTransition e e') (hnk : e'.nk = e.nk)
    (hnb : e'.nb = e.nb) : OnSchedule e' := by
  replace hnk := congrArg BitVec.toNat hnk
  replace hnb := congrArg BitVec.toNat hnb
  have hblock (hbi : e'.bi = e.bi) (hf : e.fsm = .fetch ∨ e.fsm = .round) : e'.bi.toNat < e'.nb.toNat := by
    rw [hbi, hnb]
    exact h.block (hf.imp_right .inl)
  rcases ht with ⟨-, rfl⟩ | ⟨hf, hbi, hrc, hnext⟩ | ⟨hf, hbi, hrc, ⟨hlt, hnext⟩ | ⟨hend, hnext⟩⟩ |
    ⟨hf, hbi, ⟨hlt, hnext⟩ | ⟨hend, hnext⟩⟩ | ⟨hf, hbi, hnext⟩
  · exact h
  · split at hnext
    · exact onSchedule_store hnext (hblock hbi (.inl hf)) (by omega)
    · exact onSchedule_round hnext (hblock hbi (.inl hf)) (by omega)
  · exact onSchedule_round hnext (hblock hbi (.inr hf)) (by omega)
  · exact onSchedule_store hnext (hblock hbi (.inr hf)) (by omega)
  · exact onSchedule_fetch hnext (by omega)
  · exact onSchedule_finish hnext (by omega)
  · exact onSchedule_idle hnext

/-- An operation under way goes idle by FINISH alone (R152). -/
theorem EngineTransition.busy (ht : EngineTransition e e') (hbusy : e.fsm ≠ .idle) (hfinish : e.fsm ≠ .finish) :
    e'.fsm ≠ .idle := by
  rcases ht with ⟨hf, -⟩ | ⟨-, -, -, hnext⟩ | ⟨-, -, -, ⟨-, hnext⟩ | ⟨-, hnext⟩⟩ | ⟨-, -, ⟨-, hnext⟩ | ⟨-, hnext⟩⟩ |
    ⟨hf, -⟩
  · exact absurd hf hbusy
  · rw [hnext]
    split <;> decide
  · simp [hnext]
  · simp [hnext]
  · simp [hnext]
  · simp [hnext]
  · exact absurd hf hfinish

/-- The engine right after acceptance: at block 0, and in FINISH where there is no block (R145). -/
abbrev AtStart (e : Engine) : Prop := e.bi.toNat = 0 ∧ e.fsm = if e.nb.toNat = 0 then .finish else .fetch

theorem AtStart.onSchedule (h : AtStart e) : OnSchedule e := by
  obtain ⟨hbi, hfsm⟩ := h
  split at hfsm
  · exact onSchedule_finish hfsm (by omega)
  · exact onSchedule_fetch hfsm (by omega)

theorem atStart_startOp {s : State} (cmd : Command) (hc : s.cfg.Valid) (ha : Accepts s) :
    AtStart (startOp cmd s).eng := by
  obtain ⟨-, hnb⟩ := startOp_counts cmd hc ha
  refine ⟨rfl, ?_⟩
  rw [hnb]
  rfl

end

/-! ### Progress -/

section
variable {d : Dir} {m : BlockMode} {keys buf : List Byte} {before : Nat → Option Byte} {s t : State}

/-- Progress speaks of the engine, the stores, LEN and KEYLEN alone. -/
theorem Progress.of_eng_eq (hp : Progress d m keys buf before s) (heng : t.eng = s.eng) (hmem : t.mem = s.mem)
    (hsame : SameInput s t) : Progress d m keys buf before t where
  loaded := hp.loaded.of_sameInput hsame
  dir := heng ▸ hp.dir
  mode := heng ▸ hp.mode
  keyCount := heng ▸ hp.keyCount
  blockCount := heng ▸ hp.blockCount
  stored i hi := (byteAt_congr hmem _ _).trans (hp.stored i (heng ▸ hi))
  untouched i hi := (byteAt_congr hmem _ _).trans (hp.untouched i (heng ▸ hi))
  block := heng ▸ hp.block
  round := heng ▸ hp.round
  store := heng ▸ hp.store
  finish := heng ▸ hp.finish
  halves := heng ▸ hp.halves

theorem Progress.setInputs (hp : Progress d m keys buf before s) (l : List Input) :
    Progress d m keys buf before (s.setInputs l) :=
  hp.of_eng_eq rfl rfl ⟨rfl, rfl, rfl, rfl, rfl⟩

theorem Progress.onSchedule (hp : Progress d m keys buf before s) : OnSchedule s.eng :=
  ⟨hp.block, hp.round, hp.store, hp.finish⟩

/-- Acceptance establishes the progress: no block is stored yet (R145). -/
theorem progress_startOp {cmd : Command} (hc : s.cfg.Valid) (ha : Accepts s) (hl : Loaded s cmd.mode keys buf) :
    Progress cmd.dir cmd.mode keys buf (s.byteAt .obuf) (startOp cmd s).okay := by
  obtain ⟨hnk, hnb⟩ := startOp_counts cmd hc ha
  obtain ⟨hblock, hround, hstore, hfinish⟩ := (atStart_startOp cmd hc ha).onSchedule
  obtain ⟨hkeys, -, hbuf, -⟩ := id hl
  exact {
    loaded := hl
    dir := rfl
    mode := rfl
    keyCount := hnk.trans hkeys.symm
    blockCount := by
      rw [hbuf]
      exact hnb
    stored := fun i hi => absurd hi (Nat.not_lt_zero i)
    untouched := fun _ _ => rfl
    block := hblock
    round := hround
    store := hstore
    finish := hfinish
    halves := fun hf => by
      have hfsm : (startOp cmd s).okay.eng.fsm = if blockCount s cmd.mode = 0 then .finish else .fetch := rfl
      rw [hfsm] at hf
      split at hf <;> simp at hf }

/-- What is left to show after an engine turn: the bytes of OBUF and the halves. -/
theorem Progress.of_obuf_and_halves (hp : Progress d m keys buf before s) (h : engineTurn s = .next t)
    (hstored : ∀ i, i < storeIndex t.eng → t.byteAt .obuf i = (xbuf d m keys buf)[i]?)
    (huntouched : ∀ i, storeIndex t.eng ≤ i → t.byteAt .obuf i = before i)
    (hhalves : t.eng.fsm = .round ∨ t.eng.fsm = .store → ∃ b, (partitionBlocks m buf)[t.eng.bi.toNat]? = some b ∧
      ({ l := t.eng.l, r := t.eng.r } : Halves) = rounds m ((roundKeys d keys).take t.eng.rc.toNat) (split b)) :
    Progress d m keys buf before t := by
  obtain ⟨-, hdir, hmode, hnk, hnb⟩ := engineTurn_latched h
  have htrans := engineTransition_of_engineTurn (fun hf => hp.block (.inr (.inr hf))) hp.round h
  obtain ⟨hblock, hround, hstore, hfinish⟩ := hp.onSchedule.of_transition htrans hnk hnb
  exact ⟨hp.loaded.of_sameInput (sameInput_of_engineTurn h), hdir.trans hp.dir, hmode.trans hp.mode, hnk ▸ hp.keyCount,
    hnb ▸ hp.blockCount, hstored, huntouched, hblock, hround, hstore, hfinish, hhalves⟩

/-- The block's place is among the whole blocks of the input. -/
theorem Progress.block_lt (hp : Progress d m keys buf before s) (hblock : s.eng.bi.toNat < s.eng.nb.toNat) {i : Nat}
    (hi : i < storeIndex s.eng + blockSize s.eng.mode) : i < buf.length / blockSize m * blockSize m := by
  refine hi.trans_le ?_
  rw [storeIndex, ← Nat.mul_succ, Nat.mul_comm, hp.mode, ← hp.blockCount]
  exact Nat.mul_le_mul_right _ hblock

/-- The bytes that FETCH reads. -/
theorem bytes_of_fetchBlock {b : Block} (h : fetchBlock s = .ok b) : blockMode b = s.eng.mode ∧
    ∀ i < blockSize s.eng.mode, s.byteAt .ibuf (storeIndex s.eng + i) = (blockBytes b)[i]? := by
  rcases fetchBlock_ok.1 h with ⟨hm, x, hx, rfl⟩ | ⟨hm, x0, x1, h0, h1, rfl⟩
  · refine ⟨hm.symm, fun i hi => ?_⟩
    obtain ⟨-, hbyte⟩ := memRead_ok.1 hx
    obtain rfl : i = 0 := by simpa [hm, blockSize] using hi
    simpa [storeIndex, hm, blockSize, blockBytes] using hbyte
  · refine ⟨hm.symm, fun i hi => ?_⟩
    obtain ⟨-, hbyte0⟩ := memRead_ok.1 h0
    obtain ⟨-, hbyte1⟩ := memRead_ok.1 h1
    have hi' : i = 0 ∨ i = 1 := by
      simp only [hm, blockSize] at hi
      omega
    rcases hi' with rfl | rfl
    · simpa [storeIndex, hm, blockSize, blockBytes] using hbyte0
    · simpa [storeIndex, hm, blockSize, blockBytes] using hbyte1

/-- FETCH reads block E.bi of the input (R146). -/
theorem Progress.block_of_fetch (hp : Progress d m keys buf before s) (hf : s.eng.fsm = .fetch) {b : Block}
    (hb : fetchBlock s = .ok b) : (partitionBlocks m buf)[s.eng.bi.toNat]? = some b := by
  obtain ⟨hm, hbytes⟩ := bytes_of_fetchBlock hb
  obtain ⟨-, -, -, hibuf⟩ := hp.loaded
  obtain rfl := hp.mode
  refine getElem?_partitionBlocks hm fun i hi => ?_
  rw [← hbytes i hi]
  exact (hibuf _ (hp.block_lt (hp.block (.inl hf)) (Nat.add_lt_add_left hi _))).symm

/-- The key byte of the current round is the round key's (R133, R151). -/
theorem Progress.key_of_round (hp : Progress d m keys buf before s) (hf : s.eng.fsm = .round) :
    s.byteAt .key (keyIndex s.eng.dir s.eng.nk.toNat s.eng.rc.toNat) = (roundKeys d keys)[s.eng.rc.toNat]? := by
  have hrc := hp.round hf
  have hblock := hp.block (.inr (.inl hf))
  obtain ⟨-, hkey, -, -⟩ := hp.loaded
  rw [hp.keyCount] at hrc ⊢
  rw [hp.blockCount] at hblock
  rw [getElem?_roundKeys d hrc, hp.dir]
  exact hkey _ (keyIndex_lt d hrc) (Nat.one_le_of_lt hblock)

/-- The block STORE writes is the transform of block E.bi (R132, R134, R148). -/
theorem Progress.storeBlock_eq (hp : Progress d m keys buf before s) (hf : s.eng.fsm = .store) :
    ∃ b, (partitionBlocks m buf)[s.eng.bi.toNat]? = some b ∧ storeBlock s.eng = xblock d keys b := by
  obtain ⟨b, hb, hhalves⟩ := hp.halves (.inr hf)
  refine ⟨b, hb, ?_⟩
  have hall : (roundKeys d keys).length ≤ s.eng.rc.toNat := by
    rw [length_roundKeys, hp.store hf, hp.keyCount]
  rw [storeBlock, hhalves, List.take_of_length_le hall, hp.mode, xblock, blockMode_of_getElem?_partitionBlocks hb]

/-- FETCH starts the rounds of block E.bi (R146). -/
theorem Progress.of_fetch (hp : Progress d m keys buf before s) (hf : s.eng.fsm = .fetch) (h : engineTurn s = .next t) :
    Progress d m keys buf before t := by
  obtain ⟨b, hb, -⟩ := microFetch_next ((engineTurn_fetch hf).symm.trans h)
  obtain rfl : afterFetch b s = t := by simpa [engineTurn_fetch hf, microFetch_of_block hb] using h
  exact hp.of_obuf_and_halves h hp.stored hp.untouched fun _ => ⟨b, hp.block_of_fetch hf hb, rfl⟩

/-- ROUND is round E.rc of block E.bi (R147). -/
theorem Progress.of_round (hp : Progress d m keys buf before s) (hf : s.eng.fsm = .round) (h : engineTurn s = .next t) :
    Progress d m keys buf before t := by
  have hrc := hp.round hf
  obtain ⟨k, hk, rfl⟩ := microRound_next ((engineTurn_round hf).symm.trans h)
  obtain ⟨b, hb, hhalves⟩ := hp.halves (.inl hf)
  refine hp.of_obuf_and_halves h hp.stored hp.untouched fun _ => ⟨b, hb, ?_⟩
  have hkey : (roundKeys d keys)[s.eng.rc.toNat]? = some k := by
    rw [← hp.key_of_round hf, ← keyAddr_toNat hrc]
    exact (memRead_ok.1 hk).2
  have hcount : (afterRound (roundFn s.eng.r k s.eng.mode &&& halfMask s.eng.mode) s).eng.rc.toNat =
      s.eng.rc.toNat + 1 := count_succ_toNat hrc
  rw [hcount, rounds_take_succ m hkey, ← hhalves, ← hp.mode]
  exact afterRound_halves k s

/-- STORE adds block E.bi to the output (R148). -/
theorem Progress.of_store (hp : Progress d m keys buf before s) (hf : s.eng.fsm = .store) (h : engineTurn s = .next t) :
    Progress d m keys buf before t := by
  obtain ⟨b, hb, hstore⟩ := hp.storeBlock_eq hf
  obtain ⟨-, -, hmode, -⟩ := engineTurn_latched h
  obtain ⟨hbi, hfsm⟩ : t.eng.bi.toNat = s.eng.bi.toNat + 1 ∧ (t.eng.fsm = .fetch ∨ t.eng.fsm = .finish) := by
    rcases engineTransition_of_engineTurn (fun hf => hp.block (.inr (.inr hf))) hp.round h with
      ⟨hf', -⟩ | ⟨hf', -⟩ | ⟨hf', -⟩ | ⟨-, hbi, hnext⟩ | ⟨hf', -⟩
    case inr.inr.inr.inl => exact ⟨hbi, hnext.imp And.right And.right⟩
    all_goals simp [hf] at hf'
  have hnext : storeIndex t.eng = storeIndex s.eng + blockSize s.eng.mode := by
    rw [storeIndex, hmode, hbi, Nat.mul_succ, storeIndex]
  refine hp.of_obuf_and_halves h (fun i hi => ?_) (fun i hi => ?_) fun hhalves => ?_
  · by_cases hold : i < storeIndex s.eng
    · rcases engineTurn_byteAt h .obuf i with hkept | ⟨-, -, hlow, -⟩
      · exact hkept.trans (hp.stored i hold)
      · omega
    · obtain ⟨j, rfl⟩ := Nat.exists_eq_add_of_le (Nat.not_lt.1 hold)
      have hj : j < blockSize s.eng.mode := by omega
      rw [byteAt_of_engineTurn_store hf h hj, hstore, storeIndex, hp.mode,
        getElem?_xbuf d keys hb (by rwa [hp.mode] at hj)]
  · rcases engineTurn_byteAt h .obuf i with hkept | ⟨-, -, -, hhigh, -⟩
    · exact hkept.trans (hp.untouched i (by omega))
    · omega
  · rcases hfsm with hfsm | hfsm <;> simp [hfsm] at hhalves

/-- FINISH publishes what the STOREs have written (R149). -/
theorem Progress.published_of_finish (hp : Progress d m keys buf before s) (hf : s.eng.fsm = .finish)
    (h : engineTurn s = .next t) : Published d m keys buf before t := by
  have hlen : storeIndex s.eng = buf.length / blockSize m * blockSize m := by
    rw [storeIndex, hp.mode, hp.finish hf, hp.blockCount, Nat.mul_comm]
  have hloaded := hp.loaded.of_sameInput (sameInput_of_engineTurn h)
  rw [engineTurn_finish hf, microFinish] at h
  injection h with h
  subst h
  refine ⟨?_, fun i hi => hp.stored i (hlen ▸ hi), fun i hi => hp.untouched i (hlen ▸ hi), rfl, rfl, hloaded⟩
  show (BitVec.ofNat 32 (s.eng.nb.toNat * blockSize s.eng.mode)).toNat = _
  rw [BitVec.toNat_ofNat, Nat.mod_eq_of_lt (outputLength_lt s.eng), hp.mode, hp.blockCount]

/-- An engine turn keeps the progress of the running operation, and FINISH publishes. -/
theorem Progress.of_engineTurn (hp : Progress d m keys buf before s) (hbusy : s.busy = true)
    (h : engineTurn s = .next t) :
    (t.busy = true ∧ Progress d m keys buf before t) ∨ (t.busy = false ∧ Published d m keys buf before t) := by
  have htrans := engineTransition_of_engineTurn (fun hf => hp.block (.inr (.inr hf))) hp.round h
  have hbusy' (hf : s.eng.fsm ≠ .finish) : t.busy = true :=
    (State.busy_eq_true t).2 (htrans.busy ((State.busy_eq_true s).1 hbusy) hf)
  cases hf : s.eng.fsm with
  | idle => exact absurd hf ((State.busy_eq_true s).1 hbusy)
  | fetch => exact .inl ⟨hbusy' (by simp [hf]), hp.of_fetch hf h⟩
  | round => exact .inl ⟨hbusy' (by simp [hf]), hp.of_round hf h⟩
  | store => exact .inl ⟨hbusy' (by simp [hf]), hp.of_store hf h⟩
  | finish =>
    have hpub := hp.published_of_finish hf h
    obtain ⟨-, -, -, -, hidle, -⟩ := id hpub
    exact .inr ⟨hidle, hpub⟩

/-- A step other than reset keeps the progress of the running operation, and the last one publishes. -/
theorem Progress.of_step (hp : Progress d m keys buf before s) (hbusy : s.busy = true)
    (hreset : s.inputs.head? ≠ some .reset) (h : step s = .next t) :
    (t.busy = true ∧ Progress d m keys buf before t) ∨ (t.busy = false ∧ Published d m keys buf before t) := by
  rcases step_busy hbusy hreset h with ⟨-, hturn⟩ | ⟨-, heng, hmem, hsame⟩
  · exact (hp.setInputs s.inputs.tail).of_engineTurn hbusy hturn
  · exact .inl ⟨(State.busy_congr heng).trans hbusy, hp.of_eng_eq heng hmem hsame⟩

end

/-- The next state of an accepted command (R145). -/
theorem eq_startOp_of_exec {cmd : Command} {s t : State} (ha : Accepts s) (h : exec cmd.instr s = .next t) :
    t = (startOp cmd s).okay := by
  rw [exec_commandInstr, writeCommand_accepts cmd ha] at h
  injection h with h
  exact h.symm

/-- Settles O58: the start, and the two kinds of step while BUSY. -/
theorem stepKeepsTheProgress : Obligations.StepKeepsTheProgress := by
  refine ⟨fun s t cmd keys buf hc ha hl h => eq_startOp_of_exec ha h ▸ progress_startOp hc ha hl,
    fun d m keys buf before s t hbusy hp h hreset => ?_⟩
  rcases hp.of_step hbusy hreset h with ⟨hbusy', hp'⟩ | ⟨hidle, hpub⟩
  · rwa [if_pos hbusy']
  · rwa [if_neg (by simp [hidle])]

end Sys2Proof.Machine
end

section
/-! PROOFS. Runs to the first idle state (O55 to O57). The progress ends in the published output; each engine turn takes
one from the number of turns left; and a step takes an entry of the interleaving or one of those turns. -/

namespace Sys2Proof.Machine

/-! ### Runs to the first idle state -/

/-- A step takes the oldest entry of the interleaving. -/
theorem step_inputs {s t : State} (h : step s = .next t) : t.inputs = s.inputs.tail := by
  cases hin : s.inputs with
  | nil =>
    obtain ⟨hinputs, -⟩ := engineTurn_inputs_resp ((step_nil hin).symm.trans h)
    rw [hinputs, hin, List.tail_nil]
  | cons inp rest => exact turn_inputs ((step_cons hin).symm.trans h)

section
variable {n : Nat} {s t u : State}

theorem NoReset.head (h : NoReset (n + 1) s) : s.inputs.head? ≠ some .reset := by
  intro hin
  obtain ⟨rest, hin⟩ := List.head?_eq_some_iff.1 hin
  exact h .reset (by simp [hin]) rfl

theorem NoReset.of_step (h : NoReset (n + 1) s) (hs : step s = .next t) : NoReset n t := by
  intro inp hinp
  refine h inp ?_
  rw [step_inputs hs] at hinp
  cases hin : s.inputs with
  | nil => simp [hin] at hinp
  | cons first rest => exact List.mem_cons_of_mem _ (by simpa [hin] using hinp)

theorem firstIdle_zero (h : s.busy = false) : FirstIdle 0 s s := ⟨rfl, h, fun _ hm => absurd hm (Nat.not_lt_zero _)⟩

theorem FirstIdle.cons (hbusy : s.busy = true) (hs : step s = .next t) (h : FirstIdle n t u) :
    FirstIdle (n + 1) s u := by
  obtain ⟨hrun, hidle, hfirst⟩ := h
  refine ⟨(runSteps_succ hs).trans hrun, hidle, fun m hm v hv => ?_⟩
  cases m with
  | zero =>
    injection hv with hv
    exact hv ▸ hbusy
  | succ m => exact hfirst m (Nat.lt_of_succ_lt_succ hm) v ((runSteps_succ hs).symm.trans hv)

/-- From an idle state the first idle state is that state. -/
theorem FirstIdle.of_idle (h : FirstIdle n s u) (hidle : s.busy = false) : n = 0 ∧ u = s := by
  obtain ⟨hrun, -, hfirst⟩ := h
  cases n with
  | zero =>
    injection hrun with hrun
    exact ⟨rfl, hrun.symm⟩
  | succ n => simpa [hidle] using hfirst 0 n.succ_pos s rfl

/-- From a busy state the first idle state is that of the next state. -/
theorem FirstIdle.of_busy (h : FirstIdle n s u) (hbusy : s.busy = true) :
    ∃ k t, n = k + 1 ∧ step s = .next t ∧ FirstIdle k t u := by
  obtain ⟨hrun, hidle, hfirst⟩ := h
  cases n with
  | zero =>
    injection hrun with hrun
    simp [hrun, hidle] at hbusy
  | succ k =>
    cases hs : step s with
    | next t =>
      rw [runSteps_succ hs] at hrun
      exact ⟨k, t, rfl, rfl, hrun, hidle, fun m hm v hv =>
        hfirst (m + 1) (Nat.succ_lt_succ hm) v ((runSteps_succ hs).trans hv)⟩
    | fault f => simp [runSteps, hs] at hrun
    | refused r => simp [runSteps, hs] at hrun

/-- What every step but reset keeps while BUSY, ending in `Q` where it goes idle, gives `Q` at the first idle state. -/
theorem FirstIdle.of_steps {P Q : State → Prop} (hkeep : ∀ s t, s.busy = true → P s → s.inputs.head? ≠ some .reset →
    step s = .next t → (t.busy = true ∧ P t) ∨ (t.busy = false ∧ Q t)) (h : FirstIdle n s u) (hreset : NoReset n s)
    (hbusy : s.busy = true) (hP : P s) : Q u := by
  induction n generalizing s with
  | zero =>
    obtain ⟨k, t, hk, -⟩ := h.of_busy hbusy
    cases hk
  | succ n ih =>
    obtain ⟨k, t, hk, hs, ht⟩ := h.of_busy hbusy
    obtain rfl : n = k := Nat.succ.inj hk
    rcases hkeep s t hbusy hP hreset.head hs with ⟨hbusy', hP'⟩ | ⟨hidle, hQ⟩
    · exact ih ht (hreset.of_step hs) hbusy' hP'
    · obtain ⟨-, rfl⟩ := ht.of_idle hidle
      exact hQ

end

/-- Settles O55: the progress, with the operands as at acceptance, ends in the published output. -/
theorem engineComputesTheBufferTransform : Obligations.EngineComputesTheBufferTransform := by
  intro s t u cmd keys buf n hc ha hl h hreset hrun
  obtain rfl := eq_startOp_of_exec ha h
  have hend := hrun.of_steps
    (P := fun v => Progress cmd.dir cmd.mode keys buf (s.byteAt .obuf) v ∧ SameInput s v)
    (Q := fun v => Published cmd.dir cmd.mode keys buf (s.byteAt .obuf) v ∧ SameInput s v)
    (fun v w hbusy ⟨hp, hsame⟩ hne hs => by
      have hsame' := hsame.trans (sameInput_of_step hbusy hne hs)
      exact (hp.of_step hbusy hne hs).imp (fun ⟨hb, hp'⟩ => ⟨hb, hp', hsame'⟩) fun ⟨hb, hpub⟩ => ⟨hb, hpub, hsame'⟩)
    hreset (startOp_busy cmd s) ⟨progress_startOp hc ha hl, rfl, rfl, rfl, rfl, rfl⟩
  obtain ⟨⟨houtlen, hout, hrest, hdone, hidle, -⟩, hsame⟩ := hend
  exact ⟨houtlen, hout, hrest, hdone, hidle, hsame.key, hsame.ibuf, hsame.len, hsame.keylen⟩

/-! ### The number of turns -/

section
variable {e e' : Engine}

/-- The engine turns that the blocks after E.bi take: a FETCH, the rounds and a STORE each (R153). -/
def turnsOfLaterBlocks (e : Engine) : Nat := (e.nb.toNat - (e.bi.toNat + 1)) * (e.nk.toNat + 2)

/-- The engine turns that are left until IDLE (R153). -/
def turnsLeft (e : Engine) : Nat :=
  match e.fsm with
  | .idle => 0
  | .fetch => e.nk.toNat + 3 + turnsOfLaterBlocks e
  | .round => e.nk.toNat - e.rc.toNat + 2 + turnsOfLaterBlocks e
  | .store => 2 + turnsOfLaterBlocks e
  | .finish => 1

/-- The turns of the blocks that follow, where there is one. -/
theorem turnsOfBlocks (n k : Nat) {b : Nat} (h : b < n) : (n - b) * (k + 2) = k + 2 + (n - (b + 1)) * (k + 2) := by
  rw [show n - b = n - (b + 1) + 1 by omega, Nat.succ_mul, Nat.add_comm]

/-- Each engine turn is one of the turns left (R153). -/
theorem turnsLeft_of_transition (hbusy : e.fsm ≠ .idle) (ht : EngineTransition e e') (hnk : e'.nk = e.nk)
    (hnb : e'.nb = e.nb) : turnsLeft e = 1 + turnsLeft e' := by
  have hlater (hbi : e'.bi = e.bi) : turnsOfLaterBlocks e' = turnsOfLaterBlocks e := by
    simp only [turnsOfLaterBlocks, hbi, hnk, hnb]
  rcases ht with ⟨hf, -⟩ | ⟨hf, hbi, hrc, hnext⟩ | ⟨hf, hbi, hrc, ⟨hlt, hnext⟩ | ⟨hend, hnext⟩⟩ |
    ⟨hf, hbi, ⟨hlt, hnext⟩ | ⟨hend, hnext⟩⟩ | ⟨hf, -, hnext⟩
  · exact absurd hf hbusy
  · by_cases hzero : e.nk.toNat = 0
    · simp only [turnsLeft, hf, hnext, hzero, if_true, hlater hbi]
      omega
    · simp only [turnsLeft, hf, hnext, hzero, if_false, hlater hbi, hnk, hrc]
      omega
  · simp only [turnsLeft, hf, hnext, hlater hbi, hnk, hrc]
    omega
  · simp only [turnsLeft, hf, hnext, hlater hbi]
    omega
  · have hblocks := turnsOfBlocks e.nb.toNat e.nk.toNat hlt
    simp only [turnsLeft, hf, hnext, turnsOfLaterBlocks, hnk, hnb, hbi]
    omega
  · simp only [turnsLeft, hf, hnext, turnsOfLaterBlocks, hend, Nat.sub_self, Nat.zero_mul]
  · simp only [turnsLeft, hf, hnext]

/-- The engine turns of a whole operation (R153). -/
theorem AtStart.turnsLeft (h : AtStart e) : turnsLeft e = 1 + e.nb.toNat * (e.nk.toNat + 2) := by
  obtain ⟨hbi, hfsm⟩ := h
  by_cases hzero : e.nb.toNat = 0
  · rw [if_pos hzero] at hfsm
    rw [Machine.turnsLeft, hfsm, hzero, Nat.zero_mul]
  · rw [if_neg hzero] at hfsm
    have hblocks := turnsOfBlocks e.nb.toNat e.nk.toNat (Nat.pos_of_ne_zero hzero)
    rw [Nat.sub_zero] at hblocks
    simp only [Machine.turnsLeft, hfsm, turnsOfLaterBlocks, hbi]
    omega

end

/-- A step while BUSY keeps the schedule, and takes one of the turns left where it is the engine's. -/
theorem step_turnsLeft {s t : State} (hbusy : s.busy = true) (hreset : s.inputs.head? ≠ some .reset)
    (hsched : OnSchedule s.eng) (h : step s = .next t) :
    OnSchedule t.eng ∧ turnsLeft s.eng = (if EngineMoves s then 1 else 0) + turnsLeft t.eng := by
  rcases step_busy hbusy hreset h with ⟨hmoves, hturn⟩ | ⟨hmoves, heng, -⟩
  · have htrans : EngineTransition s.eng t.eng :=
      engineTransition_of_engineTurn (s := s.setInputs s.inputs.tail) (fun hf => hsched.block (.inr (.inr hf)))
        hsched.round hturn
    obtain ⟨-, -, -, hnk, hnb⟩ := engineTurn_latched hturn
    rw [if_pos hmoves]
    exact ⟨hsched.of_transition htrans hnk hnb,
      turnsLeft_of_transition ((State.busy_eq_true s).1 hbusy) htrans hnk hnb⟩
  · rw [if_neg hmoves, heng, Nat.zero_add]
    exact ⟨hsched, rfl⟩

/-- The engine turns of a run to the first idle state are the turns left at its start. -/
theorem engineTurns_eq_turnsLeft {n : Nat} {s u : State} (h : FirstIdle n s u) (hreset : NoReset n s)
    (hsched : OnSchedule s.eng) : engineTurns n s = turnsLeft s.eng := by
  induction n generalizing s with
  | zero =>
    obtain ⟨hrun, hidle, -⟩ := h
    injection hrun with hrun
    rw [turnsLeft, hrun, (State.busy_eq_false u).1 hidle, engineTurns]
  | succ n ih =>
    obtain ⟨-, -, hfirst⟩ := id h
    have hbusy : s.busy = true := hfirst 0 n.succ_pos s rfl
    obtain ⟨k, t, hk, hs, ht⟩ := h.of_busy hbusy
    obtain rfl : n = k := Nat.succ.inj hk
    obtain ⟨hsched', hturns⟩ := step_turnsLeft hbusy hreset.head hsched hs
    rw [engineTurns_succ hs, ih ht (hreset.of_step hs) hsched', hturns]

/-- Settles O56: the turns left at the start. -/
theorem operationTakesTheStatedSteps : Obligations.OperationTakesTheStatedSteps := by
  intro s t u cmd n hc ha h hreset hrun
  obtain rfl := eq_startOp_of_exec ha h
  have hstart := atStart_startOp cmd hc ha
  obtain ⟨hnk, hnb⟩ := startOp_counts cmd hc ha
  rw [engineTurns_eq_turnsLeft hrun hreset hstart.onSchedule]
  exact hstart.turnsLeft.trans (by rw [hnk, hnb, blockCount])

/-! ### Reaching IDLE -/

/-- LEN and KEYLEN within the capacities, as R172 checks them. -/
abbrev LengthsFit (s : State) : Prop := s.regs.len.toNat ≤ s.cfg.bufMax ∧ s.regs.keylen.toNat ≤ s.cfg.keyMax

theorem LengthsFit.of_sameInput {s t : State} (h : LengthsFit s) (hsame : SameInput s t) : LengthsFit t := by
  simpa only [LengthsFit, hsame.cfg, hsame.len, hsame.keylen] using h

section
variable {d : Dir} {m : BlockMode} {keys buf : List Byte} {before : Nat → Option Byte} {s : State}

theorem Progress.operandsFit (hp : Progress d m keys buf before s) (hfit : LengthsFit s) : OperandsFit s := by
  obtain ⟨hlen, hkeylen⟩ := hfit
  obtain ⟨hkeys, -, hbuf, -⟩ := hp.loaded
  refine ⟨by rwa [hp.keyCount, hkeys], ?_⟩
  rw [hp.blockCount, hp.mode]
  exact (Nat.div_mul_le_self _ _).trans (hbuf ▸ hlen)

/-- Every byte that the engine reads is loaded (R154). -/
theorem Progress.defined_of_reads (hp : Progress d m keys buf before s) {sp : Space} {i : Nat}
    (hr : EngineReads s.eng sp i) : s.byteAt sp i ≠ none := by
  rcases hr with ⟨hf, rfl, -, hhigh⟩ | ⟨hf, rfl, rfl⟩
  · have hi := hp.block_lt (hp.block (.inl hf)) hhigh
    obtain ⟨-, -, -, hibuf⟩ := hp.loaded
    rw [hibuf i hi, Ne, List.getElem?_eq_none_iff, not_le]
    exact hi.trans_le (Nat.div_mul_le_self _ _)
  · rw [hp.key_of_round hf, Ne, List.getElem?_eq_none_iff, not_le, length_roundKeys, ← hp.keyCount]
    exact hp.round hf

/-- No step of a loaded operation stops. -/
theorem Progress.step_isNext (hp : Progress d m keys buf before s) (hfit : LengthsFit s) (hbusy : s.busy = true)
    (hreset : s.inputs.head? ≠ some .reset) : ∃ t, step s = .next t := by
  have hengine (l : List Input) : ∃ t, engineTurn (s.setInputs l) = .next t := by
    have hp' := hp.setInputs l
    refine (engineTurn_completes_or_stops (fun _ => hp'.operandsFit hfit) hp'.block hp'.round).resolve_right ?_
    rintro ⟨sp, i, hreads, -, -, hnone⟩
    exact hp'.defined_of_reads hreads hnone
  rcases step_cases s with ⟨-, hs⟩ | ⟨rest, -, hs⟩ | ⟨rest, hin, -⟩ | ⟨d, w, rest, -, hs⟩
  · exact hs ▸ hengine s.inputs
  · exact hs ▸ hengine rest
  · simp [hin] at hreset
  · refine hs ▸ (hostTurn_completesOrStops d w (s.setInputs rest)).resolve_right fun ⟨hidle, _⟩ => ?_
    exact absurd (hbusy.symm.trans hidle) (by decide)

/-- Each step takes an entry of the interleaving or one of the turns left. -/
theorem entries_and_turns_decrease {t : State} (hbusy : s.busy = true) (hreset : s.inputs.head? ≠ some .reset)
    (hsched : OnSchedule s.eng) (h : step s = .next t) :
    t.inputs.length + turnsLeft t.eng < s.inputs.length + turnsLeft s.eng := by
  obtain ⟨-, hturns⟩ := step_turnsLeft hbusy hreset hsched h
  rw [step_inputs h, List.length_tail, hturns]
  by_cases hmoves : EngineMoves s
  · rw [if_pos hmoves]
    omega
  · have hpos : 0 < s.inputs.length := List.length_pos_iff.2 fun hnil => hmoves (.inl hnil)
    omega

/-- With finitely many entries ahead and none of them a reset, a loaded operation reaches IDLE. -/
theorem Progress.reachesIdle (hp : Progress d m keys buf before s) (hfit : LengthsFit s) (hbusy : s.busy = true)
    (hin : ∀ inp ∈ s.inputs, inp ≠ .reset) :
    ∃ n u, n ≤ s.inputs.length + turnsLeft s.eng ∧ FirstIdle n s u := by
  induction hk : s.inputs.length + turnsLeft s.eng using Nat.strong_induction_on generalizing s with
  | h k ih =>
    have hreset : s.inputs.head? ≠ some .reset := fun h => hin _ (List.mem_of_mem_head? h) rfl
    obtain ⟨t, hs⟩ := hp.step_isNext hfit hbusy hreset
    have hless := entries_and_turns_decrease hbusy hreset hp.onSchedule hs
    rcases hp.of_step hbusy hreset hs with ⟨hbusy', hp'⟩ | ⟨hidle, -⟩
    · have hin' : ∀ inp ∈ t.inputs, inp ≠ .reset := fun inp hinp =>
        hin inp (List.mem_of_mem_tail (step_inputs hs ▸ hinp))
      have hfit' := hfit.of_sameInput (sameInput_of_step hbusy hreset hs)
      obtain ⟨n, u, hn, hrun⟩ := ih _ (hk ▸ hless) hp' hfit' hbusy' hin' rfl
      exact ⟨n + 1, u, by omega, hrun.cons hbusy hs⟩
    · exact ⟨1, t, by omega, (firstIdle_zero hidle).cons hbusy hs⟩

end

/-- Settles O57: the entries ahead and the turns left bound the run. -/
theorem acceptedOperationReachesIdle : Obligations.AcceptedOperationReachesIdle := by
  intro s t cmd keys buf hc ha hl h hin
  obtain rfl := eq_startOp_of_exec ha h
  obtain ⟨-, hlen, hkeylen⟩ := id ha
  have hp := progress_startOp hc ha hl
  obtain ⟨n, u, hn, hrun⟩ := hp.reachesIdle ⟨hlen, hkeylen⟩ (startOp_busy cmd s) hin
  have hturns : turnsLeft (startOp cmd s).okay.eng = 1 + buf.length / blockSize cmd.mode * (keys.length + 2) := by
    rw [← hp.keyCount, ← hp.blockCount]
    exact (atStart_startOp cmd hc ha).turnsLeft
  exact ⟨n, u, hturns ▸ hn, hrun⟩

end Sys2Proof.Machine
end

section
/-! PROOFS. The host's transactions (O6, O25 to O34, O36): each instruction's next state by the checks it passes, a
step as the instruction its transaction decodes to, and what no transaction changes. -/

namespace Sys2Proof.Machine

/-! ### Refusals -/

/-- A refused transaction records its error, said by fields, and answers OKAY with read word 0 (R201). -/
theorem flagError_okay_eq_answered (e : IfaceError) (s : State) :
    (flagError e s).okay = answered .okay 0#32 (withError (errorCode e) s) := by
  rw [flagError_eq_withError]
  rfl

section
variable {s : State}

theorem lockout_refused {idle : Outcome} (h : s.busy = true) :
    lockout s idle = .next (answered .okay 0#32 (withError 5#4 s)) := by
  rw [lockout_busy h, flagError_okay_eq_answered]
  rfl

variable {sp : Space} {i : Index}

theorem windowAccess_refused {idle : Outcome} (hi : i.toNat < s.cfg.capacity sp) (h : s.busy = true) :
    windowAccess sp i s idle = .next (answered .okay 0#32 (withError 5#4 s)) := by
  rw [windowAccess_mapped hi, lockout_refused h]

theorem windowAccess_idle {idle : Outcome} (hi : i.toNat < s.cfg.capacity sp) (h : s.busy = false) :
    windowAccess sp i s idle = idle := by
  rw [windowAccess_mapped hi, lockout_idle h]

/-- An idle read of a mapped, undefined byte is the model fault (R183, R185, R187). -/
theorem windowRead_undefined (hi : i.toNat < s.cfg.capacity sp) (hidle : s.busy = false)
    (hnone : s.byteAt sp i.toNat = none) : windowRead sp i s = .fault (.undefinedByte sp i.toNat) := by
  rw [windowRead, windowAccess_idle hi hidle, memRead_error.2 (.inl ⟨hi, hnone, rfl⟩)]

/-! ### Commands -/

theorem writeCommand_refused_busy (v : Option Command) (h : s.busy = true) :
    writeCommand v s = .next (answered .okay 0#32 (withError 2#4 s)) := by
  rw [writeCommand_busy v h, flagError_okay_eq_answered]
  rfl

theorem writeCommand_refused_illegal (h : s.busy = false) :
    writeCommand none s = .next (answered .okay 0#32 (withError 1#4 s)) := by
  rw [writeCommand, if_neg (Bool.eq_false_iff.1 h), flagError_okay_eq_answered]
  rfl

theorem writeCommand_refused_len (cmd : Command) (h : s.busy = false) (hlen : s.cfg.bufMax < s.regs.len.toNat) :
    writeCommand (some cmd) s = .next (answered .okay 0#32 (withError 3#4 s)) := by
  rw [writeCommand, if_neg (Bool.eq_false_iff.1 h), flagError_okay_eq_answered]
  exact if_pos hlen

theorem writeCommand_refused_keylen (cmd : Command) (h : s.busy = false) (hlen : s.regs.len.toNat ≤ s.cfg.bufMax)
    (hkeylen : s.cfg.keyMax < s.regs.keylen.toNat) :
    writeCommand (some cmd) s = .next (answered .okay 0#32 (withError 4#4 s)) := by
  rw [writeCommand, if_neg (Bool.eq_false_iff.1 h), flagError_okay_eq_answered .keylenRange]
  exact (if_neg (Nat.not_lt.2 hlen)).trans (if_pos hkeylen)

/-- A valid command word written to CMD is its command (R172). -/
theorem exec_wrCmd_of_ok {w : Word} {cmd : Command} (h : decodeCmd w = .ok cmd) :
    exec (.wrCmd w) s = writeCommand (some cmd) s :=
  congrArg (writeCommand · s) (congrArg Except.toOption h)

/-- An illegal word written to CMD is a command write with no command (R172). -/
theorem exec_wrCmd_of_illegal {w : Word} (h : ∀ cmd, decodeCmd w ≠ .ok cmd) :
    exec (.wrCmd w) s = writeCommand none s := by
  refine congrArg (writeCommand · s) ?_
  cases hw : decodeCmd w with
  | ok cmd => exact absurd hw (h cmd)
  | error r => rfl

end

/-- Settles O25: one lemma for each check. -/
theorem commandChecksInOrder : Obligations.CommandChecksInOrder := by
  intro s w
  refine ⟨fun hb => writeCommand_refused_busy _ hb,
    fun hidle hill => (exec_wrCmd_of_illegal hill).trans (writeCommand_refused_illegal hidle), fun cmd i hw hi => ?_⟩
  have hexec : exec i s = writeCommand (some cmd) s := by
    rcases hi with rfl | rfl
    · exact exec_wrCmd_of_ok hw
    · exact exec_commandInstr cmd s
  rw [hexec]
  exact ⟨writeCommand_refused_busy _, writeCommand_refused_len cmd, writeCommand_refused_keylen cmd,
    writeCommand_accepts cmd⟩

/-! ### Registers -/

/-- An appended vector is a number in two digits. -/
theorem toNat_append_eq_add {m n : Nat} (x : BitVec m) (y : BitVec n) :
    (x ++ y).toNat = x.toNat * 2 ^ n + y.toNat := by
  rw [BitVec.toNat_append, ← Nat.shiftLeft_add_eq_or_of_lt y.isLt, Nat.shiftLeft_eq]

/-- The places of the fields in the STATUS word (R25). -/
theorem statusWord_toNat (s : State) :
    (statusWord s).toNat =
      16 * s.regs.errcode.toNat + 4 * s.regs.err.toNat + 2 * s.regs.done.toNat + s.busy.toNat := by
  have hcode := s.regs.errcode.isLt
  have herr := s.regs.err.toNat_lt
  have hdone := s.regs.done.toNat_lt
  have hbusy := s.busy.toNat_lt
  simp only [statusWord, BitVec.toNat_setWidth, toNat_append_eq_add, BitVec.toNat_ofBool, BitVec.toNat_ofNat]
  omega

/-- Settles O26: each read is one answer; BUSY is the STATUS word's last place. -/
theorem registerReadsAnswerTheRegister : Obligations.RegisterReadsAnswerTheRegister := by
  refine fun s => ⟨rfl, rfl, rfl, rfl, statusWord s, rfl, ?_⟩
  rw [statusWord_toNat]
  cases hf : s.eng.fsm <;> simp [State.busy, hf]

theorem clearDone_eq_setDone (w : Word) (s : State) :
    clearDone w s = s.setDone (if w.getLsbD 1 then false else s.regs.done) := by
  unfold clearDone
  split <;> rfl

theorem clearErr_eq_setErr (w : Word) (s : State) :
    clearErr w s =
      s.setErr (if w.getLsbD 2 then false else s.regs.err) (if w.getLsbD 2 then 0#4 else s.regs.errcode) := by
  unfold clearErr
  split <;> rfl

/-- Settles O27: the two clears, each an update of its own fields. -/
theorem statusWriteClears : Obligations.StatusWriteClears := by
  intro s w
  show (.next (clearErr w (clearDone w s)).okay : Outcome) = _
  rw [clearErr_eq_setErr, clearDone_eq_setDone]
  rfl

/-- Settles O28: both writes are under the lockout. -/
theorem lengthWritesStoreOrAreRefused : Obligations.LengthWritesStoreOrAreRefused := fun _ _ =>
  ⟨fun hidle => ⟨lockout_idle hidle, lockout_idle hidle⟩, fun hb => ⟨lockout_refused hb, lockout_refused hb⟩⟩

/-- Settles O29: the write is its answer alone. -/
theorem outlenWriteIsIgnored : Obligations.OutlenWriteIsIgnored := fun _ _ => rfl

/-! ### Windows -/

/-- Settles O30: both writes are the window write of their store. -/
theorem windowWritesStoreOneByte : Obligations.WindowWritesStoreOneByte := by
  intro s i d sp ins cap hins
  obtain ⟨hexec, rfl⟩ : exec ins s = windowWrite sp i d s ∧ cap = s.cfg.capacity sp := by
    rcases hins with ⟨rfl, rfl, rfl⟩ | ⟨rfl, rfl, rfl⟩
    · exact ⟨rfl, rfl⟩
    · exact ⟨rfl, rfl⟩
  rw [hexec]
  refine ⟨windowAccess_unmapped, windowAccess_refused, fun hi hidle => ?_⟩
  have hbyte (sq : Space) (j : Nat) := byteAt_putByte s sp sq i.toNat j (dataByte d)
  refine ⟨_, windowWrite_idle d hi hidle, ⟨dataByte d, ?_, BitVec.toNat_setWidth 8 d⟩, fun sq j hne => ?_,
    rfl, rfl, rfl, rfl, rfl⟩
  · exact (hbyte sp i.toNat).trans (if_pos ⟨rfl, rfl⟩)
  · exact (hbyte sq j).trans (if_neg hne)

/-- Settles O31: the three reads are the window read of their store. -/
theorem windowReadsAnswerTheByte : Obligations.WindowReadsAnswerTheByte := by
  intro s i sp ins cap hins
  obtain ⟨hexec, rfl⟩ : exec ins s = windowRead sp i s ∧ cap = s.cfg.capacity sp := by
    rcases hins with ⟨rfl, rfl, rfl⟩ | ⟨rfl, rfl, rfl⟩ | ⟨rfl, rfl, rfl⟩
    · exact ⟨rfl, rfl⟩
    · exact ⟨rfl, rfl⟩
    · exact ⟨rfl, rfl⟩
  rw [hexec]
  refine ⟨windowAccess_unmapped, windowAccess_refused, windowRead_undefined, fun v hi hidle hv => ?_⟩
  rw [windowRead_defined hi hidle hv, zext32, BitVec.ofNat_toNat]
  rfl

/-- Settles O32: the checks of a window access, and nothing more while idle. -/
theorem obufWriteIsIgnored : Obligations.ObufWriteIsIgnored := fun _ _ _ =>
  ⟨windowAccess_unmapped (sp := .obuf), windowAccess_refused (sp := .obuf), windowAccess_idle (sp := .obuf)⟩

/-- Settles O33: the lockout refuses the accesses under it; the others answer in every state. -/
theorem busyLockout : Obligations.BusyLockout := by
  intro s i d hb
  refine ⟨fun hi => ?key, fun hi => ?buffers, ⟨lockout_refused hb, lockout_refused hb⟩,
    writeCommand_refused_busy _ hb, fun ins hins => ?allowed, _, rfl, ?status⟩
  case key => exact ⟨windowAccess_refused (sp := .key) hi hb, windowAccess_refused (sp := .key) hi hb⟩
  case buffers =>
    exact ⟨windowAccess_refused (sp := .ibuf) hi hb, windowAccess_refused (sp := .ibuf) hi hb,
      windowAccess_refused (sp := .obuf) hi hb, windowAccess_refused (sp := .obuf) hi hb⟩
  case allowed => rcases hins with rfl | rfl | rfl | rfl | rfl | rfl <;> exact ⟨_, rfl⟩
  case status => rw [State.okay_regs, clearErr_err, clearDone_err]

/-! ### The transaction of a step -/

theorem hostTurn_of_ok {d : Descriptor} {w : Word} {s : State} {i : Instr} (h : decodeBus s.cfg d w = .ok i) :
    hostTurn d w s = exec i s := by
  rw [hostTurn, h]

theorem hostTurn_of_error {d : Descriptor} {w : Word} {s : State} {r : Reject} (h : decodeBus s.cfg d w = .error r) :
    hostTurn d w s = .next (busError s) := by
  rw [hostTurn, h]

/-- Settles O6: the turn on the state without the entry. -/
theorem stepRunsTheHostTransaction : Obligations.StepRunsTheHostTransaction := by
  intro s desc data rest hin
  have hstep : step s = hostTurn desc data (s.setInputs rest) := step_cons hin
  refine ⟨fun i hi => hstep.trans (hostTurn_of_ok hi), fun r hr => hstep.trans (hostTurn_of_error hr), ?_⟩
  rintro cmd rfl hcmd
  have hdec : decodeBus s.cfg 0x18000#17 data = .ok (.wrCmd data) := rfl
  calc step s = hostTurn 0x18000#17 data (s.setInputs rest) := hstep
    _ = exec (.wrCmd data) (s.setInputs rest) := hostTurn_of_ok hdec
    _ = writeCommand (some cmd) (s.setInputs rest) := exec_wrCmd_of_ok hcmd
    _ = exec cmd.instr (s.setInputs rest) := (exec_commandInstr cmd _).symm

/-! ### Frames -/

/-- A transaction with an unmapped target is a bus error (R94). -/
theorem exec_targetInstr_unmapped {k : Bool} {w : Word} {tg : Target} {s : State} (h : ¬targetMapped s.cfg tg) :
    exec (targetInstr k w tg) s = .next (busError s) := by
  cases tg with
  | reg r => exact absurd trivial h
  | win sp n => cases k <;> cases sp <;> exact windowAccess_unmapped (Nat.not_lt.1 h)

/-- A host instruction is a bus error, or is the turn of a descriptor that decodes to it. -/
theorem exec_targetInstr (k : Bool) (w : Word) (tg : Target) (s : State) :
    exec (targetInstr k w tg) s = .next (busError s) ∨
      ∃ d, decodeBus s.cfg d w = .ok (targetInstr k w tg) ∧ exec (targetInstr k w tg) s = hostTurn d w s := by
  by_cases hmapped : targetMapped s.cfg tg
  · have hdec : decodeBus s.cfg (targetDescriptor k tg) w = .ok (targetInstr k w tg) :=
      decodeBus_ok_iff_targetDescriptor.2 ⟨k, tg, rfl, hmapped, rfl⟩
    exact .inr ⟨_, hdec, (hostTurn_of_ok hdec).symm⟩
  · exact .inl (exec_targetInstr_unmapped hmapped)

/-- A multiplier's instruction is the ROUND micro-step of its mode, where that is in use (R89, log entry 7). -/
theorem exec_decodeMulsel (sel : BitVec 1) (s : State) :
    ∃ m mul, exec (decodeMulsel sel) s = inRound m s mul := by
  unfold decodeMulsel
  split
  · exact ⟨.nibble, gfmul4, rfl⟩
  · exact ⟨.byte, gfmul8, rfl⟩

/-- The instructions that write a store byte themselves (R182, R184). -/
abbrev WritesByte (i : Instr) : Prop := ∃ n d, i = .wrbKey n d ∨ i = .wrbIbuf n d

/-- An instruction keeps the parameters and the interleaving, and every store unless it writes a byte. -/
theorem exec_keeps_cfg_inputs_mem {i : Instr} {s t : State} (h : exec i s = .next t) :
    t.cfg = s.cfg ∧ t.inputs = s.inputs ∧ (t.mem = s.mem ∨ WritesByte i) := by
  rcases instr_cases i with ⟨cmd, rfl⟩ | ⟨sel, rfl, -⟩ | ⟨k, w, tg, rfl⟩
  · rw [exec_commandInstr] at h
    rcases writeCommand_next h with ⟨e, rfl⟩ | ⟨cmd', -, -, -, -, rfl⟩
    · exact ⟨by simp, by simp, .inl (by simp)⟩
    · exact ⟨rfl, rfl, .inl rfl⟩
  · obtain ⟨m, mul, hmul⟩ := exec_decodeMulsel sel s
    rcases inRound_next (hmul.symm.trans h) with ⟨-, -, f, -, rfl⟩ | ⟨-, rfl⟩
    · exact ⟨rfl, rfl, .inl rfl⟩
    · exact ⟨rfl, rfl, .inl rfl⟩
  · rcases exec_targetInstr k w tg s with hexec | ⟨d, hdec, hexec⟩ <;> rw [hexec] at h
    · injection h with h
      exact h ▸ ⟨rfl, rfl, .inl rfl⟩
    · refine ⟨hostTurn_cfg h, turn_inputs (inp := .bus d w) h, (hostTurn_mem h).imp_right ?_⟩
      rintro ⟨sp, n, -, -, -, ⟨-, hwrite⟩ | ⟨-, hwrite⟩⟩
      · exact ⟨n, w, .inl (Except.ok.inj (hdec.symm.trans hwrite))⟩
      · exact ⟨n, w, .inr (Except.ok.inj (hdec.symm.trans hwrite))⟩

/-- Settles O34: only the two window writes write a byte. -/
theorem instructionsKeepMemory : Obligations.InstructionsKeepMemory := by
  intro i s t h
  obtain ⟨hcfg, hinputs, hmem⟩ := exec_keeps_cfg_inputs_mem h
  refine ⟨fun hne sp a => ?_, hcfg, hinputs⟩
  rcases hmem with hmem | ⟨n, d, hi⟩
  · exact byteAt_congr hmem sp a
  · exact absurd hi (not_or.2 (hne n d))

/-- Settles O36: no read stops the machine while BUSY, and no transaction starts or writes then. -/
theorem hostCannotDisturbARunningOperation : Obligations.HostCannotDisturbARunningOperation := by
  intro s desc data hb
  have hnot : s.busy ≠ false := by simp [hb]
  obtain ⟨t, h⟩ : ∃ t, hostTurn desc data s = .next t :=
    (hostTurn_completesOrStops desc data s).resolve_right fun ⟨hidle, _⟩ => hnot hidle
  obtain ⟨heng, hmem, hsame⟩ := hostTurn_busy hb h
  have houtlen : t.regs.outlen = s.regs.outlen := by
    rcases hostTurn_starts_or_keeps h with ⟨-, cmd, ⟨hidle, -⟩, -⟩ | ⟨-, houtlen, -⟩
    · exact absurd hidle hnot
    · exact houtlen
  exact ⟨t, h, heng, hmem, hsame.len, hsame.keylen, houtlen, hsame.cfg, turn_inputs (inp := .bus desc data) h⟩

end Sys2Proof.Machine
end

section
/-! PROOFS. The bus error (O5). The offset map, which the statement writes in numbers, holds exactly the width codes and
offsets that select a target; outside it the decoder has no instruction to give. -/

namespace Sys2Proof.Machine

/-! ### The offset map in numbers -/

/-- The width codes and offsets of the map (R61, R67), as the statement writes them. -/
def InOffsetMap (c : Config) (wc off : Nat) : Prop :=
  (wc = 2 ∧ off ∈ [0x000, 0x004, 0x008, 0x00C, 0x010]) ∨
    (wc = 0 ∧ off / 0x1000 = 1 ∧ off % 0x1000 < c.keyMax) ∨
    (wc = 0 ∧ (off / 0x1000 = 2 ∨ off / 0x1000 = 3) ∧ off % 0x1000 < c.bufMax)

theorem toNat_off (d : Descriptor) : (Descriptor.off d).toNat = d.toNat % 2 ^ 14 := BitVec.extractLsb'_toNat ..

theorem toNat_wc (d : Descriptor) : (Descriptor.wc d).toNat = d.toNat / 2 ^ 14 % 4 := by
  rw [Descriptor.wc, BitVec.extractLsb'_toNat, Nat.shiftRight_eq_div_pow]

/-- The registers stand at the five offsets of the map (R23, R61). -/
theorem exists_registerOffset_iff {off : BitVec 14} :
    (∃ r, off = registerOffset r) ↔ off.toNat ∈ [0x000, 0x004, 0x008, 0x00C, 0x010] := by
  constructor
  · rintro ⟨r, rfl⟩
    cases r <;> decide
  · intro h
    simp only [List.mem_cons, List.not_mem_nil, or_false] at h
    rcases h with h | h | h | h | h
    · exact ⟨.cmd, BitVec.eq_of_toNat_eq h⟩
    · exact ⟨.status, BitVec.eq_of_toNat_eq h⟩
    · exact ⟨.len, BitVec.eq_of_toNat_eq h⟩
    · exact ⟨.keylen, BitVec.eq_of_toNat_eq h⟩
    · exact ⟨.outlen, BitVec.eq_of_toNat_eq h⟩

/-- The offset of a window byte in numbers: the window is the quotient by 0x1000 and the index the remainder (R61). -/
theorem eq_region_append_iff {off : BitVec 14} {region : BitVec 2} {i : Index} :
    off = region ++ i ↔ off.toNat / 0x1000 = region.toNat ∧ off.toNat % 0x1000 = i.toNat := by
  have happend : (region ++ i).toNat = region.toNat * 0x1000 + i.toNat := by
    rw [BitVec.toNat_append, ← Nat.shiftLeft_add_eq_or_of_lt i.isLt, Nat.shiftLeft_eq]
  have hi := i.isLt
  rw [← BitVec.toNat_inj, happend]
  omega

/-- A byte of a window stands at each index below the store's capacity (R61). -/
theorem exists_windowByte_iff {c : Config} {off : BitVec 14} (sp : Space) :
    (∃ i, off = windowRegion sp ++ i ∧ Index.mapped c sp i) ↔
      off.toNat / 0x1000 = (windowRegion sp).toNat ∧ off.toNat % 0x1000 < c.capacity sp := by
  simp only [eq_region_append_iff]
  constructor
  · rintro ⟨i, ⟨hregion, hindex⟩, hmapped⟩
    exact ⟨hregion, hindex.trans_lt hmapped⟩
  · rintro ⟨hregion, hmapped⟩
    have hindex : (BitVec.ofNat 12 off.toNat).toNat = off.toNat % 0x1000 := BitVec.toNat_ofNat ..
    exact ⟨BitVec.ofNat 12 off.toNat, ⟨hregion, hindex.symm⟩, hindex.trans_lt hmapped⟩

/-- The offset map is the width codes and offsets that select a target (R61, R67, R94). -/
theorem inOffsetMap_iff_busTarget {c : Config} {wc : BitVec 2} {off : BitVec 14} :
    InOffsetMap c wc.toNat off.toNat ↔ ∃ tg, busTarget c wc off = .ok tg := by
  simp only [busTarget_ok]
  constructor
  · have window (sp : Space) (hwc : wc.toNat = 0) (hregion : off.toNat / 0x1000 = (windowRegion sp).toNat)
        (hindex : off.toNat % 0x1000 < c.capacity sp) :
        ∃ tg, wc = targetWidthCode tg ∧ off = targetOffset tg ∧ targetMapped c tg := by
      obtain ⟨i, hi⟩ := (exists_windowByte_iff sp).2 ⟨hregion, hindex⟩
      exact ⟨.win sp i, BitVec.eq_of_toNat_eq hwc, hi⟩
    rintro (⟨hwc, hoff⟩ | ⟨hwc, hregion, hindex⟩ | ⟨hwc, hregion | hregion, hindex⟩)
    · obtain ⟨r, hr⟩ := exists_registerOffset_iff.2 hoff
      exact ⟨.reg r, BitVec.eq_of_toNat_eq hwc, hr, trivial⟩
    · exact window .key hwc hregion hindex
    · exact window .ibuf hwc hregion hindex
    · exact window .obuf hwc hregion hindex
  · rintro ⟨r | ⟨sp, i⟩, rfl, h⟩
    · exact .inl ⟨rfl, exists_registerOffset_iff.1 ⟨r, h.1⟩⟩
    · obtain ⟨hregion, hindex⟩ := (exists_windowByte_iff sp).1 ⟨i, h⟩
      cases sp with
      | key => exact .inr (.inl ⟨rfl, hregion, hindex⟩)
      | ibuf => exact .inr (.inr ⟨rfl, .inl hregion, hindex⟩)
      | obuf => exact .inr (.inr ⟨rfl, .inr hregion, hindex⟩)

/-- A transaction has an instruction exactly when its access is in the offset map (R94). -/
theorem decodeBus_ok_iff_inOffsetMap {c : Config} {d : Descriptor} {w : Word} :
    (∃ i, decodeBus c d w = .ok i) ↔ InOffsetMap c (d.toNat / 2 ^ 14 % 4) (d.toNat % 2 ^ 14) := by
  rw [← toNat_wc, ← toNat_off, inOffsetMap_iff_busTarget]
  constructor
  · rintro ⟨i, hi⟩
    obtain ⟨tg, hb, -⟩ := decodeBus_ok.1 hi
    exact ⟨tg, hb⟩
  · rintro ⟨tg, hb⟩
    exact ⟨_, decodeBus_ok.2 ⟨tg, hb, rfl⟩⟩

/-- Settles O5: the decoder rejects exactly the accesses outside the offset map, and a rejected one is a bus error. -/
theorem unmappedAccessIsBusError : Obligations.UnmappedAccessIsBusError := by
  intro s desc data off wc mapped
  have hmap : (∃ i, decodeBus s.cfg desc data = .ok i) ↔ mapped := decodeBus_ok_iff_inOffsetMap
  constructor
  · intro hnot
    cases hdec : decodeBus s.cfg desc data with
    | ok i => exact absurd (hmap.1 ⟨i, hdec⟩) hnot
    | error r => exact hostTurn_of_error hdec
  · intro h
    obtain ⟨i, hi⟩ := hmap.2 h
    exact ⟨i, hi, hostTurn_of_ok hi⟩

end Sys2Proof.Machine
end

section
/-! PROOFS. The reset step (O8): at the head of the interleaving it is `resetStep` on the state without that entry,
whose fields do not depend on the state but for the parameters and the rest of the interleaving. -/

namespace Sys2Proof.Machine

/-- After a reset every byte of every store is undefined (R40, R230). -/
@[simp] theorem resetStep_byteAt (s : State) (sp : Space) (i : Nat) : (resetStep s).byteAt sp i = none := by
  cases sp <;> rfl

/-- Settles O8: the step is `resetStep`, and its fields are R40's values. -/
theorem resetStepClearsTheCore : Obligations.ResetStepClearsTheCore := by
  intro s rest hin
  have hstep : step s = .next (resetStep (s.setInputs rest)) := step_cons hin
  exact ⟨_, hstep, rfl, rfl, resetStep_byteAt _, rfl, rfl⟩

end Sys2Proof.Machine
end
